-- ==== Sys2Proof/Word.lean ====
section
/-! DEFINITION. The word types of the block (00_scope.md R7: DUR_W = 32, PAY_W = 64). -/

namespace Sys2Proof

/-- A byte of the capture RAM. -/
abbrev Byte := BitVec 8

/-- One register, bus word or command word (10_state.md R21, 20_memory.md R67). -/
abbrev Word := BitVec 32

/-- "an unsigned microsecond value", u32 in this block (00_scope.md R7, R12). -/
abbrev Duration := BitVec 32

/-- "an unsigned integer of up to 64 bits" (00_scope.md R7, R12). -/
abbrev Payload := BitVec 64

end Sys2Proof
end

