-- ==== Sys2Proof/Syntax.lean ====
section
/-! DEFINITION. The nine commands (30_encoding.md R80 to R83) and the command error codes (60_exceptions.md R200). -/

namespace Sys2Proof

/-- One command of 30_encoding.md R82, with the fields R83 marks as used. PROF, NBITS and REPEAT are the unsigned
fields of R80, as wide as the command word has them. -/
inductive Instr where
  /-- MATCH (40_matcher.md R104). -/
  | matchWithin
  /-- MATCHAL (40_matcher.md R105). -/
  | matchAtLeast
  /-- REV (41_bitcodec.md R121). -/
  | rev (nbits : BitVec 7)
  /-- BENC (41_bitcodec.md R123). -/
  | benc (prof : BitVec 2) (nbits : BitVec 7)
  /-- BDEC (41_bitcodec.md R126). -/
  | bdec (prof : BitVec 2) (nbits : BitVec 7)
  /-- SEND (42_assembler.md R140). -/
  | send (prof : BitVec 2) (nbits : BitVec 7) (repeats : BitVec 12)
  /-- DECODE (43_parser.md R160). -/
  | decode (prof : BitVec 2) (strict : Bool) (nbits : BitVec 7)
  /-- PENC (44_protocol.md R190). -/
  | penc (prof : BitVec 2)
  /-- PCHK (44_protocol.md R191). -/
  | pchk (prof : BitVec 2) (strict : Bool) (nbits : BitVec 7)
  deriving DecidableEq, Repr

/-- The causes of a refusal, in the priority order of 60_exceptions.md R202. -/
inductive CmdError where
  | illegal
  | rsv
  | nbits
  | profile
  | noCodec
  | capLen
  deriving DecidableEq, Repr

end Sys2Proof
end

