-- ==== Sys2Proof/WellFormed.lean ====
section
/-! DEFINITION. Which commands are well formed (30_encoding.md R83, R91): the one range the field widths leave to check
is NBITS, 1..64. -/

namespace Sys2Proof

/-- "NBITS must lie in 1..64 for every opcode where rule R83 marks it U (1..64)" (30_encoding.md R91). -/
def nbitsLegal (n : BitVec 7) : Bool :=
  decide (1 ≤ n.toNat) && decide (n.toNat ≤ 64)

/-- A command with every field in the range 30_encoding.md R83 gives it. -/
def Instr.wf : Instr → Bool
  | .matchWithin => true
  | .matchAtLeast => true
  | .rev n => nbitsLegal n
  | .benc _ n => nbitsLegal n
  | .bdec _ n => nbitsLegal n
  | .send _ n _ => nbitsLegal n
  | .decode _ _ n => nbitsLegal n
  | .penc _ => true
  | .pchk _ _ n => nbitsLegal n

end Sys2Proof
end

