-- ==== Sys2Proof/Decode.lean ====
section
/-! DEFINITION. Decoding a command word, total on every word and refusing by name (30_encoding.md R80 to R85), and the
encoder written from the same tables. -/

namespace Sys2Proof

/-! ### The fields of R80 -/

/-- OP, bits 7:0. -/
def fieldOp (w : Word) : BitVec 8 := w.extractLsb' 0 8
/-- PROF, bits 9:8. -/
def fieldProf (w : Word) : BitVec 2 := w.extractLsb' 8 2
/-- STRICT, bit 10. -/
def fieldStrict (w : Word) : Bool := w.getLsbD 10
/-- NBITS, bits 18:12. -/
def fieldNbits (w : Word) : BitVec 7 := w.extractLsb' 12 7
/-- REPEAT, bits 31:20. -/
def fieldRepeat (w : Word) : BitVec 12 := w.extractLsb' 20 12

/-- The word of 30_encoding.md R80 with these fields; bits 19 and 11 are 0. -/
def commandWord (op : BitVec 8) (prof : BitVec 2) (strict : Bool) (nbits : BitVec 7) (repeats : BitVec 12) : Word :=
  repeats ++ 0#1 ++ nbits ++ 0#1 ++ BitVec.ofBool strict ++ prof ++ op

/-! ### The table of R83 -/

/-- One row of 30_encoding.md R83: "a word selects the opcode iff `(word & mask) == match`". -/
structure Row where
  pattern : Word
  mask : Word
  deriving DecidableEq, Repr

/-- The row of R83 of each command. -/
def rowOf : Instr → Row
  | .matchWithin => ⟨0x00000001, 0xFFFFFFFF⟩
  | .matchAtLeast => ⟨0x00000002, 0xFFFFFFFF⟩
  | .rev _ => ⟨0x00000003, 0xFFF80FFF⟩
  | .benc _ _ => ⟨0x00000010, 0xFFF80CFF⟩
  | .bdec _ _ => ⟨0x00000011, 0xFFF80CFF⟩
  | .send _ _ _ => ⟨0x00000020, 0x00080CFF⟩
  | .decode _ _ _ => ⟨0x00000030, 0xFFF808FF⟩
  | .penc _ => ⟨0x00000040, 0xFFFFFCFF⟩
  | .pchk _ _ _ => ⟨0x00000041, 0xFFF808FF⟩

/-- The command an OP value of 30_encoding.md R82 names, with the fields of the word; none for a reserved OP value. -/
def commandOf (w : Word) : Option Instr :=
  let op := fieldOp w
  if op = 0x01#8 then some .matchWithin
  else if op = 0x02#8 then some .matchAtLeast
  else if op = 0x03#8 then some (.rev (fieldNbits w))
  else if op = 0x10#8 then some (.benc (fieldProf w) (fieldNbits w))
  else if op = 0x11#8 then some (.bdec (fieldProf w) (fieldNbits w))
  else if op = 0x20#8 then some (.send (fieldProf w) (fieldNbits w) (fieldRepeat w))
  else if op = 0x30#8 then some (.decode (fieldProf w) (fieldStrict w) (fieldNbits w))
  else if op = 0x40#8 then some (.penc (fieldProf w))
  else if op = 0x41#8 then some (.pchk (fieldProf w) (fieldStrict w) (fieldNbits w))
  else none

/-- Decode a command word. A reserved OP value is ERR_ILLEGAL (R84); a nonzero field that R83 marks Z, or bit 11 or 19,
is ERR_RSV (R83, R85); ILLEGAL comes first (60_exceptions.md R202). NBITS is checked at acceptance (R91). -/
def decode (w : Word) : Except CmdError Instr :=
  match commandOf w with
  | none => .error .illegal
  | some i => if w &&& (rowOf i).mask = (rowOf i).pattern then .ok i else .error .rsv

/-- The word of a command: its opcode of R82 and its fields in the places of R80, every other bit 0. -/
def encode : Instr → Word
  | .matchWithin => commandWord 0x01 0 false 0 0
  | .matchAtLeast => commandWord 0x02 0 false 0 0
  | .rev n => commandWord 0x03 0 false n 0
  | .benc p n => commandWord 0x10 p false n 0
  | .bdec p n => commandWord 0x11 p false n 0
  | .send p n r => commandWord 0x20 p false n r
  | .decode p s n => commandWord 0x30 p s n 0
  | .penc p => commandWord 0x40 p false 0 0
  | .pchk p s n => commandWord 0x41 p s n 0

/-- What the decoder reads from a command whose low `nbits` bits are those of `w` and whose other bits are 0, bit 0 the
least significant of the one command word (30_encoding.md R87: every command is one 32-bit word). -/
def decodeTableWord (nbits w : Nat) : Option Instr :=
  match decode (BitVec.ofNat 32 (w % 2 ^ nbits)) with
  | .ok i => some i
  | .error _ => none

end Sys2Proof
end

