-- ==== Sys2Proof/Config.lean ====
section
/-! DEFINITION. What an implementation or its platform fixes (00_scope.md R7, 20_memory.md R69, R71), and the free
values the spec leaves open. -/

namespace Sys2Proof

/-- The named parameters. They are plain data that State carries and no step changes, so that a claim about every
state is a claim about every implementation (assumption log 3). -/
structure Config where
  /-- CAP_DEPTH, the capture RAM's elements: 131..1024, default 1024 (00_scope.md R7, D31). -/
  capDepth : Nat
  /-- IRCORE_BASE, where the window sits in the host's address space (20_memory.md R71). -/
  base : Nat
  /-- Does the platform bus carry a bus error response (20_memory.md R69)? -/
  busErrors : Bool
  deriving DecidableEq, Repr

/-- The range R7 gives CAP_DEPTH. -/
def Config.wf (c : Config) : Bool :=
  decide (131 ≤ c.capDepth) && decide (c.capDepth ≤ 1024)

/-- FREE VALUE (assumption log 5): the unspecified words of a bus read, one for each draw (20_memory.md R65, R69;
93_implementation_defined.md items 23 and 24). It has no body: nothing can be proved of what it is. -/
opaque Config.freeWord : Nat → Word

end Sys2Proof
end

