-- ==== Sys2Proof/Machine/State.lean ====
section
/-! DEFINITION. Everything the spec gives the machine, as plain data (10_state.md R20 to R48, 20_memory.md R61,
60_exceptions.md R205 to R208, 70_reset_and_hazards.md R220), and the state after reset (R54). -/

namespace Sys2Proof.Machine

/-! ### Registers -/

/-- STATUS without BUSY, which is `seq.phase` (10_state.md R23, R24; assumption log 19). -/
structure Status where
  /-- bit 1 (R26) -/
  done : Bool
  /-- bit 2 (R27) -/
  ok : Bool
  /-- bit 3 (R28) -/
  err : Bool
  /-- bits 7:4 (R28) -/
  errcode : BitVec 4
  /-- bit 8 (R29) -/
  wign : Bool
  deriving DecidableEq, Repr

/-- The result registers (10_state.md R44 to R48), each as wide as its field. -/
structure Results where
  lo : Word
  hi : Word
  bits : BitVec 7
  addr : BitVec 16
  cmd : BitVec 8
  proto : BitVec 8
  deriving DecidableEq, Repr

/-- One FrameSpec bank (10_state.md R30, R32, R34). -/
structure Profile where
  hdrMark : Duration
  hdrSpace : Duration
  bitMark : Duration
  oneSpace : Duration
  zeroSpace : Duration
  ftrMark : Duration
  minGap : Duration
  minFrame : Duration
  rptSpace : Duration
  /-- FORMAT[6:0] -/
  nbitsCanon : BitVec 7
  /-- FORMAT[7]: 0 = MSB_FIRST, 1 reserved -/
  order : BitVec 1
  /-- FORMAT[9:8]: 0 = FULL, 1 = SHORT, 2 and 3 reserved -/
  rptMode : BitVec 2
  /-- FORMAT[11:10]: 0 = NONE, 1 = NEC, 2 = SAMSUNG, 3 reserved -/
  codec : BitVec 2
  /-- FORMAT[23:16] -/
  protoId : BitVec 8
  /-- CARRIER[15:0] -/
  freqKhz : BitVec 16
  /-- CARRIER[23:16] -/
  dutyPct : BitVec 8
  deriving DecidableEq, Repr

/-! ### Memory -/

/-- The capture RAM's bytes by their window offset (20_memory.md R61, R67), strictly rising; an offset that is not
listed holds no value (R65). -/
abbrev Memory := List Host.Cell

/-! ### The sequencer (10_state.md R23) -/

/-- "`phase` ∈ {`IDLE`, `RUN`}". RUN is STATUS.BUSY = 1. -/
inductive Phase where
  | idle
  | run
  deriving DecidableEq, Repr

/-- The FrameParser's states (43_parser.md R172, 10_state.md R22). -/
inductive ParseState where
  | start
  | headerMatched
  | bodyMatched
  | footerMatched
  | compliant
  | nonStrictAccepted
  | success
  | failure
  deriving DecidableEq, Repr

inductive TokenKind where
  | mark
  | space
  deriving DecidableEq, Repr

/-- "one emitted interval, `m<d>` or `s<d>`" (00_scope.md R12). -/
structure Token where
  kind : TokenKind
  dur : Duration
  deriving DecidableEq, Repr

/-- The sequencer's record (10_state.md R23), with the parser state R22 and 43_parser.md R172 add. -/
structure Sequencer where
  phase : Phase
  /-- the accepted command word -/
  cmd : Word
  /-- SEND's frame index -/
  frame : Nat
  /-- the position in the current action list of a SEND or BENC -/
  step : Nat
  /-- the token handed to the emission driver and not yet completed -/
  pending : Option Token
  /-- the capture cursor -/
  cur : Nat
  /-- the payload accumulator -/
  acc : Payload
  /-- the last clock reading of the current frame -/
  elapsed : Duration
  parse : ParseState
  deriving DecidableEq, Repr

/-! ### The agents outside the block -/

inductive BusOp where
  | read
  | write (v : Word)
  deriving DecidableEq, Repr

/-- A host access of `width` bytes at a byte address of the host's space (20_memory.md R60, R69, R71). The value of a
write is its word; a write of another width has no effect. -/
structure BusAccess where
  addr : Nat
  width : Nat
  op : BusOp
  deriving DecidableEq, Repr

/-- What the host gets back from an access (20_memory.md R69, assumption log 12). -/
inductive BusResponse where
  /-- a read's value -/
  | data (v : Word)
  /-- a write taken by the block -/
  | done
  /-- the platform's bus error response -/
  | busError
  deriving DecidableEq, Repr

/-- What the capture collaborator writes (60_exceptions.md R208). -/
inductive CaptureWrite where
  /-- one Duration into a capture element -/
  | element (i : Nat) (d : Duration)
  /-- the count into CAP_LEN -/
  | length (n : Word)
  deriving DecidableEq, Repr

/-- A line of a host program after the expansions of 30_encoding.md R90, by window offset (R89). -/
inductive HostLine where
  /-- `wr REG, imm` -/
  | wr (off : Nat) (v : Word)
  /-- `rd REG` -/
  | rd (off : Nat)
  /-- `wait` -/
  | wait
  deriving DecidableEq, Repr

/-- One atomic event of one agent (00_scope.md R6, 20_memory.md R72). -/
inductive Event where
  /-- a bus master's access -/
  | host (a : BusAccess)
  /-- the host's program runs its next line -/
  | hostLine
  /-- the sequencer's step -/
  | sequencer
  /-- the emission driver completes the pending token -/
  | driver
  /-- the elapsed-time clock advances by `us` -/
  | clockTick (us : Nat)
  /-- the capture collaborator writes -/
  | collaborator (w : CaptureWrite)
  /-- the reset input is asserted -/
  | resetAssert
  /-- the reset input is released -/
  | resetRelease
  deriving DecidableEq, Repr

/-- One `configureCarrier` event (60_exceptions.md R207). -/
structure CarrierEvent where
  freqKhz : BitVec 16
  dutyPct : BitVec 8
  deriving DecidableEq, Repr

/-- What lies outside the block: the three event traces (10_state.md R20), oldest first, the clock, the host, and the
model's own inputs (assumption log 1, 5 and 13). -/
structure Environment where
  /-- the emitted-token trace -/
  tokens : List Token
  /-- the carrier trace -/
  carriers : List CarrierEvent
  /-- the length of the clock-reset trace, whose events are all alike -/
  clockResets : Nat
  /-- what `elapsedUsec` reads now -/
  clock : Duration
  /-- what the host got back -/
  responses : List BusResponse
  /-- the host program's lines still to run -/
  program : List HostLine
  /-- the free values drawn so far -/
  draws : Nat
  /-- the events still to come, the next first -/
  schedule : List Event
  deriving DecidableEq, Repr

/-! ### The machine -/

structure State where
  cfg : Config
  /-- CTRL.LOCK (10_state.md R38) -/
  lock : Bool
  status : Status
  /-- TOL.TOL_PCT (R36) -/
  tolPct : BitVec 8
  /-- MARGIN.MARGIN_US (R37) -/
  marginUs : Word
  /-- OP_LO (R40) -/
  opLo : Word
  /-- OP_HI (R40) -/
  opHi : Word
  /-- OP_EXP (R41) -/
  opExp : Word
  /-- CURSOR (R42) -/
  cursor : Word
  /-- CAP_LEN (R43) -/
  capLen : Word
  /-- the RES_* registers (R44 to R48) -/
  res : Results
  /-- the profile banks (R30) -/
  profiles : Vector Profile 4
  /-- the capture RAM (20_memory.md R61) -/
  capture : Memory
  seq : Sequencer
  /-- the reset input is asserted (70_reset_and_hazards.md R220) -/
  inReset : Bool
  env : Environment
  deriving DecidableEq, Repr

/-- The machine stops with a fault. -/
inductive Fault where
  /-- UNWRITTEN_CAPTURE(i): raised by BDEC and DECODE when the sequencer would read a capture element not written since
  reset (20_memory.md R65, D44). SAFE: the model stops where the hardware reads some value. -/
  | unwrittenCapture (i : Nat)
  deriving DecidableEq, Repr

/-- No meaning for the instruction. -/
inductive Refusal where
  /-- Raised by exec's arm of an instruction that has no meaning yet. SAFE: nothing runs. No arm raises it now. -/
  | notModelled (mnemonic : String)
  deriving DecidableEq, Repr

/-! ### Reset (10_state.md R54) -/

/-- "every field of every profile bank: 0". -/
def Profile.zero : Profile where
  hdrMark := 0
  hdrSpace := 0
  bitMark := 0
  oneSpace := 0
  zeroSpace := 0
  ftrMark := 0
  minGap := 0
  minFrame := 0
  rptSpace := 0
  nbitsCanon := 0
  order := 0
  rptMode := 0
  codec := 0
  protoId := 0
  freqKhz := 0
  dutyPct := 0

/-- Every RES_* register 0: at reset, and after a failure (R51, R54). -/
def Results.zero : Results := ⟨0, 0, 0, 0, 0, 0⟩

/-- "`phase` = IDLE, no pending token"; DESIGN CHOICE (assumption log 6): the parts R54 leaves unspecified, 0 and Start. -/
def Sequencer.reset : Sequencer where
  phase := .idle
  cmd := 0
  frame := 0
  step := 0
  pending := none
  cur := 0
  acc := 0
  elapsed := 0
  parse := .start

/-- DESIGN CHOICE (assumption log 1, 4, 5, 13): nothing observed yet, the clock at 0, no event to come. -/
def Environment.initial : Environment where
  tokens := []
  carriers := []
  clockResets := 0
  clock := 0
  responses := []
  program := []
  draws := 0
  schedule := []

/-- CAP_DEPTH at its default (00_scope.md R7); DESIGN CHOICE (assumption log 3): base 0, a bus with error responses. -/
def defaultConfig : Config where
  capDepth := 1024
  base := 0
  busErrors := true

/-- The machine right after reset (10_state.md R54). -/
def State.reset : State where
  cfg := defaultConfig
  lock := false
  status := ⟨false, false, false, 0, false⟩
  tolPct := 25
  marginUs := 50
  opLo := 0
  opHi := 0
  opExp := 0
  cursor := 0
  capLen := 0
  res := Results.zero
  profiles := Vector.replicate 4 Profile.zero
  capture := []
  seq := Sequencer.reset
  inReset := false
  env := Environment.initial

end Sys2Proof.Machine
end

