-- ==== Sys2Proof/Machine/Flags.lean ====
section
/-! DEFINITION. STATUS: its word, its bits' setters and clearers, and the error codes (10_state.md R24 to R29,
60_exceptions.md R200). -/

namespace Sys2Proof.Machine

/-- STATUS as the host reads it (10_state.md R24); bits 31:9 read 0 (R49). -/
def Status.toWord (st : Status) (busy : Bool) : Word :=
  0#23 ++ BitVec.ofBool st.wign ++ st.errcode ++ BitVec.ofBool st.err ++ BitVec.ofBool st.ok ++ BitVec.ofBool st.done ++
    BitVec.ofBool busy

/-- Acceptance, and the first act of every `CMD` write, clears DONE, OK, ERR and ERRCODE; WIGN stays (30_encoding.md
R80.1, 10_state.md R26 to R29). -/
def Status.cleared (st : Status) : Status :=
  { st with done := false, ok := false, err := false, errcode := 0 }

/-- A completion sets DONE and writes OK (10_state.md R26, R27, R50). -/
def Status.completed (st : Status) (ok : Bool) : Status :=
  { st with done := true, ok := ok }

/-- The codes of 60_exceptions.md R200. -/
def errCode : CmdError → BitVec 4
  | .illegal => 1
  | .rsv => 2
  | .nbits => 3
  | .profile => 4
  | .noCodec => 5
  | .capLen => 6

/-- A refusal writes DONE, ERR, ERRCODE and OK (60_exceptions.md R201). -/
def Status.refused (st : Status) (e : CmdError) : Status :=
  { st with done := true, ok := false, err := true, errcode := errCode e }

/-- A lost write sets WIGN (10_state.md R29). -/
def Status.writeIgnored (st : Status) : Status :=
  { st with wign := true }

/-- A host write of STATUS: 1 in bit 1 clears DONE, in bit 3 ERR and ERRCODE together, in bit 8 WIGN; no other bit has an
effect (10_state.md R26 to R29). -/
def Status.hostWrite (st : Status) (v : Word) : Status where
  done := st.done && !v.getLsbD 1
  ok := st.ok
  err := st.err && !v.getLsbD 3
  errcode := if v.getLsbD 3 then 0 else st.errcode
  wign := st.wign && !v.getLsbD 8

end Sys2Proof.Machine
end

