-- ==== Sys2Proof/Machine/Operands.lean ====
section
/-! DEFINITION. What a command reads: the operand registers (30_encoding.md R88), the selected profile, the packed
profile registers (10_state.md R30 to R34), and the checks made at acceptance (30_encoding.md R91, R92). -/

namespace Sys2Proof.Machine

/-! ### Constants (00_scope.md R7) -/

/-- START_OFFSET: the capture index of the header mark (D15). -/
def startOffset : Nat := 0
/-- HS: header slots (43_parser.md R161). -/
def headerSlots : Nat := 2
/-- FS: footer slots (43_parser.md R161). -/
def footerSlots : Nat := 2

/-! ### Operands -/

/-- OP = (OP_HI, OP_LO), OP_HI the more significant (10_state.md R40). -/
def State.op (s : State) : Payload := s.opHi ++ s.opLo

/-- PENC's address, OP_LO[15:0] (10_state.md R40). -/
def State.opAddress (s : State) : BitVec 16 := s.opLo.extractLsb' 0 16

/-- PENC's command, OP_LO[23:16] (10_state.md R40). -/
def State.opCommand (s : State) : BitVec 8 := s.opLo.extractLsb' 16 8

/-- `P[p]` (10_state.md R30). -/
def State.profile (s : State) (p : BitVec 2) : Profile := s.profiles[p.toNat]'p.isLt

/-- Store bank p. -/
def State.setProfile (s : State) (p : BitVec 2) (f : Profile) : State :=
  { s with profiles := s.profiles.set p.toNat f p.isLt }

/-! ### The registers of one bank (10_state.md R30) -/

/-- A register of a profile bank. -/
inductive ProfReg where
  | hdrMark | hdrSpace | bitMark | oneSpace | zeroSpace | ftrMark | minGap | minFrame | rptSpace | format | carrier
  deriving DecidableEq, Repr

/-- The register at a word offset in a bank; none from +0x2C on (10_state.md R30). -/
def profRegAt (off : Nat) : Option ProfReg :=
  if off = 0x00 then some .hdrMark
  else if off = 0x04 then some .hdrSpace
  else if off = 0x08 then some .bitMark
  else if off = 0x0C then some .oneSpace
  else if off = 0x10 then some .zeroSpace
  else if off = 0x14 then some .ftrMark
  else if off = 0x18 then some .minGap
  else if off = 0x1C then some .minFrame
  else if off = 0x20 then some .rptSpace
  else if off = 0x24 then some .format
  else if off = 0x28 then some .carrier
  else none

/-- FORMAT as it reads back; bits 31:24 and 15:12 read 0 (10_state.md R32, R49). -/
def Profile.formatWord (f : Profile) : Word :=
  0#8 ++ f.protoId ++ 0#4 ++ f.codec ++ f.rptMode ++ f.order ++ f.nbitsCanon

/-- CARRIER as it reads back; bits 31:24 read 0 (10_state.md R34, R49). -/
def Profile.carrierWord (f : Profile) : Word := 0#8 ++ f.dutyPct ++ f.freqKhz

/-- The word a profile register reads (10_state.md R31 to R34). -/
def Profile.readReg (f : Profile) : ProfReg → Word
  | .hdrMark => f.hdrMark
  | .hdrSpace => f.hdrSpace
  | .bitMark => f.bitMark
  | .oneSpace => f.oneSpace
  | .zeroSpace => f.zeroSpace
  | .ftrMark => f.ftrMark
  | .minGap => f.minGap
  | .minFrame => f.minFrame
  | .rptSpace => f.rptSpace
  | .format => f.formatWord
  | .carrier => f.carrierWord

/-- Write a profile register. Reserved values are stored as written (10_state.md R33), reserved bits are not stored. -/
def Profile.writeReg (f : Profile) (v : Word) : ProfReg → Profile
  | .hdrMark => { f with hdrMark := v }
  | .hdrSpace => { f with hdrSpace := v }
  | .bitMark => { f with bitMark := v }
  | .oneSpace => { f with oneSpace := v }
  | .zeroSpace => { f with zeroSpace := v }
  | .ftrMark => { f with ftrMark := v }
  | .minGap => { f with minGap := v }
  | .minFrame => { f with minFrame := v }
  | .rptSpace => { f with rptSpace := v }
  | .format =>
    { f with
      nbitsCanon := v.extractLsb' 0 7
      order := v.extractLsb' 7 1
      rptMode := v.extractLsb' 8 2
      codec := v.extractLsb' 10 2
      protoId := v.extractLsb' 16 8 }
  | .carrier => { f with freqKhz := v.extractLsb' 0 16, dutyPct := v.extractLsb' 16 8 }

/-- `RPT_MODE` = FULL (10_state.md R32). -/
def Profile.repeatsFull (f : Profile) : Bool := f.rptMode == 0

/-- Does the profile hold no reserved value? (10_state.md R32, 30_encoding.md R92) -/
def Profile.legal (f : Profile) : Bool :=
  !(f.order == 1) && !(f.rptMode == 2 || f.rptMode == 3) && !(f.codec == 3)

/-! ### The checks made at acceptance (60_exceptions.md R200) -/

/-- ERR_NBITS: NBITS not in 1..64 (30_encoding.md R91). -/
def checkNbits (n : BitVec 7) : Option CmdError := if nbitsLegal n then none else some .nbits

/-- ERR_PROFILE: a reserved value in the selected profile (30_encoding.md R92). -/
def checkProfile (s : State) (p : BitVec 2) : Option CmdError := if (s.profile p).legal then none else some .profile

/-- ERR_NOCODEC: the selected profile has CODEC = NONE (44_protocol.md R189). -/
def checkCodec (s : State) (p : BitVec 2) : Option CmdError := if (s.profile p).codec = 0 then some .noCodec else none

/-- ERR_CAPLEN: CAP_LEN above CAP_DEPTH (43_parser.md R163). -/
def checkCapLen (s : State) : Option CmdError := if s.cfg.capDepth < s.capLen.toNat then some .capLen else none

/-- The checks of a command whose word decodes, the first failing one reported, in the order of 60_exceptions.md R202. -/
def acceptanceError (i : Instr) (s : State) : Option CmdError :=
  match i with
  | .matchWithin => none
  | .matchAtLeast => none
  | .rev n => checkNbits n
  | .benc p n => checkNbits n <|> checkProfile s p
  | .bdec p n => checkNbits n <|> checkProfile s p <|> checkCapLen s
  | .send p n _ => checkNbits n <|> checkProfile s p
  | .decode p _ n => checkNbits n <|> checkProfile s p <|> checkCapLen s
  | .penc p => checkProfile s p <|> checkCodec s p
  | .pchk p _ n => checkNbits n <|> checkProfile s p

end Sys2Proof.Machine
end

