-- ==== Sys2Proof/Machine/Ops.lean ====
section
/-! DEFINITION. The shared operations: capture RAM (20_memory.md R61 to R67), refusal and acceptance of a command
(30_encoding.md R80, 60_exceptions.md R201), its completion (10_state.md R50 to R52), and the external events the
sequencer issues (60_exceptions.md R205 to R207). -/

namespace Sys2Proof.Machine

/-- The outcome of a step of this machine. -/
abbrev Result := Host.Outcome State Fault Refusal

/-! ### Memory -/

/-- What an unlisted byte reads as: no value (20_memory.md R65; assumption log 9). -/
def Memory.unlisted (_ : Nat) : Option Byte := none

/-- One byte of the capture RAM by its window offset. -/
def Memory.readByte : Memory → Nat → Option Byte
  | [], a => Memory.unlisted a
  | (b, v) :: m, a => if b = a then some v else Memory.readByte m a

/-- Store one byte, keeping the offsets strictly rising. -/
def Memory.writeByte : Memory → Nat → Byte → Memory
  | [], a, v => [(a, v)]
  | (b, u) :: m, a, v =>
    if a < b then (a, v) :: (b, u) :: m
    else if a = b then (a, v) :: m
    else (b, u) :: Memory.writeByte m a v

/-- One element, little-endian: bits 7:0 in the lowest byte (20_memory.md R67). It has a value once it was written. -/
def Memory.readWord (m : Memory) (a : Nat) : Option Word :=
  match m.readByte a, m.readByte (a + 1), m.readByte (a + 2), m.readByte (a + 3) with
  | some b0, some b1, some b2, some b3 => some (b3 ++ b2 ++ b1 ++ b0)
  | _, _, _, _ => none

/-- Store one element whole (20_memory.md R67). -/
def Memory.writeWord (m : Memory) (a : Nat) (v : Word) : Memory :=
  (((m.writeByte a (v.extractLsb' 0 8)).writeByte (a + 1) (v.extractLsb' 8 8)).writeByte (a + 2)
    (v.extractLsb' 16 8)).writeByte (a + 3) (v.extractLsb' 24 8)

/-- The canonical form: strictly rising offsets, and no byte that equals what its unlisted offset reads as. -/
def Memory.wf : Memory → Bool
  | [] => true
  | (a, v) :: m =>
    decide (some v ≠ Memory.unlisted a) && (match m with
      | [] => true
      | (b, _) :: _ => decide (a < b)) && Memory.wf m

/-- The window offset of capture element 0 (20_memory.md R61). -/
def captureBase : Nat := 0x1000

/-- The window offset of capture element i (20_memory.md R61). -/
def captureOffset (i : Nat) : Nat := captureBase + 4 * i

/-- `CapRead(i)`: the sequencer's only read of the capture RAM; none if element i was not written since reset
(20_memory.md R62, R65). -/
def capRead (s : State) (i : Nat) : Option Duration := s.capture.readWord (captureOffset i)

/-- Write capture element i (20_memory.md R64). -/
def capWrite (s : State) (i : Nat) (d : Duration) : State :=
  { s with capture := s.capture.writeWord (captureOffset i) d }

/-! ### Updates of one part of the state -/

/-- Replace STATUS's stored bits. -/
def State.setStatus (s : State) (st : Status) : State := { s with status := st }
/-- Replace the sequencer's record. -/
def State.setSeq (s : State) (q : Sequencer) : State := { s with seq := q }
/-- Replace the result registers. -/
def State.setRes (s : State) (r : Results) : State := { s with res := r }
/-- Replace CURSOR. -/
def State.setCursor (s : State) (v : Word) : State := { s with cursor := v }
/-- Replace what lies outside the block. -/
def State.setEnv (s : State) (e : Environment) : State := { s with env := e }

/-- STATUS.BUSY (10_state.md R23, R25). -/
def State.busy (s : State) : Bool := s.seq.phase == .run

/-! ### Acceptance and refusal -/

/-- THE SHARED REFUSAL: writes DONE, ERR, ERRCODE and OK and nothing else (60_exceptions.md R201). The block takes no
other exception (R204), and nothing returns from it: the host clears the bits (R210). -/
def refuse (e : CmdError) (s : State) : State := s.setStatus (s.status.cleared.refused e)

/-- The sequencer's record of an accepted command: RUN, the word, and `cur`, `acc`, `frame`, `step` and the parser's
state taken fresh (10_state.md R23, 30_encoding.md R80.4). -/
def Sequencer.started (q : Sequencer) (w : Word) : Sequencer :=
  { q with phase := .run, cmd := w, frame := 0, step := 0, cur := startOffset, acc := 0, parse := .start }

/-- Acceptance: DONE, OK, ERR and ERRCODE cleared, BUSY set, the word kept (30_encoding.md R80). The word of a decoded
command is its encoding (assumption log 21). -/
def accept (i : Instr) (s : State) : State :=
  (s.setStatus s.status.cleared).setSeq (s.seq.started (encode i))

/-- One `CMD` write whose word decodes to `i` (30_encoding.md R80). -/
def present (i : Instr) (s : State) : State :=
  match acceptanceError i s with
  | some e => refuse e s
  | none => accept i s

/-- A command's meaning. While IDLE it is the step of the `CMD` write (30_encoding.md R80); in RUN it is the sequencer's
next step `body`, and the sequencer has no step while a token is pending (60_exceptions.md R205, R214). -/
def command (i : Instr) (body : State → Result) (s : State) : Result :=
  match s.seq.phase with
  | .idle => .next (present i s)
  | .run =>
    match s.seq.pending with
    | some _ => .next s
    | none => body s

/-! ### Completion (10_state.md R50, R52) -/

/-- The completion step: every RES_* register, DONE, OK, and BUSY cleared, together. -/
def complete (ok : Bool) (r : Results) (s : State) : State :=
  ((s.setRes r).setStatus (s.status.completed ok)).setSeq { s.seq with phase := .idle }

/-- A decode failure: OK 0, every RES_* 0, CURSOR unchanged (10_state.md R51). -/
def failDecode (s : State) : State := complete false Results.zero s

/-- Results that are only a u64 RES (10_state.md R44, R52). -/
def Results.ofPayload (v : Payload) : Results :=
  { Results.zero with lo := v.extractLsb' 0 32, hi := v.extractLsb' 32 32 }

/-- The completion of a MATCH or MATCHAL with outcome r (10_state.md R52, 40_matcher.md R104). -/
def completeMatch (r : Bool) (s : State) : State :=
  complete r (Results.ofPayload (if r then 1 else 0)) s

/-! ### External events -/

/-- `Emit`: hand one token to the driver and go on to the next position (60_exceptions.md R205.1). -/
def emit (t : Token) (s : State) : State :=
  s.setSeq { s.seq with pending := some t, step := s.seq.step + 1 }

/-- `Carrier(f, d)`: one event, complete in this step (60_exceptions.md R207). -/
def carrier (f : BitVec 16) (d : BitVec 8) (s : State) : State :=
  (s.setEnv { s.env with carriers := s.env.carriers ++ [⟨f, d⟩] }).setSeq { s.seq with step := s.seq.step + 1 }

/-- `ClockReset()`: one event that re-zeroes the clock (60_exceptions.md R206). -/
def clockReset (s : State) : State :=
  (s.setEnv { s.env with clockResets := s.env.clockResets + 1, clock := 0 }).setSeq { s.seq with step := s.seq.step + 1 }

/-- `ClockRead()`: the reading goes to `elapsed` (60_exceptions.md R206, 10_state.md R23). -/
def clockRead (s : State) : State :=
  s.setSeq { s.seq with elapsed := s.env.clock, step := s.seq.step + 1 }

end Sys2Proof.Machine
end

