-- ==== Sys2Proof/Machine/Matcher.lean ====
section
/-! DEFINITION. The DurationMatcher: the two predicates and MATCH, MATCHAL (40_matcher.md). All arithmetic is exact
(00_scope.md R9). -/

namespace Sys2Proof.Machine

/-- `floor(e · TOL_PCT / 100)`, the percentage part of the band (40_matcher.md R100). -/
def tolerancePart (s : State) (e : Duration) : Nat := e.toNat * s.tolPct.toNat / 100

/-- `T(e)`, the tolerance band of an expected Duration (40_matcher.md R100). -/
def band (s : State) (e : Duration) : Nat := tolerancePart s e + s.marginUs.toNat

/-- `matches(m, e)` (40_matcher.md R101). -/
def durMatches (s : State) (m e : Duration) : Bool :=
  let d := if e.toNat ≤ m.toNat then m.toNat - e.toNat else e.toNat - m.toNat
  decide (d ≤ band s e)

/-- `L(e)`, which may be negative (40_matcher.md R102). -/
def lowerBound (s : State) (e : Duration) : Int :=
  (e.toNat : Int) - (tolerancePart s e : Int) - (s.marginUs.toNat : Int)

/-- `matchesAtLeast(m, e)` (40_matcher.md R102). -/
def durMatchesAtLeast (s : State) (m e : Duration) : Bool :=
  decide (lowerBound s e ≤ (m.toNat : Int))

/-- MATCH (40_matcher.md R104). -/
def execMatchWithin (s : State) : Result :=
  command .matchWithin (fun s => .next (completeMatch (durMatches s s.opLo s.opExp) s)) s

/-- MATCHAL (40_matcher.md R105). -/
def execMatchAtLeast (s : State) : Result :=
  command .matchAtLeast (fun s => .next (completeMatch (durMatchesAtLeast s s.opLo s.opExp) s)) s

end Sys2Proof.Machine
end

