-- ==== Sys2Proof/Machine/BitCodec.lean ====
section
/-! DEFINITION. The BitCodec: bit reversal, encode, decode, and REV, BENC, BDEC (41_bitcodec.md). -/

namespace Sys2Proof.Machine

/-! ### Bit reversal (41_bitcodec.md R120) -/

/-- The low w bits of x, reversed: bit i goes to bit w−1−i. -/
def revLow (x : Payload) : Nat → Payload
  | 0 => 0
  | w + 1 => (revLow x w <<< 1) ||| (if x.getLsbD w then 1 else 0)

/-- `rev(x, w)`: the low w bits reversed, the bits above kept (41_bitcodec.md R120, D29). -/
def rev (x : Payload) (w : Nat) : Payload := ((x >>> w) <<< w) ||| revLow x w

/-- REV (41_bitcodec.md R121). -/
def execRev (n : BitVec 7) (s : State) : Result :=
  command (.rev n) (fun s => .next (complete true (Results.ofPayload (rev s.op n.toNat)) s)) s

/-! ### Encode (41_bitcodec.md R122) -/

/-- The mark/space pair of one body bit. -/
def bitTokens (f : Profile) (b : Bool) : List Token :=
  [⟨.mark, f.bitMark⟩, ⟨.space, if b then f.oneSpace else f.zeroSpace⟩]

/-- The tokens of `BitEncode(v, N, p)`: bit N−1 first (41_bitcodec.md R122). -/
def bodyTokens (f : Profile) (v : Payload) : Nat → List Token
  | 0 => []
  | n + 1 => bitTokens f (v.getLsbD n) ++ bodyTokens f v n

/-- BENC's next step: the token at its position, or the completion after the last one (41_bitcodec.md R123). -/
def bencStep (p : BitVec 2) (n : BitVec 7) (s : State) : State :=
  match (bodyTokens (s.profile p) s.op n.toNat)[s.seq.step]? with
  | some t => emit t s
  | none => complete true Results.zero s

/-- BENC (41_bitcodec.md R123). -/
def execBenc (p : BitVec 2) (n : BitVec 7) (s : State) : Result :=
  command (.benc p n) (fun s => .next (bencStep p n s)) s

/-! ### Decode (41_bitcodec.md R124, R125) -/

/-- How a walk over the capture goes on: matched, failed (⊥), or at an element that holds no value (20_memory.md R65). -/
inductive Walk (α : Type) where
  | matched (a : α)
  | failed
  | unwritten (i : Nat)
  deriving DecidableEq, Repr

/-- Read element i and go on with it. -/
def Walk.read {α : Type} (s : State) (i : Nat) (k : Duration → Walk α) : Walk α :=
  match capRead s i with
  | none => .unwritten i
  | some d => k d

/-- `classify(s, p)`: exactly one of one-space and zero-space must match (41_bitcodec.md R124). -/
def classify (s : State) (f : Profile) (d : Duration) : Option Bool :=
  let one := durMatches s d f.oneSpace
  let zero := durMatches s d f.zeroSpace
  if one && !zero then some true
  else if zero && !one then some false
  else none

/-- `BitDecode` from index c with accumulator acc, `n` bits still to read; the first failing element ends the walk
(41_bitcodec.md R125). -/
def bitDecode (s : State) (f : Profile) : Nat → Nat → Payload → Walk (Payload × Nat)
  | 0, c, acc => .matched (acc, c)
  | n + 1, c, acc =>
    Walk.read s c fun m =>
      if durMatches s m f.bitMark then
        Walk.read s (c + 1) fun d =>
          match classify s f d with
          | some b => bitDecode s f n (c + 2) ((acc <<< 1) ||| (if b then 1 else 0))
          | none => .failed
      else .failed

/-- The sequencer's cursor and accumulator after a walk (10_state.md R23). -/
def walkedTo (v : Payload) (c : Nat) (s : State) : State :=
  s.setSeq { s.seq with acc := v, cur := c }

/-- BDEC's walk and completion (41_bitcodec.md R126). CURSOR is 32 bits: the new value is below CAP_LEN or equal to it, so
it fits. -/
def bdecStep (p : BitVec 2) (n : BitVec 7) (s : State) : Result :=
  if s.capLen.toNat < s.cursor.toNat + 2 * n.toNat then .next (failDecode s)
  else
    match bitDecode s (s.profile p) n.toNat s.cursor.toNat 0 with
    | .unwritten i => .fault (.unwrittenCapture i)
    | .failed => .next (failDecode s)
    | .matched (v, c) =>
      .next (complete true { Results.ofPayload v with bits := n }
        ((walkedTo v c s).setCursor (BitVec.ofNat 32 c)))

/-- BDEC (41_bitcodec.md R126). -/
def execBdec (p : BitVec 2) (n : BitVec 7) (s : State) : Result :=
  command (.bdec p n) (bdecStep p n) s

end Sys2Proof.Machine
end

