-- ==== Sys2Proof/Machine/Assembler.lean ====
section
/-! DEFINITION. The FrameAssembler: SEND (42_assembler.md), and the waveform as text (R148). -/

namespace Sys2Proof.Machine

/-- One action of the sequencer in a SEND (42_assembler.md R141, R143). -/
inductive Action where
  | carrier (f : BitVec 16) (d : BitVec 8)
  | clockReset
  | emit (t : Token)
  | clockRead
  /-- the trailing space, whose duration depends on the clock reading (R144) -/
  | emitGap
  deriving DecidableEq, Repr

/-- `gap(p, e) = max(MIN_GAP, MIN_FRAME − e)`, exact: where e is above MIN_FRAME the difference is negative and MIN_GAP
wins (42_assembler.md R144). -/
def gap (f : Profile) (e : Duration) : Duration :=
  BitVec.ofNat 32 (max f.minGap.toNat (f.minFrame.toNat - e.toNat))

/-- What follows the header mark of frame k and comes before its footer mark: the header space and the body, or in a
SHORT repeat frame the repeat space (42_assembler.md R140, R145, R146). -/
def frameMiddle (f : Profile) (v : Payload) (n k : Nat) : List Token :=
  if k = 0 || f.repeatsFull then ⟨.space, f.hdrSpace⟩ :: bodyTokens f v n
  else [⟨.space, f.rptSpace⟩]

/-- The actions of frame k, in order (42_assembler.md R143). -/
def frameActions (f : Profile) (v : Payload) (n k : Nat) : List Action :=
  [.clockReset, .emit ⟨.mark, f.hdrMark⟩] ++ (frameMiddle f v n k).map .emit ++
    [.emit ⟨.mark, f.ftrMark⟩, .clockRead, .emitGap]

/-- The actions of a SEND while its frame index is k: the carrier event comes once, before frame 0 (42_assembler.md
R141). -/
def sendActions (f : Profile) (v : Payload) (n k : Nat) : List Action :=
  (if k = 0 then [.carrier f.freqKhz f.dutyPct] else []) ++ frameActions f v n k

/-- Perform one action and go on to the next position. -/
def perform (f : Profile) (s : State) : Action → State
  | .carrier k d => carrier k d s
  | .clockReset => clockReset s
  | .emit t => emit t s
  | .clockRead => clockRead s
  | .emitGap => emit ⟨.space, gap f s.seq.elapsed⟩ s

/-- Go on to the next frame (42_assembler.md R142). -/
def nextFrame (s : State) : State :=
  s.setSeq { s.seq with frame := s.seq.frame + 1, step := 0 }

/-- SEND's next step: the action at its position; after a frame's last action the next frame; after frame REPEAT the
completion (42_assembler.md R140, R142, R150). -/
def sendStep (p : BitVec 2) (n : BitVec 7) (r : BitVec 12) (s : State) : State :=
  match (sendActions (s.profile p) s.op n.toNat s.seq.frame)[s.seq.step]? with
  | some a => perform (s.profile p) s a
  | none => if s.seq.frame < r.toNat then nextFrame s else complete true Results.zero s

/-- SEND (42_assembler.md R140). -/
def execSend (p : BitVec 2) (n : BitVec 7) (r : BitVec 12) (s : State) : Result :=
  command (.send p n r) (fun s => .next (sendStep p n r s)) s

/-! ### The waveform (42_assembler.md R148) -/

/-- `m<d>` or `s<d>`, the duration in decimal with no leading zeros. -/
def Token.render (t : Token) : String :=
  (match t.kind with
    | .mark => "m"
    | .space => "s") ++ t.dur.toNat.repr

/-- The concatenated tokens, no separators. -/
def waveform (ts : List Token) : String :=
  ts.foldr (fun t rest => t.render ++ rest) ""

end Sys2Proof.Machine
end

