-- ==== Sys2Proof/Machine/Protocol.lean ====
section
/-! DEFINITION. The ProtocolCodec instances NEC-style and Samsung, PENC and PCHK (44_protocol.md). -/

namespace Sys2Proof.Machine

/-- `byte(v, k) = v[31−8k : 24−8k]` (44_protocol.md R181). -/
def payloadByte (v : Payload) (k : Nat) : BitVec 8 := v.extractLsb' (24 - 8 * k) 8

/-- `rev(b, 8)` of a byte (41_bitcodec.md R120, R127). -/
def rev8 (b : BitVec 8) : BitVec 8 := (rev (b.setWidth 64) 8).setWidth 8

/-- `rev(a, 16)` of a 16-bit field. -/
def rev16 (a : BitVec 16) : BitVec 16 := (rev (a.setWidth 64) 16).setWidth 16

/-- NEC-style payload: the 8-bit form for a ≤ 0xFF (44_protocol.md R182), else the extended form (R183). -/
def necEncode (a : BitVec 16) (c : BitVec 8) : Word :=
  let ck := rev8 c
  if a.toNat ≤ 0xFF then
    let ad := rev8 (a.setWidth 8)
    ad ++ ~~~ad ++ ck ++ ~~~ck
  else rev16 a ++ ck ++ ~~~ck

/-- Samsung payload, the address truncated to 8 bits (44_protocol.md R186). -/
def samEncode (a : BitVec 16) (c : BitVec 8) : Word :=
  let ad := rev8 (a.setWidth 8)
  let ck := rev8 c
  ad ++ ad ++ ck ++ ~~~ck

/-- `comply(codec, v)` (44_protocol.md R180, R184, R187, R189). A reserved codec never gets here (30_encoding.md R92;
assumption log 11). -/
def comply (codec : BitVec 2) (v : Payload) : Bool :=
  if codec = 1 then payloadByte v 3 == ~~~(payloadByte v 2)
  else if codec = 2 then payloadByte v 0 == payloadByte v 1 && payloadByte v 2 == ~~~(payloadByte v 3)
  else true

/-- `fields(codec, v)`: address and command (44_protocol.md R180, R185, R188, R189). -/
def fields (codec : BitVec 2) (v : Payload) : BitVec 16 × BitVec 8 :=
  if codec = 1 then
    (if payloadByte v 1 = ~~~(payloadByte v 0) then (rev8 (payloadByte v 0)).setWidth 16
      else rev16 (v.extractLsb' 16 16),
      rev8 (payloadByte v 2))
  else if codec = 2 then ((rev8 (payloadByte v 0)).setWidth 16, rev8 (payloadByte v 2))
  else (0, 0)

/-- The payload PENC builds; none where the codec has no construction (44_protocol.md R180). -/
def codecPayload (codec : BitVec 2) (a : BitVec 16) (c : BitVec 8) : Option Word :=
  if codec = 1 then some (necEncode a c)
  else if codec = 2 then some (samEncode a c)
  else none

/-- The results of a successful DECODE or PCHK (10_state.md R52, 43_parser.md R171, 44_protocol.md R191). -/
def decodedResults (f : Profile) (n : BitVec 7) (v : Payload) : Results :=
  { Results.ofPayload v with
    bits := n
    addr := (fields f.codec v).1
    cmd := (fields f.codec v).2
    proto := f.protoId }

/-- PENC's step. A profile without a payload construction is refused at acceptance (44_protocol.md R189); in RUN it would
leave the sequencer without a step (assumption log 11). -/
def pencStep (p : BitVec 2) (s : State) : State :=
  match codecPayload (s.profile p).codec s.opAddress s.opCommand with
  | some w => complete true (Results.ofPayload (w.setWidth 64)) s
  | none => s

/-- PENC (44_protocol.md R190). -/
def execPenc (p : BitVec 2) (s : State) : Result :=
  command (.penc p) (fun s => .next (pencStep p s)) s

/-- Do the strict checks pass: the canonical bit count (43_parser.md R162) and compliance (R170)? -/
def strictChecks (f : Profile) (strict : Bool) (n : BitVec 7) (v : Payload) : Bool :=
  !strict || (n == f.nbitsCanon && comply f.codec v)

/-- PCHK's step (44_protocol.md R191). -/
def pchkStep (p : BitVec 2) (strict : Bool) (n : BitVec 7) (s : State) : State :=
  if strictChecks (s.profile p) strict n s.op then complete true (decodedResults (s.profile p) n s.op) s
  else failDecode s

/-- PCHK (44_protocol.md R191). -/
def execPchk (p : BitVec 2) (strict : Bool) (n : BitVec 7) (s : State) : Result :=
  command (.pchk p strict n) (fun s => .next (pchkStep p strict n s)) s

end Sys2Proof.Machine
end

