-- ==== Sys2Proof/Machine/Parser.lean ====
section
/-! DEFINITION. The FrameParser: DECODE as the state machine of 43_parser.md R172, one transition a step. -/

namespace Sys2Proof.Machine

/-- Enter a parser state with a cursor and an accumulator (10_state.md R23). -/
def parsedTo (st : ParseState) (c : Nat) (v : Payload) (s : State) : State :=
  s.setSeq { s.seq with parse := st, cur := c, acc := v }

/-- The end of one transition: the next state, Failure on the first mismatch, or the fault of 20_memory.md R65. -/
def parseResult (w : Walk State) (s : State) : Result :=
  match w with
  | .matched t => .next t
  | .failed => .next (parsedTo .failure s.seq.cur s.seq.acc s)
  | .unwritten i => .fault (.unwrittenCapture i)

/-- The shortest capture of an N-bit frame, 2N + HS + FS − 1 elements (43_parser.md R164). -/
def leastFrame (n : Nat) : Nat := 2 * n + headerSlots + footerSlots - 1

/-- Start: the strict bit count (43_parser.md R162), the length (R164), the header mark and space (R165). -/
def parseStart (f : Profile) (strict : Bool) (n : BitVec 7) (s : State) : Walk State :=
  if strict && !(n == f.nbitsCanon) then .failed
  else if s.capLen.toNat < startOffset + leastFrame n.toNat then .failed
  else
    Walk.read s startOffset fun m =>
      if durMatches s m f.hdrMark then
        Walk.read s (startOffset + 1) fun sp =>
          if durMatches s sp f.hdrSpace then
            .matched (parsedTo .headerMatched (startOffset + 2) s.seq.acc s)
          else .failed
      else .failed

/-- HeaderMatched: the body (43_parser.md R166). -/
def parseBody (f : Profile) (n : BitVec 7) (s : State) : Walk State :=
  match bitDecode s f n.toNat s.seq.cur 0 with
  | .matched (v, c) => .matched (parsedTo .bodyMatched c v s)
  | .failed => .failed
  | .unwritten i => .unwritten i

/-- BodyMatched: the footer mark (43_parser.md R167), and the gap if an element follows it (R168). -/
def parseFooter (f : Profile) (s : State) : Walk State :=
  Walk.read s s.seq.cur fun m =>
    if durMatches s m f.ftrMark then
      if s.seq.cur + 1 < s.capLen.toNat then
        Walk.read s (s.seq.cur + 1) fun g =>
          if durMatchesAtLeast s g f.minGap then
            .matched (parsedTo .footerMatched (s.seq.cur + 1) s.seq.acc s)
          else .failed
      else .matched (parsedTo .footerMatched (s.seq.cur + 1) s.seq.acc s)
    else .failed

/-- FooterMatched: compliance if strict (43_parser.md R170). -/
def parseCompliance (f : Profile) (strict : Bool) (s : State) : Walk State :=
  if strict then
    if comply f.codec s.seq.acc then .matched (parsedTo .compliant s.seq.cur s.seq.acc s) else .failed
  else .matched (parsedTo .nonStrictAccepted s.seq.cur s.seq.acc s)

/-- DECODE's next step: one transition of 43_parser.md R172; Success and Failure lead to the completion (R171,
10_state.md R51). -/
def decodeStep (p : BitVec 2) (strict : Bool) (n : BitVec 7) (s : State) : Result :=
  match s.seq.parse with
  | .start => parseResult (parseStart (s.profile p) strict n s) s
  | .headerMatched => parseResult (parseBody (s.profile p) n s) s
  | .bodyMatched => parseResult (parseFooter (s.profile p) s) s
  | .footerMatched => parseResult (parseCompliance (s.profile p) strict s) s
  | .compliant => .next (parsedTo .success s.seq.cur s.seq.acc s)
  | .nonStrictAccepted => .next (parsedTo .success s.seq.cur s.seq.acc s)
  | .success => .next (complete true (decodedResults (s.profile p) n s.seq.acc) s)
  | .failure => .next (failDecode s)

/-- DECODE (43_parser.md R160). -/
def execDecode (p : BitVec 2) (strict : Bool) (n : BitVec 7) (s : State) : Result :=
  command (.decode p strict n) (decodeStep p strict n) s

end Sys2Proof.Machine
end

