-- ==== Sys2Proof/Machine/Dispatch.lean ====
section
/-! DEFINITION. One arm per command of 30_encoding.md R82. -/

namespace Sys2Proof.Machine

def exec (i : Instr) (s : State) : Host.Outcome State Fault Refusal :=
  match i with
  | .matchWithin => Sys2Proof.Machine.execMatchWithin s
  | .matchAtLeast => Sys2Proof.Machine.execMatchAtLeast s
  | .rev n => Sys2Proof.Machine.execRev n s
  | .benc p n => Sys2Proof.Machine.execBenc p n s
  | .bdec p n => Sys2Proof.Machine.execBdec p n s
  | .send p n r => Sys2Proof.Machine.execSend p n r s
  | .decode p b n => Sys2Proof.Machine.execDecode p b n s
  | .penc p => Sys2Proof.Machine.execPenc p s
  | .pchk p b n => Sys2Proof.Machine.execPchk p b n s

end Sys2Proof.Machine
end

