-- ==== Sys2Proof/Machine/Bus.lean ====
section
/-! DEFINITION. The host bus window: the register map (10_state.md R53), reads (R49, 20_memory.md R65, R69, R70) and
writes (R38, R49, R55, 20_memory.md R64), and the `CMD` write (30_encoding.md R80). -/

namespace Sys2Proof.Machine

/-- What stands at a word offset of the window (10_state.md R53). -/
inductive Reg where
  | ctrl | status | cmd | tol | margin | opLo | opHi | opExp | cursor | capLen
  | resLo | resHi | resBits | resAddr | resCmd | resProto
  | profile (p : BitVec 2) (r : ProfReg)
  | capture (i : Nat)
  | unmapped
  deriving DecidableEq, Repr

/-- The profile banks, 0x40 bytes each from 0x100 (10_state.md R30). -/
def bankRegAt (off : Nat) : Reg :=
  match profRegAt (off % 0x40) with
  | some r => .profile (BitVec.ofNat 2 ((off - 0x100) / 0x40)) r
  | none => .unmapped

/-- The register map of 10_state.md R53, for offsets that are multiples of 4. -/
def regAt (c : Config) (off : Nat) : Reg :=
  if off = 0x000 then .ctrl
  else if off = 0x004 then .status
  else if off = 0x008 then .cmd
  else if off = 0x00C then .tol
  else if off = 0x010 then .margin
  else if off = 0x014 then .opLo
  else if off = 0x018 then .opHi
  else if off = 0x01C then .opExp
  else if off = 0x020 then .cursor
  else if off = 0x024 then .capLen
  else if off = 0x028 then .resLo
  else if off = 0x02C then .resHi
  else if off = 0x030 then .resBits
  else if off = 0x034 then .resAddr
  else if off = 0x038 then .resCmd
  else if off = 0x03C then .resProto
  else if 0x100 ≤ off ∧ off < 0x200 then bankRegAt off
  else if captureBase ≤ off ∧ off < captureBase + 4 * c.capDepth then .capture ((off - captureBase) / 4)
  else .unmapped

/-- The value a register reads, reserved bits 0 (10_state.md R49); none for a capture element that holds no value. -/
def readRegister (s : State) : Reg → Option Word
  | .ctrl => some (BitVec.setWidth 32 (BitVec.ofBool s.lock))
  | .status => some (s.status.toWord s.busy)
  | .cmd => some 0
  | .tol => some (s.tolPct.setWidth 32)
  | .margin => some s.marginUs
  | .opLo => some s.opLo
  | .opHi => some s.opHi
  | .opExp => some s.opExp
  | .cursor => some s.cursor
  | .capLen => some s.capLen
  | .resLo => some s.res.lo
  | .resHi => some s.res.hi
  | .resBits => some (s.res.bits.setWidth 32)
  | .resAddr => some (s.res.addr.setWidth 32)
  | .resCmd => some (s.res.cmd.setWidth 32)
  | .resProto => some (s.res.proto.setWidth 32)
  | .profile p r => some ((s.profile p).readReg r)
  | .capture i => capRead s i
  | .unmapped => some 0

/-- Record what the host gets back (assumption log 12). -/
def State.respond (s : State) (r : BusResponse) : State :=
  s.setEnv { s.env with responses := s.env.responses ++ [r] }

/-- A read whose value the spec leaves unspecified: a free value (assumption log 5). -/
def freeRead (s : State) : State :=
  s.setEnv { s.env with
    responses := s.env.responses ++ [.data (Config.freeWord s.env.draws)]
    draws := s.env.draws + 1 }

/-- A word read of the window. It has no side effect on the block (20_memory.md R70). -/
def busRead (off : Nat) (s : State) : State :=
  match readRegister s (regAt s.cfg off) with
  | some v => s.respond (.data v)
  | none => freeRead s

/-- A write lost to BUSY or LOCK sets WIGN (10_state.md R29). -/
def loseWrite (s : State) : State := s.setStatus s.status.writeIgnored

/-- A write of a lockable register: lost while LOCK = 1 (10_state.md R38). -/
def lockableWrite (s t : State) : State := if s.lock then loseWrite s else t

/-- A `CMD` write while BUSY = 0: refused by the decoder, or the step of the command it names (30_encoding.md R80). -/
def commandWrite (w : Word) (s : State) : Result :=
  match decode w with
  | .error e => .next (refuse e s)
  | .ok i => exec i s

/-- A write of a register while BUSY = 0. -/
def writeRegister (s : State) (v : Word) : Reg → Result
  | .ctrl => .next { s with lock := s.lock || v.getLsbD 0 }
  | .status => .next (s.setStatus (s.status.hostWrite v))
  | .cmd => commandWrite v s
  | .tol => .next (lockableWrite s { s with tolPct := v.extractLsb' 0 8 })
  | .margin => .next (lockableWrite s { s with marginUs := v })
  | .opLo => .next { s with opLo := v }
  | .opHi => .next { s with opHi := v }
  | .opExp => .next { s with opExp := v }
  | .cursor => .next { s with cursor := v }
  | .capLen => .next { s with capLen := v }
  | .resLo => .next s
  | .resHi => .next s
  | .resBits => .next s
  | .resAddr => .next s
  | .resCmd => .next s
  | .resProto => .next s
  | .profile p r => .next (lockableWrite s (s.setProfile p ((s.profile p).writeReg v r)))
  | .capture i => .next (capWrite s i v)
  | .unmapped => .next s

/-- A word write of the window: lost at every offset while BUSY = 1 (10_state.md R55, 20_memory.md R64). -/
def busWrite (off : Nat) (v : Word) (s : State) : Result :=
  if s.busy then .next (loseWrite s) else writeRegister s v (regAt s.cfg off)

/-- The size of the window (20_memory.md R60). -/
def windowSize : Nat := 0x2000

/-- The window offset of a byte address of the host; none outside the window (20_memory.md R60, R71). -/
def windowOffset (c : Config) (addr : Nat) : Option Nat :=
  if c.base ≤ addr ∧ addr < c.base + windowSize then some (addr - c.base) else none

/-- A misaligned or non-word access: no effect on the block, and a bus error, or on a bus that carries none an
unspecified value (20_memory.md R69). -/
def badAccess (op : BusOp) (s : State) : State :=
  if s.cfg.busErrors then s.respond .busError
  else
    match op with
    | .read => freeRead s
    | .write _ => s.respond .done

/-- One access of a bus master. While reset is asserted the block takes no access (70_reset_and_hazards.md R220); an
access outside the window is not the block's (20_memory.md R60). -/
def busAccess (a : BusAccess) (s : State) : Result :=
  if s.inReset then .next s
  else
    match windowOffset s.cfg a.addr with
    | none => .next s
    | some off =>
      if a.width = 4 ∧ off % 4 = 0 then
        match a.op with
        | .read => .next (busRead off s)
        | .write v => busWrite off v (s.respond .done)
      else .next (badAccess a.op s)

end Sys2Proof.Machine
end

