-- ==== Sys2Proof/Machine/HostProgram.lean ====
section
/-! DEFINITION. The host's program: the lines of 30_encoding.md R89, the expansions of R90, and how a line runs. -/

namespace Sys2Proof.Machine

/-! ### Offsets by name (10_state.md R30, R53) -/

def offCtrl : Nat := 0x000
def offStatus : Nat := 0x004
def offCmd : Nat := 0x008
def offTol : Nat := 0x00C
def offMargin : Nat := 0x010
def offOpLo : Nat := 0x014
def offOpHi : Nat := 0x018
def offOpExp : Nat := 0x01C
def offCursor : Nat := 0x020
def offCapLen : Nat := 0x024
def offResLo : Nat := 0x028
def offResHi : Nat := 0x02C
def offResBits : Nat := 0x030
def offResAddr : Nat := 0x034
def offResCmd : Nat := 0x038
def offResProto : Nat := 0x03C

/-- A profile register's offset in its bank (10_state.md R30). -/
def ProfReg.offset : ProfReg → Nat
  | .hdrMark => 0x00
  | .hdrSpace => 0x04
  | .bitMark => 0x08
  | .oneSpace => 0x0C
  | .zeroSpace => 0x10
  | .ftrMark => 0x14
  | .minGap => 0x18
  | .minFrame => 0x1C
  | .rptSpace => 0x20
  | .format => 0x24
  | .carrier => 0x28

/-- A profile register's window offset, `0x100 + 0x40·p` plus its offset in the bank (10_state.md R30, 30_encoding.md
R89). -/
def profOffset (p : BitVec 2) (r : ProfReg) : Nat := 0x100 + 0x40 * p.toNat + r.offset

/-! ### The lines of R89 and R90 -/

/-- `wr P<p>.FIELD, imm` (30_encoding.md R89). -/
def lineWrProf (p : BitVec 2) (r : ProfReg) (v : Word) : HostLine := .wr (profOffset p r) v

/-- `wrcap i, imm` (30_encoding.md R89). -/
def lineWrcap (i : Nat) (v : Word) : HostLine := .wr (captureOffset i) v

/-- A command mnemonic: one `wr CMD` of its word (30_encoding.md R90). -/
def lineCommand (i : Instr) : HostLine := .wr offCmd (encode i)

/-- `setop v` (30_encoding.md R90). -/
def linesSetop (v : Payload) : List HostLine :=
  [.wr offOpLo (v.extractLsb' 0 32), .wr offOpHi (v.extractLsb' 32 32)]

/-- `nec.encode p=P, a=A, c=C` (30_encoding.md R90). -/
def linesNecEncode (p : BitVec 2) (a : BitVec 16) (c : BitVec 8) : List HostLine :=
  [.wr offOpLo (0#8 ++ c ++ a), lineCommand (.penc p), .wait]

/-- `clear`: clears DONE, ERR and WIGN (30_encoding.md R90). -/
def lineClear : HostLine := .wr offStatus 0x0000010A

/-! ### Running a line -/

/-- The bus access of a line; `wait` reads STATUS (30_encoding.md R89, R90). -/
def HostLine.access (c : Config) : HostLine → BusAccess
  | .wr off v => ⟨c.base + off, 4, .write v⟩
  | .rd off => ⟨c.base + off, 4, .read⟩
  | .wait => ⟨c.base + offStatus, 4, .read⟩

/-- Does the program stay at this line: `wait` reads STATUS again while bit 0 reads 1 (30_encoding.md R90). -/
def HostLine.again (s : State) : HostLine → Bool
  | .wr _ _ => false
  | .rd _ => false
  | .wait => s.busy

/-- The host's program runs its next line. While reset is asserted it does not move (assumption log 8). -/
def hostLineStep (s : State) : Result :=
  if s.inReset then .next s
  else
    match s.env.program with
    | [] => .next s
    | l :: rest =>
      busAccess (l.access s.cfg) (s.setEnv { s.env with program := if l.again s then l :: rest else rest })

end Sys2Proof.Machine
end

