-- ==== Sys2Proof/Machine/Agents.lean ====
section
/-! DEFINITION. The step of each agent (00_scope.md R6): sequencer, emission driver, elapsed-time clock, capture
collaborator, host, and the reset input. -/

namespace Sys2Proof.Machine

/-- The sequencer's step: in RUN the next step of the accepted command (10_state.md R23). It has none while IDLE, while
reset is asserted (70_reset_and_hazards.md R220), or if `cmd` is no command (assumption log 11). -/
def sequencerStep (s : State) : Result :=
  if s.inReset then .next s
  else
    match s.seq.phase with
    | .idle => .next s
    | .run =>
      match decode s.seq.cmd with
      | .ok i => exec i s
      | .error _ => .next s

/-- The emission driver completes the pending token and appends it to the trace (60_exceptions.md R205.2). -/
def driverStep (s : State) : State :=
  if s.inReset then s
  else
    match s.seq.pending with
    | none => s
    | some t => (s.setEnv { s.env with tokens := s.env.tokens ++ [t] }).setSeq { s.seq with pending := none }

/-- The elapsed-time clock advances. The reading is monotone and stays a u32 (60_exceptions.md R206; assumption log 4). -/
def clockStep (us : Nat) (s : State) : State :=
  s.setEnv { s.env with clock := BitVec.ofNat 32 (min (s.env.clock.toNat + us) (2 ^ 32 - 1)) }

/-- The window offset the capture collaborator writes (60_exceptions.md R208, 20_memory.md R61). -/
def CaptureWrite.offset : CaptureWrite → Nat
  | .element i _ => captureOffset i
  | .length _ => offCapLen

/-- The word it writes. -/
def CaptureWrite.word : CaptureWrite → Word
  | .element _ d => d
  | .length n => n

/-- The capture collaborator writes through the bus write path (60_exceptions.md R208, 20_memory.md R64); beyond the
window it reaches nothing of the block (assumption log 17). -/
def collaboratorStep (w : CaptureWrite) (s : State) : Result :=
  if s.inReset then .next s
  else if w.offset < windowSize then busWrite w.offset w.word s
  else .next s

/-- Reset asserted: every piece of the block's state takes its value of 10_state.md R54, a running command ends with no
completion and its pending token is abandoned (70_reset_and_hazards.md R220, R221). What lies outside the block and the
parameters stay (assumption log 8). -/
def assertReset (s : State) : State :=
  { State.reset with cfg := s.cfg, env := s.env, inReset := true }

/-- Reset released (70_reset_and_hazards.md R220). -/
def releaseReset (s : State) : State := { s with inReset := false }

/-- One event of one agent (00_scope.md R6, 20_memory.md R72). -/
def agentStep (e : Event) (s : State) : Result :=
  match e with
  | .host a => busAccess a s
  | .hostLine => hostLineStep s
  | .sequencer => sequencerStep s
  | .driver => .next (driverStep s)
  | .clockTick us => .next (clockStep us s)
  | .collaborator w => collaboratorStep w s
  | .resetAssert => .next (assertReset s)
  | .resetRelease => .next (releaseReset s)

/-- Take the next event off the schedule. -/
def State.setSchedule (s : State) (es : List Event) : State := s.setEnv { s.env with schedule := es }

/-- One step: the next scheduled event; with none scheduled the sequencer, the block's own agent, moves if it can
(assumption log 1). -/
def stepOnce (s : State) : Result :=
  match s.env.schedule with
  | [] => sequencerStep s
  | e :: es => agentStep e (s.setSchedule es)

/-- Place a `CMD` write of `w` as the very next event, on a block that takes it: released from reset, IDLE, nothing
pending (assumption log 2). -/
def placeCommand (w : Word) (s : State) : State :=
  (({ s with inReset := false }).setSeq { s.seq with phase := .idle, pending := none }).setSchedule
    (.host ⟨s.cfg.base + offCmd, 4, .write w⟩ :: s.env.schedule)

end Sys2Proof.Machine
end

