-- ==== Sys2Proof/Machine/Step.lean ====
section
/-! DEFINITION. The machine's step, one atomic event (00_scope.md R6, 20_memory.md R72), and the placing of a command
word for it. -/

namespace Sys2Proof.Machine

/-- One atomic event of one agent. -/
def step (s : State) : Host.Outcome State Fault Refusal := stepOnce s

/-- `s` with the host about to write to CMD the word whose low `nbits` bits are those of `w` (10_state.md R22: the block
fetches no instructions; a command is one word written to CMD). -/
def State.withFetchWord (s : State) (nbits w : Nat) : State :=
  placeCommand (BitVec.ofNat 32 (w % 2 ^ nbits)) s

end Sys2Proof.Machine
end

