-- ==== Sys2Proof/Laws/Decode.lean ====
section
/-! SUPPORT. The fields of a command word: reading them back, and the word as their concatenation (30_encoding.md R80,
R81). -/

namespace Sys2Proof

/-- The bits of a command word, field by field (30_encoding.md R80). -/
theorem getLsbD_commandWord (op : BitVec 8) (p : BitVec 2) (s : Bool) (n : BitVec 7) (r : BitVec 12) (j : Nat) :
    (commandWord op p s n r).getLsbD j =
      if j < 8 then op.getLsbD j
      else if j < 10 then p.getLsbD (j - 8)
      else if j < 11 then s
      else if j < 12 then false
      else if j < 19 then n.getLsbD (j - 12)
      else if j < 20 then false
      else r.getLsbD (j - 20) := by
  unfold commandWord
  rw [BitVec.getLsbD_append]
  by_cases h0 : j < 8
  · simp [h0]
  simp only [h0, if_false]
  rw [BitVec.getLsbD_append]
  by_cases h1 : j < 10
  · simp [h1, show j - 8 < 2 by omega]
  simp only [h1, if_false, show ¬ j - 8 < 2 by omega]
  rw [BitVec.getLsbD_append]
  by_cases h2 : j < 11
  · have e : j - 8 - 2 = 0 := by omega
    simp [h2, e]
  simp only [h2, if_false, show ¬ j - 8 - 2 < 1 by omega]
  rw [BitVec.getLsbD_append]
  by_cases h3 : j < 12
  · simp [h3, show j - 8 - 2 - 1 < 1 by omega]
  simp only [h3, if_false, show ¬ j - 8 - 2 - 1 < 1 by omega]
  rw [BitVec.getLsbD_append]
  by_cases h4 : j < 19
  · rw [if_pos (show j - 8 - 2 - 1 - 1 < 7 by omega), if_pos h4]
    congr 1
  simp only [h4, if_false, show ¬ j - 8 - 2 - 1 - 1 < 7 by omega]
  rw [BitVec.getLsbD_append]
  by_cases h5 : j < 20
  · simp [h5, show j - 8 - 2 - 1 - 1 - 7 < 1 by omega]
  simp [h5, show ¬ j - 8 - 2 - 1 - 1 - 7 < 1 by omega, show j - 8 - 2 - 1 - 1 - 7 - 1 = j - 20 by omega]

variable (op : BitVec 8) (p : BitVec 2) (s : Bool) (n : BitVec 7) (r : BitVec 12)

@[simp] theorem fieldOp_commandWord : fieldOp (commandWord op p s n r) = op := by
  apply BitVec.eq_of_getLsbD_eq
  intro i hi
  simp [fieldOp, getLsbD_commandWord, hi]

@[simp] theorem fieldProf_commandWord : fieldProf (commandWord op p s n r) = p := by
  apply BitVec.eq_of_getLsbD_eq
  intro i hi
  simp [fieldProf, getLsbD_commandWord, hi, show 8 + i < 10 by omega]

@[simp] theorem fieldStrict_commandWord : fieldStrict (commandWord op p s n r) = s := by
  rw [fieldStrict, getLsbD_commandWord]
  simp

@[simp] theorem fieldNbits_commandWord : fieldNbits (commandWord op p s n r) = n := by
  apply BitVec.eq_of_getLsbD_eq
  intro i hi
  rw [fieldNbits, BitVec.getLsbD_extractLsb', getLsbD_commandWord]
  simp [hi, show ¬ 12 + i < 8 by omega, show ¬ 12 + i < 10 by omega, show ¬ 12 + i < 11 by omega, show 12 + i < 19 by omega]

@[simp] theorem fieldRepeat_commandWord : fieldRepeat (commandWord op p s n r) = r := by
  apply BitVec.eq_of_getLsbD_eq
  intro i hi
  rw [fieldRepeat, BitVec.getLsbD_extractLsb', getLsbD_commandWord]
  simp [hi, show ¬ 20 + i < 8 by omega, show ¬ 20 + i < 10 by omega, show ¬ 20 + i < 11 by omega,
    show ¬ 20 + i < 12 by omega, show ¬ 20 + i < 19 by omega]

/-- A word whose two reserved bits are 0 is the concatenation of its fields. -/
theorem word_eq_commandWord (w : Word) (h11 : w.getLsbD 11 = false) (h19 : w.getLsbD 19 = false) :
    w = commandWord (fieldOp w) (fieldProf w) (fieldStrict w) (fieldNbits w) (fieldRepeat w) := by
  apply BitVec.eq_of_getLsbD_eq
  intro j hj
  rw [getLsbD_commandWord]
  by_cases h0 : j < 8
  · simp [fieldOp, h0]
  by_cases h1 : j < 10
  · simp [fieldProf, h0, h1, show j - 8 < 2 by omega, show 8 + (j - 8) = j by omega]
  by_cases h2 : j < 11
  · obtain rfl : j = 10 := by omega
    simp [fieldStrict]
  by_cases h3 : j < 12
  · obtain rfl : j = 11 := by omega
    simpa using h11
  by_cases h4 : j < 19
  · simp [fieldNbits, h0, h1, h2, h3, h4, show j - 12 < 7 by omega, show 12 + (j - 12) = j by omega]
  by_cases h5 : j < 20
  · obtain rfl : j = 19 := by omega
    simpa using h19
  simp [fieldRepeat, h0, h1, h2, h3, h4, h5, show j - 20 < 12 by omega, show 20 + (j - 20) = j by omega]

/-- A masked word equals the pattern exactly if every masked bit does. -/
theorem and_eq_iff_bits (w mask pattern : Word) (hp : ∀ j, j < 32 → mask.getLsbD j = false → pattern.getLsbD j = false) :
    w &&& mask = pattern ↔ ∀ j, j < 32 → mask.getLsbD j = true → w.getLsbD j = pattern.getLsbD j := by
  constructor
  · intro h j hj hm
    rw [← h, BitVec.getLsbD_and, hm, Bool.and_true]
  · intro h
    apply BitVec.eq_of_getLsbD_eq
    intro j hj
    rw [BitVec.getLsbD_and]
    cases hm : mask.getLsbD j with
    | false => rw [Bool.and_false, hp j hj hm]
    | true => rw [Bool.and_true, h j hj hm]

end Sys2Proof
end

