-- ==== Sys2Proof/Laws/PerInstr.lean ====
section
/-! SUPPORT. Per-command statements: the fixed bits of an encoding (30_encoding.md R83, R85). -/

namespace Sys2Proof.Laws.FixedBits

/-- The encoding of a command holds its opcode in bits 7:0 and 0 in the reserved bits 11 and 19 (30_encoding.md R80,
R85). -/
def Statement (i : Instr) : Prop :=
  fieldOp (encode i) = (rowOf i).pattern.extractLsb' 0 8 ∧ (encode i).getLsbD 11 = false ∧ (encode i).getLsbD 19 = false

/-- Bits 11 and 19 of a command word are 0. -/
theorem reserved_bits (op : BitVec 8) (p : BitVec 2) (s : Bool) (n : BitVec 7) (r : BitVec 12) :
    (commandWord op p s n r).getLsbD 11 = false ∧ (commandWord op p s n r).getLsbD 19 = false := by
  constructor <;> rw [getLsbD_commandWord] <;> rfl

theorem matchWithin : Statement .matchWithin := ⟨fieldOp_commandWord _ _ _ _ _, reserved_bits _ _ _ _ _⟩
theorem matchAtLeast : Statement .matchAtLeast := ⟨fieldOp_commandWord _ _ _ _ _, reserved_bits _ _ _ _ _⟩
theorem rev (n : BitVec 7) : Statement (.rev n) := ⟨fieldOp_commandWord _ _ _ _ _, reserved_bits _ _ _ _ _⟩
theorem benc (p : BitVec 2) (n : BitVec 7) : Statement (.benc p n) :=
  ⟨fieldOp_commandWord _ _ _ _ _, reserved_bits _ _ _ _ _⟩
theorem bdec (p : BitVec 2) (n : BitVec 7) : Statement (.bdec p n) :=
  ⟨fieldOp_commandWord _ _ _ _ _, reserved_bits _ _ _ _ _⟩
theorem send (p : BitVec 2) (n : BitVec 7) (r : BitVec 12) : Statement (.send p n r) :=
  ⟨fieldOp_commandWord _ _ _ _ _, reserved_bits _ _ _ _ _⟩
theorem decode (p : BitVec 2) (b : Bool) (n : BitVec 7) : Statement (.decode p b n) :=
  ⟨fieldOp_commandWord _ _ _ _ _, reserved_bits _ _ _ _ _⟩
theorem penc (p : BitVec 2) : Statement (.penc p) := ⟨fieldOp_commandWord _ _ _ _ _, reserved_bits _ _ _ _ _⟩
theorem pchk (p : BitVec 2) (b : Bool) (n : BitVec 7) : Statement (.pchk p b n) :=
  ⟨fieldOp_commandWord _ _ _ _ _, reserved_bits _ _ _ _ _⟩

end Sys2Proof.Laws.FixedBits
end

