-- ==== Sys2Proof/Safety.lean ====
section
/-! DEFINITION. The terms the claims use: the invariant of the block, what a safe run needs of the capture, the frame on
the wire and in the capture as the spec's tables describe them, and the end of a run. -/

namespace Sys2Proof.Machine

/-! ### The invariant -/

/-- Every listed byte lies in the capture RAM, with the other three of its element (20_memory.md R61, R67: an element is
written whole). -/
def captureWhole (s : State) : Prop :=
  ∀ c ∈ s.capture, captureBase ≤ c.1 ∧ c.1 < captureBase + 4 * s.cfg.capDepth ∧
    (s.capture.readWord (c.1 - c.1 % 4)).isSome = true

/-- Where a running command can stand: BENC and SEND inside their action lists (10_state.md R23), DECODE at the cursor
its parser state implies (43_parser.md R161, R172); only BENC and SEND have a pending token. -/
def positionOk (i : Instr) (s : State) : Prop :=
  match i with
  | .benc _ n => s.seq.step ≤ 2 * n.toNat
  | .send p n r => s.seq.frame ≤ r.toNat ∧ s.seq.step ≤ (sendActions (s.profile p) s.op n.toNat s.seq.frame).length
  | .decode _ _ n =>
    s.seq.pending = none ∧
      (s.seq.parse = .headerMatched → s.seq.cur = 2 ∧ 2 * n.toNat + 3 ≤ s.capLen.toNat) ∧
      (s.seq.parse = .bodyMatched → s.seq.cur = 2 * n.toNat + 2 ∧ 2 * n.toNat + 3 ≤ s.capLen.toNat)
  | _ => s.seq.pending = none

/-- While BUSY the accepted word is a command that passes the acceptance checks, and the outcome bits are clear
(30_encoding.md R80, 10_state.md R55). -/
def runningOk (s : State) : Prop :=
  ∃ i, decode s.seq.cmd = .ok i ∧ acceptanceError i s = none ∧ positionOk i s ∧
    s.status.done = false ∧ s.status.ok = false ∧ s.status.err = false

/-- THE INVARIANT of the block. -/
structure State.Inv (s : State) : Prop where
  /-- CAP_DEPTH lies in its range (00_scope.md R7). -/
  cfg : s.cfg.wf = true
  /-- The capture RAM keeps its canonical form. -/
  memory : Memory.wf s.capture = true
  /-- Capture elements are whole and inside the RAM. -/
  whole : captureWhole s
  /-- An idle sequencer has no pending token (10_state.md R23). -/
  idle : s.seq.phase = .idle → s.seq.pending = none
  /-- A running sequencer runs an accepted command. -/
  running : s.seq.phase = .run → runningOk s
  /-- ERR is set exactly with a code, one of 1 to 6, and excludes OK (10_state.md R27, R28, 60_exceptions.md R200). -/
  error : (s.status.err = true ↔ s.status.errcode ≠ 0) ∧ s.status.errcode.toNat ≤ 6 ∧
    (s.status.err = true → s.status.ok = false)
  /-- RES_BITS is a bit count (10_state.md R45, 30_encoding.md R91). -/
  bits : s.res.bits.toNat ≤ 64
  /-- While reset is asserted the block holds its reset values (70_reset_and_hazards.md R220). -/
  reset : s.inReset = true → s = assertReset s

/-! ### Safe runs -/

/-- Every element of the capture was written since reset: no walk can fault (20_memory.md R65). -/
def State.captured (s : State) : Prop := ∀ i, i < s.capLen.toNat → (capRead s i).isSome = true

/-- The end of a run: the program's last line has executed, BUSY = 0 and no token is pending (70_reset_and_hazards.md
R229). -/
def State.ended (s : State) : Prop :=
  s.env.program = [] ∧ s.busy = false ∧ s.seq.pending = none

/-- One-space and zero-space are distinguishable (10_state.md R56). -/
def distinguishable (s : State) (f : Profile) : Prop :=
  ((band s f.oneSpace + band s f.zeroSpace : Nat) : Int) < |(f.oneSpace.toNat : Int) - (f.zeroSpace.toNat : Int)|

/-! ### The values after reset (10_state.md R54) -/

/-- The table of 10_state.md R54, for the state of the block. -/
def holdsResetValues (s : State) : Prop :=
  s.lock = false ∧ s.busy = false ∧ s.status = ⟨false, false, false, 0, false⟩ ∧ s.tolPct = 25 ∧ s.marginUs = 50 ∧
    s.opLo = 0 ∧ s.opHi = 0 ∧ s.opExp = 0 ∧ s.cursor = 0 ∧ s.capLen = 0 ∧ s.res = ⟨0, 0, 0, 0, 0, 0⟩ ∧
    (∀ p r, (s.profile p).readReg r = 0) ∧ (∀ i, capRead s i = none) ∧ s.seq.phase = .idle ∧ s.seq.pending = none

/-! ### The frame on the wire (42_assembler.md R143 to R146, R148; 41_bitcodec.md R122) -/

/-- The N mark/space pairs of a body, bit N−1 first. -/
def wireBody (f : Profile) (v : Payload) (n : Nat) : List Token :=
  (List.range n).flatMap fun k =>
    [⟨.mark, f.bitMark⟩, ⟨.space, if v.getLsbD (n - 1 - k) then f.oneSpace else f.zeroSpace⟩]

/-- The trailing space for a clock reading e, in exact integers (42_assembler.md R144). -/
def wireGap (f : Profile) (e : Duration) : Duration :=
  BitVec.ofInt 32 (max (f.minGap.toNat : Int) ((f.minFrame.toNat : Int) - (e.toNat : Int)))

/-- Frame k with clock reading e: full, or the four tokens of a SHORT repeat frame. -/
def wireFrame (f : Profile) (v : Payload) (n k : Nat) (e : Duration) : List Token :=
  if k = 0 ∨ f.rptMode = 0 then
    [⟨.mark, f.hdrMark⟩, ⟨.space, f.hdrSpace⟩] ++ wireBody f v n ++ [⟨.mark, f.ftrMark⟩, ⟨.space, wireGap f e⟩]
  else [⟨.mark, f.hdrMark⟩, ⟨.space, f.rptSpace⟩, ⟨.mark, f.ftrMark⟩, ⟨.space, wireGap f e⟩]

/-- The waveform of a SEND whose frame k reads the clock as `e k`: frames 0..R in order (42_assembler.md R142). -/
def wireSend (f : Profile) (v : Payload) (n r : Nat) (e : Nat → Duration) : List Token :=
  (List.range (r + 1)).flatMap fun k => wireFrame f v n k (e k)

/-! ### The frame in the capture (43_parser.md R161, 41_bitcodec.md R124) -/

/-- The Duration at capture element i, for elements that hold one. -/
def element (s : State) (i : Nat) : Duration := (capRead s i).getD 0

/-- Every mark of an n-bit body from index c matches BIT_MARK, every space exactly one of the two spaces. -/
def bodyMatches (s : State) (f : Profile) (c n : Nat) : Prop :=
  ∀ k, k < n → durMatches s (element s (c + 2 * k)) f.bitMark = true ∧
    durMatches s (element s (c + 2 * k + 1)) f.oneSpace ≠ durMatches s (element s (c + 2 * k + 1)) f.zeroSpace

/-- The walk of an n-bit body from index c reads element i if all before it matched: i is the mark of a pair, or its space
behind a matching mark (41_bitcodec.md R125). -/
def walkReads (s : State) (f : Profile) (c n i : Nat) : Prop :=
  ∃ j, j < n ∧ bodyMatches s f c j ∧
    (i = c + 2 * j ∨ (i = c + 2 * j + 1 ∧ durMatches s (element s (c + 2 * j)) f.bitMark = true))

/-- The walk of an n-bit body from index c stops at element k: it reads k, and k is the first that holds no value
(20_memory.md R65). -/
def walkStopsAt (s : State) (f : Profile) (c n k : Nat) : Prop :=
  capRead s k = none ∧ (∀ i, c ≤ i → i < k → (capRead s i).isSome = true) ∧ walkReads s f c n k

/-- `v` is the payload an n-bit body from index c holds: the first pair is bit n−1, bits from n up are 0. -/
def bodyHolds (s : State) (f : Profile) (c n : Nat) (v : Payload) : Prop :=
  ∀ j, j < 64 → v.getLsbD j =
    (decide (j < n) && durMatches s (element s (c + 2 * (n - 1 - j) + 1)) f.oneSpace)

/-- The whole capture is one frame of n bits: its length, header, body, footer, and the gap if there is one. -/
def frameMatches (s : State) (f : Profile) (n : Nat) : Prop :=
  2 * n + 3 ≤ s.capLen.toNat ∧
    durMatches s (element s 0) f.hdrMark = true ∧ durMatches s (element s 1) f.hdrSpace = true ∧
    bodyMatches s f 2 n ∧ durMatches s (element s (2 * n + 2)) f.ftrMark = true ∧
    (2 * n + 3 < s.capLen.toNat → durMatchesAtLeast s (element s (2 * n + 3)) f.minGap = true)

/-- A DECODE of an n-bit frame reads element i: none where the strict count or the length fails (43_parser.md R162, R164),
then one after the other as long as all before it matched (R165 to R168). -/
def frameReads (s : State) (f : Profile) (strict : Bool) (n : BitVec 7) (i : Nat) : Prop :=
  (strict = true → n = f.nbitsCanon) ∧ 2 * n.toNat + 3 ≤ s.capLen.toNat ∧
    (i = 0 ∨ (durMatches s (element s 0) f.hdrMark = true ∧
      (i = 1 ∨ (durMatches s (element s 1) f.hdrSpace = true ∧
        (walkReads s f 2 n.toNat i ∨ (bodyMatches s f 2 n.toNat ∧
          (i = 2 * n.toNat + 2 ∨ (durMatches s (element s (2 * n.toNat + 2)) f.ftrMark = true ∧
            i = 2 * n.toNat + 3 ∧ i < s.capLen.toNat))))))))

/-- The next transition of a running DECODE reads element i (43_parser.md R172). -/
def transitionReads (s : State) (f : Profile) (strict : Bool) (n : BitVec 7) (i : Nat) : Prop :=
  match s.seq.parse with
  | .start => (strict = true → n = f.nbitsCanon) ∧ 2 * n.toNat + 3 ≤ s.capLen.toNat ∧
      (i = 0 ∨ (durMatches s (element s 0) f.hdrMark = true ∧ i = 1))
  | .headerMatched => walkReads s f s.seq.cur n.toNat i
  | .bodyMatched => i = s.seq.cur ∨ (durMatches s (element s s.seq.cur) f.ftrMark = true ∧ i = s.seq.cur + 1 ∧
      i < s.capLen.toNat)
  | .footerMatched => False
  | .compliant => False
  | .nonStrictAccepted => False
  | .success => False
  | .failure => False

/-! ### The codecs, bit by bit (44_protocol.md R181 to R189) -/

/-- The payload `v` satisfies the codec's compliance predicate. -/
def complies (codec : BitVec 2) (v : Payload) : Prop :=
  (codec = 1 → v.extractLsb' 0 8 = ~~~(v.extractLsb' 8 8)) ∧
    (codec = 2 → v.extractLsb' 24 8 = v.extractLsb' 16 8 ∧ v.extractLsb' 8 8 = ~~~(v.extractLsb' 0 8))

/-- `a` and `k` are the fields the codec extracts from `v`. -/
def fieldsAre (codec : BitVec 2) (v : Payload) (a : BitVec 16) (k : BitVec 8) : Prop :=
  (codec = 1 → (∀ j, j < 8 → k.getLsbD j = v.getLsbD (15 - j)) ∧
      (if v.extractLsb' 16 8 = ~~~(v.extractLsb' 24 8) then
        ∀ j, j < 16 → a.getLsbD j = (decide (j < 8) && v.getLsbD (31 - j))
      else ∀ j, j < 16 → a.getLsbD j = v.getLsbD (31 - j))) ∧
    (codec = 2 → (∀ j, j < 8 → k.getLsbD j = v.getLsbD (15 - j)) ∧
      ∀ j, j < 16 → a.getLsbD j = (decide (j < 8) && v.getLsbD (31 - j))) ∧
    (codec = 0 → a = 0 ∧ k = 0)

/-! ### Refusal codes (60_exceptions.md R200, R202) -/

/-- The bits a command word must have 0, by its OP value: the fields 30_encoding.md R83 marks Z, and bits 11 and 19. -/
def mustBeZero (op : BitVec 8) : Word :=
  if op = 0x03 then 0xFFF80F00
  else if op = 0x10 ∨ op = 0x11 then 0xFFF80C00
  else if op = 0x20 then 0x00080C00
  else if op = 0x30 ∨ op = 0x41 then 0xFFF80800
  else if op = 0x40 then 0xFFFFFC00
  else 0xFFFFFF00

/-- The code a `CMD` write of `w` is refused with, the first cause that applies in the order of R202; none if the command
is accepted. -/
def refusalCode (w : Word) (s : State) : Option (BitVec 4) :=
  let op := w.extractLsb' 0 8
  let f := s.profile (w.extractLsb' 8 2)
  let n := (w.extractLsb' 12 7).toNat
  if ¬ (op = 0x01 ∨ op = 0x02 ∨ op = 0x03 ∨ op = 0x10 ∨ op = 0x11 ∨ op = 0x20 ∨ op = 0x30 ∨ op = 0x40 ∨ op = 0x41) then some 1
  else if w &&& mustBeZero op ≠ 0 then some 2
  else if (op = 0x03 ∨ op = 0x10 ∨ op = 0x11 ∨ op = 0x20 ∨ op = 0x30 ∨ op = 0x41) ∧ ¬ (1 ≤ n ∧ n ≤ 64) then some 3
  else if (op = 0x10 ∨ op = 0x11 ∨ op = 0x20 ∨ op = 0x30 ∨ op = 0x40 ∨ op = 0x41) ∧
      (f.order = 1 ∨ f.rptMode = 2 ∨ f.rptMode = 3 ∨ f.codec = 3) then some 4
  else if op = 0x40 ∧ f.codec = 0 then some 5
  else if (op = 0x11 ∨ op = 0x30) ∧ s.cfg.capDepth < s.capLen.toNat then some 6
  else none

/-! ### Runs and schedules -/

/-- `k` steps, stopping at the first fault or refusal. -/
def runFor : Nat → State → Result
  | 0, s => .next s
  | k + 1, s =>
    match step s with
    | .next t => runFor k t
    | .fault r => .fault r
    | .refused r => .refused r

/-- The registers the host programs and the capture: what no command changes (10_state.md R55, 20_memory.md R77). -/
def sameInputs (s t : State) : Prop :=
  t.cfg = s.cfg ∧ t.lock = s.lock ∧ t.tolPct = s.tolPct ∧ t.marginUs = s.marginUs ∧ t.opLo = s.opLo ∧ t.opHi = s.opHi ∧
    t.opExp = s.opExp ∧ t.capLen = s.capLen ∧ t.profiles = s.profiles ∧ t.capture = s.capture

/-- `k` rounds in which the sequencer moves and the driver completes what it handed over. -/
def rounds : Nat → List Event
  | 0 => []
  | k + 1 => .sequencer :: .driver :: rounds k

/-- The result registers as one u64 (10_state.md R44). -/
def Results.payload (r : Results) : Payload := r.hi ++ r.lo

end Sys2Proof.Machine
end

