-- ==== Sys2Proof/Certificates/Slice0/Obligations.lean ====
section
/-! DEFINITION. The statements for the provers. -/

open Sys2Proof Sys2Proof.Machine

/-! ### Encoding -/

/-- Words of 95_test_vectors.md and 30_encoding.md R90 and the commands they stand for; two refused words. -/
def Obligations.SpecWordsDecode : Prop :=
  decode 0x00000001 = .ok .matchWithin ∧ decode 0x00000002 = .ok .matchAtLeast ∧
    decode 0x00010003 = .ok (.rev 16) ∧ decode 0x00001210 = .ok (.benc 2 1) ∧ decode 0x00008011 = .ok (.bdec 0 8) ∧
    decode 0x00120120 = .ok (.send 1 32 1) ∧ decode 0x00020530 = .ok (.decode 1 true 32) ∧
    decode 0x00000140 = .ok (.penc 1) ∧ decode 0x00010041 = .ok (.pchk 0 false 16) ∧
    decode 0x000000FF = .error .illegal ∧ decode 0x00000101 = .error .rsv

/-- Decoding an encoded command gives it back, with every operand at every value its field holds (30_encoding.md R80 to
R83). -/
def Obligations.DecodeInvertsEncode : Prop :=
  ∀ i : Instr, decode (encode i) = .ok i

/-- A word that decodes is the encoding of its command: each accepted word has one meaning and no bit of it is dropped
(30_encoding.md R83, R86). -/
def Obligations.EncodeInvertsDecode : Prop :=
  ∀ (w : Word) (i : Instr), decode w = .ok i → encode i = w

/-- A word selects a command exactly if its masked bits equal the command's match value, and its fields are the bits R80
names (30_encoding.md R80, R83). -/
def Obligations.MaskAndMatchSelectTheCommand : Prop :=
  ∀ w : Word,
    (w &&& 0xFFFFFFFF = 0x00000001 ↔ decode w = .ok .matchWithin) ∧
    (w &&& 0xFFFFFFFF = 0x00000002 ↔ decode w = .ok .matchAtLeast) ∧
    (w &&& 0xFFF80FFF = 0x00000003 ↔ decode w = .ok (.rev (w.extractLsb' 12 7))) ∧
    (w &&& 0xFFF80CFF = 0x00000010 ↔ decode w = .ok (.benc (w.extractLsb' 8 2) (w.extractLsb' 12 7))) ∧
    (w &&& 0xFFF80CFF = 0x00000011 ↔ decode w = .ok (.bdec (w.extractLsb' 8 2) (w.extractLsb' 12 7))) ∧
    (w &&& 0x00080CFF = 0x00000020 ↔
      decode w = .ok (.send (w.extractLsb' 8 2) (w.extractLsb' 12 7) (w.extractLsb' 20 12))) ∧
    (w &&& 0xFFF808FF = 0x00000030 ↔
      decode w = .ok (.decode (w.extractLsb' 8 2) (w.getLsbD 10) (w.extractLsb' 12 7))) ∧
    (w &&& 0xFFFFFCFF = 0x00000040 ↔ decode w = .ok (.penc (w.extractLsb' 8 2))) ∧
    (w &&& 0xFFF808FF = 0x00000041 ↔
      decode w = .ok (.pchk (w.extractLsb' 8 2) (w.getLsbD 10) (w.extractLsb' 12 7)))

/-! ### Acceptance, refusal and the step -/

/-- The host's `CMD` write while BUSY = 0 and the sequencer's turn while BUSY = 1 run the decoded command (30_encoding.md
R80, 10_state.md R22, R23), and `withFetchWord` places a command for the very next step. That the sequencer moves when no
event is scheduled is the model's choice (assumption log 1), as is the placing of a command (assumption log 2). -/
def Obligations.StepRunsTheDecodedCommand : Prop :=
  (∀ (s : State) (w : Word) (i : Instr) (es : List Event), s.inReset = false → s.seq.phase = .idle →
    s.env.schedule = .host ⟨s.cfg.base + 0x008, 4, .write w⟩ :: es → decode w = .ok i →
    step s = exec i { s with env := { s.env with schedule := es, responses := s.env.responses ++ [.done] } }) ∧
  (∀ (s : State) (i : Instr) (es : List Event), s.inReset = false → s.seq.phase = .run →
    s.env.schedule = .sequencer :: es → decode s.seq.cmd = .ok i →
    step s = exec i { s with env := { s.env with schedule := es } }) ∧
  (∀ (s : State) (i : Instr), s.inReset = false → s.seq.phase = .run → s.env.schedule = [] →
    decode s.seq.cmd = .ok i → step s = exec i s) ∧
  (∀ (s : State) (w : Nat) (i : Instr), decodeTableWord 32 w = some i →
    step (s.withFetchWord 32 w) =
      exec i { s with
        inReset := false
        seq := { s.seq with phase := .idle, pending := none }
        env := { s.env with responses := s.env.responses ++ [.done] } })

/-- One `CMD` write while BUSY = 0: the code reported is the first of R202's order, and a refusal writes DONE, ERR,
ERRCODE and OK and nothing else; otherwise the command is accepted: BUSY set, the word kept, DONE, OK, ERR, ERRCODE
cleared, WIGN kept (30_encoding.md R80, R91, R92, 60_exceptions.md R200 to R202). With which values `cur`, `acc`, `frame`,
`step` and the parser start is the model's reading of "taken fresh" (assumption log 6), the recorded answer is log 12. -/
def Obligations.CommandWriteRefusesOrAccepts : Prop :=
  ∀ (s : State) (w : Word) (es : List Event), s.inReset = false → s.seq.phase = .idle →
    s.env.schedule = .host ⟨s.cfg.base + 0x008, 4, .write w⟩ :: es →
    step s = .next (match refusalCode w s with
      | some c => { s with
          status := ⟨true, false, true, c, s.status.wign⟩
          env := { s.env with schedule := es, responses := s.env.responses ++ [.done] } }
      | none => { s with
          status := ⟨false, false, false, 0, s.status.wign⟩
          seq := ⟨.run, w, 0, 0, s.seq.pending, 0, 0, s.seq.elapsed, .start⟩
          env := { s.env with schedule := es, responses := s.env.responses ++ [.done] } })

/-- A reserved OP value is refused with ERR_ILLEGAL (30_encoding.md R84), whatever else the word holds. -/
def Obligations.ReservedOpcodeIsIllegal : Prop :=
  ∀ w : Word, w.extractLsb' 0 8 ∉ [0x01#8, 0x02#8, 0x03#8, 0x10#8, 0x11#8, 0x20#8, 0x30#8, 0x40#8, 0x41#8] ↔
    decode w = .error .illegal

/-! ### The frame every command keeps -/

/-- No command changes what the host programmed, the capture RAM or any byte of it, WIGN, or what lies outside the block
but for SEND's carrier and clock events; only BDEC moves CURSOR (10_state.md R21, R29, R50, 20_memory.md R63). -/
def Obligations.CommandsKeepTheirInputs : Prop :=
  ∀ (i : Instr) (s t : State), exec i s = .next t →
    sameInputs s t ∧ (∀ a, t.capture.readByte a = s.capture.readByte a) ∧ t.inReset = s.inReset ∧
    t.status.wign = s.status.wign ∧
    ((∀ p n, i ≠ .bdec p n) → t.cursor = s.cursor) ∧
    ((∀ p n r, i ≠ .send p n r) → t.env = s.env) ∧
    t.env.tokens = s.env.tokens ∧ t.env.responses = s.env.responses ∧ t.env.program = s.env.program ∧
    t.env.draws = s.env.draws ∧ t.env.schedule = s.env.schedule

/-- A command's effects on registers come together in its one completion step: as long as it leaves BUSY at 1, the result
registers, STATUS and CURSOR stay, and the step that clears BUSY sets DONE (10_state.md R25, R26, R50). -/
def Obligations.RegisterEffectsComeAtCompletion : Prop :=
  ∀ (i : Instr) (s t : State), s.seq.phase = .run → exec i s = .next t →
    (t.seq.phase = .run → t.res = s.res ∧ t.status = s.status ∧ t.cursor = s.cursor) ∧
    (t.seq.phase = .idle → t.status.done = true ∧ t.status.err = s.status.err ∧ t.status.errcode = s.status.errcode ∧
      t.seq.pending = none)

/-! ### DurationMatcher -/

/-- MATCH compares over exact rationals, which is the integer form, and writes the outcome to OK and RES and nothing else
(40_matcher.md R100, R101, R104). -/
def Obligations.MatchIsTheExactTolerance : Prop :=
  ∀ s : State, s.seq.phase = .run → s.seq.pending = none →
    ∃ r : Bool,
      (r = true ↔ |(s.opLo.toNat : ℚ) - (s.opExp.toNat : ℚ)| ≤
        (s.opExp.toNat : ℚ) * (s.tolPct.toNat : ℚ) / 100 + (s.marginUs.toNat : ℚ)) ∧
      (r = true ↔ |(s.opLo.toNat : ℤ) - (s.opExp.toNat : ℤ)| ≤
        ⌊(s.opExp.toNat : ℚ) * (s.tolPct.toNat : ℚ) / 100⌋ + (s.marginUs.toNat : ℤ)) ∧
      exec .matchWithin s = .next { s with
        res := ⟨if r then 1 else 0, 0, 0, 0, 0, 0⟩
        status := { s.status with done := true, ok := r }
        seq := { s.seq with phase := .idle } }

/-- MATCHAL tests the lower bound over exact rationals, which is the integer form, and writes the outcome to OK and RES
and nothing else (40_matcher.md R102, R105). -/
def Obligations.MatchAtLeastIsTheExactLowerBound : Prop :=
  ∀ s : State, s.seq.phase = .run → s.seq.pending = none →
    ∃ r : Bool,
      (r = true ↔ (s.opExp.toNat : ℚ) * (1 - (s.tolPct.toNat : ℚ) / 100) - (s.marginUs.toNat : ℚ) ≤
        (s.opLo.toNat : ℚ)) ∧
      (r = true ↔ (s.opExp.toNat : ℤ) - ⌊(s.opExp.toNat : ℚ) * (s.tolPct.toNat : ℚ) / 100⌋ - (s.marginUs.toNat : ℤ) ≤
        (s.opLo.toNat : ℤ)) ∧
      exec .matchAtLeast s = .next { s with
        res := ⟨if r then 1 else 0, 0, 0, 0, 0, 0⟩
        status := { s.status with done := true, ok := r }
        seq := { s.seq with phase := .idle } }

/-- The corner cases of the two predicates (40_matcher.md R108). -/
def Obligations.MatcherCornerCases : Prop :=
  ∀ (s : State) (m e : Duration),
    (e = 0 → (durMatches s m e = true ↔ m.toNat ≤ s.marginUs.toNat) ∧ durMatchesAtLeast s m e = true) ∧
    (s.tolPct = 0 → s.marginUs = 0 →
      (durMatches s m e = true ↔ m = e) ∧ (durMatchesAtLeast s m e = true ↔ e.toNat ≤ m.toNat)) ∧
    (100 ≤ s.tolPct.toNat → lowerBound s e ≤ -(s.marginUs.toNat : ℤ) ∧ durMatchesAtLeast s m e = true ∧
      (m.toNat ≤ e.toNat + band s e → durMatches s m e = true)) ∧
    durMatches s 0xFFFFFFFF 0xFFFFFFFF = true ∧
    (band s 0xFFFFFFFF < 2 ^ 32 - 1 → durMatches s 0 0xFFFFFFFF = false) ∧
    (m.toNat = e.toNat + band s e → durMatches s m e = true) ∧
    (m.toNat + band s e = e.toNat → durMatches s m e = true) ∧
    (m.toNat = e.toNat + band s e + 1 → durMatches s m e = false) ∧
    (m.toNat + band s e + 1 = e.toNat → durMatches s m e = false)

/-! ### BitCodec -/

/-- `rev(x, w)` sends bit i to bit w−1−i below w, keeps the bits from w up, and undoes itself (41_bitcodec.md R120). -/
def Obligations.ReversalOfTheLowBits : Prop :=
  ∀ (x : Payload) (w : Nat), 1 ≤ w → w ≤ 64 →
    (∀ i, i < w → (rev x w).getLsbD (w - 1 - i) = x.getLsbD i) ∧
    (∀ i, w ≤ i → i < 64 → (rev x w).getLsbD i = x.getLsbD i) ∧
    rev (rev x w) w = x

/-- REV completes with OK = 1, RES the operand with its low NBITS bits reversed, every other RES register 0, and nothing
else changed (41_bitcodec.md R121, 10_state.md R52). -/
def Obligations.RevCompletes : Prop :=
  ∀ (s : State) (n : BitVec 7), s.seq.phase = .run → s.seq.pending = none →
    ∃ r : Results, (∀ j, j < 64 → r.payload.getLsbD j =
        if j < n.toNat then (s.opHi ++ s.opLo : Payload).getLsbD (n.toNat - 1 - j)
        else (s.opHi ++ s.opLo : Payload).getLsbD j) ∧
      r.bits = 0 ∧ r.addr = 0 ∧ r.cmd = 0 ∧ r.proto = 0 ∧
      exec (.rev n) s = .next { s with
        res := r
        status := { s.status with done := true, ok := true }
        seq := { s.seq with phase := .idle } }

/-- BENC's k-th step hands over the k-th token of the body, bit N−1 first, and changes nothing else; after the 2N-th token
it completes with OK = 1 and every RES register 0 (41_bitcodec.md R122, R123). -/
def Obligations.BencHandsOverTheBody : Prop :=
  ∀ (s : State) (p : BitVec 2) (n : BitVec 7), s.seq.phase = .run → s.seq.pending = none →
    (∀ k, k < n.toNat → s.seq.step = 2 * k →
      exec (.benc p n) s = .next { s with
        seq := { s.seq with pending := some ⟨.mark, (s.profile p).bitMark⟩, step := 2 * k + 1 } }) ∧
    (∀ k, k < n.toNat → s.seq.step = 2 * k + 1 →
      exec (.benc p n) s = .next { s with
        seq := { s.seq with
          pending := some ⟨.space, if (s.opHi ++ s.opLo : Payload).getLsbD (n.toNat - 1 - k) then (s.profile p).oneSpace
            else (s.profile p).zeroSpace⟩
          step := 2 * k + 2 } }) ∧
    (2 * n.toNat ≤ s.seq.step →
      exec (.benc p n) s = .next { s with
        res := ⟨0, 0, 0, 0, 0, 0⟩
        status := { s.status with done := true, ok := true }
        seq := { s.seq with phase := .idle } })

/-- BENC, run with a driver that completes every token, emits exactly the body and ends with OK = 1 (41_bitcodec.md R122,
R123). The length of the run, 2N + 1 rounds, is the model's choice (assumption log 7): R228 leaves it open. -/
def Obligations.BencEmitsExactlyTheBody : Prop :=
  ∀ (s : State) (p : BitVec 2) (n : BitVec 7), s.inReset = false → s.seq.phase = .run → s.seq.pending = none →
    s.seq.cmd = encode (.benc p n) → s.seq.step = 0 → s.env.schedule = rounds (2 * n.toNat + 1) →
    ∃ t, runFor (4 * n.toNat + 2) s = .next t ∧ t.env.tokens = s.env.tokens ++ wireBody (s.profile p) s.op n.toNat ∧
      t.env.carriers = s.env.carriers ∧ t.env.clockResets = s.env.clockResets ∧
      t.busy = false ∧ t.seq.pending = none ∧ t.status.done = true ∧ t.status.ok = true ∧ t.res = ⟨0, 0, 0, 0, 0, 0⟩

/-- BDEC, where every element its walk reads holds a value (none, where the body does not fit): success exactly if the pairs fit below CAP_LEN and all match, with the
first pair as bit N−1, CURSOR moved past the body; else the failure of R51. Nothing else changes (41_bitcodec.md R124 to
R126). -/
def Obligations.BdecDecodesTheBody : Prop :=
  ∀ (s : State) (p : BitVec 2) (n : BitVec 7), s.seq.phase = .run → s.seq.pending = none → n.toNat ≤ 64 →
    (s.cursor.toNat + 2 * n.toNat ≤ s.capLen.toNat →
      ∀ i, walkReads s (s.profile p) s.cursor.toNat n.toNat i → (capRead s i).isSome = true) →
    ∃ t, exec (.bdec p n) s = .next t ∧ sameInputs s t ∧ t.env = s.env ∧ t.inReset = s.inReset ∧ t.busy = false ∧
      ((s.cursor.toNat + 2 * n.toNat ≤ s.capLen.toNat ∧ bodyMatches s (s.profile p) s.cursor.toNat n.toNat) →
        bodyHolds s (s.profile p) s.cursor.toNat n.toNat t.res.payload ∧
        t.res.bits = n ∧ t.res.addr = 0 ∧ t.res.cmd = 0 ∧ t.res.proto = 0 ∧
        t.cursor.toNat = s.cursor.toNat + 2 * n.toNat ∧ t.status = { s.status with done := true, ok := true }) ∧
      (¬ (s.cursor.toNat + 2 * n.toNat ≤ s.capLen.toNat ∧ bodyMatches s (s.profile p) s.cursor.toNat n.toNat) →
        t.res = ⟨0, 0, 0, 0, 0, 0⟩ ∧ t.cursor = s.cursor ∧ t.status = { s.status with done := true, ok := false })

/-! ### FrameAssembler -/

/-- SEND's action at every position of a full frame and of a SHORT repeat frame, and what follows the last one; each
changes only what is named (42_assembler.md R140 to R146, R150). -/
def Obligations.SendFollowsItsActionList : Prop :=
  ∀ (s : State) (p : BitVec 2) (n : BitVec 7) (r : BitVec 12), s.seq.phase = .run → s.seq.pending = none →
    let f := s.profile p
    let full := s.seq.frame = 0 ∨ f.rptMode = 0
    let c := if s.seq.frame = 0 then 1 else 0
    let b := if full then 2 * n.toNat else 0
    (s.seq.frame = 0 → s.seq.step = 0 →
      exec (.send p n r) s = .next { s with
        env := { s.env with carriers := s.env.carriers ++ [⟨f.freqKhz, f.dutyPct⟩] }
        seq := { s.seq with step := s.seq.step + 1 } }) ∧
    (s.seq.step = c →
      exec (.send p n r) s = .next { s with
        env := { s.env with clockResets := s.env.clockResets + 1, clock := 0 }
        seq := { s.seq with step := s.seq.step + 1 } }) ∧
    (s.seq.step = c + 1 →
      exec (.send p n r) s = .next { s with
        seq := { s.seq with pending := some ⟨.mark, f.hdrMark⟩, step := s.seq.step + 1 } }) ∧
    (s.seq.step = c + 2 →
      exec (.send p n r) s = .next { s with
        seq := { s.seq with pending := some ⟨.space, if full then f.hdrSpace else f.rptSpace⟩, step := s.seq.step + 1 } }) ∧
    (∀ k, full → k < n.toNat → s.seq.step = c + 3 + 2 * k →
      exec (.send p n r) s = .next { s with
        seq := { s.seq with pending := some ⟨.mark, f.bitMark⟩, step := s.seq.step + 1 } }) ∧
    (∀ k, full → k < n.toNat → s.seq.step = c + 4 + 2 * k →
      exec (.send p n r) s = .next { s with
        seq := { s.seq with
          pending := some ⟨.space, if s.op.getLsbD (n.toNat - 1 - k) then f.oneSpace else f.zeroSpace⟩
          step := s.seq.step + 1 } }) ∧
    (s.seq.step = c + b + 3 →
      exec (.send p n r) s = .next { s with
        seq := { s.seq with pending := some ⟨.mark, f.ftrMark⟩, step := s.seq.step + 1 } }) ∧
    (s.seq.step = c + b + 4 →
      exec (.send p n r) s = .next { s with
        seq := { s.seq with elapsed := s.env.clock, step := s.seq.step + 1 } }) ∧
    (s.seq.step = c + b + 5 →
      exec (.send p n r) s = .next { s with
        seq := { s.seq with pending := some ⟨.space, wireGap f s.seq.elapsed⟩, step := s.seq.step + 1 } }) ∧
    (c + b + 6 ≤ s.seq.step → s.seq.frame < r.toNat →
      exec (.send p n r) s = .next { s with seq := { s.seq with frame := s.seq.frame + 1, step := 0 } }) ∧
    (c + b + 6 ≤ s.seq.step → r.toNat ≤ s.seq.frame →
      exec (.send p n r) s = .next { s with
        res := ⟨0, 0, 0, 0, 0, 0⟩
        status := { s.status with done := true, ok := true }
        seq := { s.seq with phase := .idle } })

/-- The trailing gap is `max(MIN_GAP, MIN_FRAME − e)` in exact integers: never a wrapped value, MIN_GAP where the reading
is above MIN_FRAME (42_assembler.md R144). -/
def Obligations.TrailingGapIsExact : Prop :=
  ∀ (f : Profile) (e : Duration),
    ((gap f e).toNat : ℤ) = max (f.minGap.toNat : ℤ) ((f.minFrame.toNat : ℤ) - (e.toNat : ℤ)) ∧
    gap f e = wireGap f e ∧ f.minFrame.toNat ≤ e.toNat + (gap f e).toNat ∧
    (f.minFrame.toNat ≤ e.toNat → gap f e = f.minGap)

/-- SEND, run with a driver that completes every token and a clock that does not advance (the test clock), ends, with one
carrier event, REPEAT + 1 clock resets, exactly the tokens of its frames, OK = 1 and every RES register 0, and leaves the
events behind its rounds to come (42_assembler.md R140 to R150). -/
def Obligations.SendCompletesWithItsWaveform : Prop :=
  ∀ (s : State) (p : BitVec 2) (n : BitVec 7) (r : BitVec 12), s.inReset = false → s.seq.phase = .run →
    s.seq.pending = none → s.seq.cmd = encode (.send p n r) → s.seq.frame = 0 → s.seq.step = 0 →
    ∃ k, ∀ es,
      ∃ t, runFor (2 * k) (s.setSchedule (rounds k ++ es)) = .next t ∧
        t.env.tokens = s.env.tokens ++ wireSend (s.profile p) s.op n.toNat r.toNat (fun _ => 0) ∧
        t.env.carriers = s.env.carriers ++ [⟨(s.profile p).freqKhz, (s.profile p).dutyPct⟩] ∧
        t.env.clockResets = s.env.clockResets + (r.toNat + 1) ∧
        t.busy = false ∧ t.seq.pending = none ∧ t.status.done = true ∧ t.status.ok = true ∧
        t.res = ⟨0, 0, 0, 0, 0, 0⟩ ∧ sameInputs s t ∧ t.cursor = s.cursor ∧ t.env.schedule = es

/-- Whatever the other agents do, short of reset, an accepted SEND emits nothing but its waveform: as long as it stays
BUSY the tokens so far and the pending one begin the tokens of its frames, each with some clock reading, and when it is no
longer BUSY they are all of them (42_assembler.md R142, R143, R147; 60_exceptions.md R205, R206). -/
def Obligations.SendEmitsNothingButItsWaveform : Prop :=
  ∀ (s : State) (p : BitVec 2) (n : BitVec 7) (r : BitVec 12) (m : Nat), s.inReset = false → s.seq.phase = .run →
    s.seq.pending = none → s.seq.cmd = encode (.send p n r) → s.seq.frame = 0 → s.seq.step = 0 →
    .resetAssert ∉ s.env.schedule →
    (∀ j t, j < m → runFor j s = .next t → t.busy = true) →
    ∃ t, runFor m s = .next t ∧ ∃ e : Nat → Duration, ∃ rest : List Token,
      t.env.tokens ++ t.seq.pending.toList ++ rest =
        s.env.tokens ++ wireSend (s.profile p) s.op n.toNat r.toNat e ∧
      (t.busy = false → rest = [] ∧ t.seq.pending = none)

/-! ### FrameParser -/

/-- A DECODE whose walk ended: Success writes payload, bit count, the codec's fields, and PROTO_ID, with OK = 1; Failure
writes zeros, with OK = 0 and CURSOR unchanged. Nothing else changes (43_parser.md R171, 10_state.md R51). -/
def Obligations.DecodeCompletion : Prop :=
  ∀ (s : State) (p : BitVec 2) (strict : Bool) (n : BitVec 7), s.seq.phase = .run → s.seq.pending = none →
    (s.seq.parse = .success → (s.profile p).codec ≠ 3 →
      ∃ r : Results, r.payload = s.seq.acc ∧ r.bits = n ∧ fieldsAre (s.profile p).codec s.seq.acc r.addr r.cmd ∧
        r.proto = (s.profile p).protoId ∧
        exec (.decode p strict n) s = .next { s with
          res := r
          status := { s.status with done := true, ok := true }
          seq := { s.seq with phase := .idle } }) ∧
    (s.seq.parse = .failure →
      exec (.decode p strict n) s = .next { s with
        res := ⟨0, 0, 0, 0, 0, 0⟩
        status := { s.status with done := true, ok := false }
        seq := { s.seq with phase := .idle } })

/-- From every state of the parser, where the elements its next transition reads hold values, DECODE takes a step of the state machine of R172, and no
other: the named successor or Failure, and from Success and Failure the completion (43_parser.md R172). -/
def Obligations.DecodeFollowsTheStateMachine : Prop :=
  ∀ (s : State) (p : BitVec 2) (strict : Bool) (n : BitVec 7), s.seq.phase = .run → s.seq.pending = none →
    positionOk (.decode p strict n) s →
    (∀ i, transitionReads s (s.profile p) strict n i → (capRead s i).isSome = true) →
    ∃ t, exec (.decode p strict n) s = .next t ∧
      (s.seq.parse = .start → t.seq.parse = .headerMatched ∨ t.seq.parse = .failure) ∧
      (s.seq.parse = .headerMatched → t.seq.parse = .bodyMatched ∨ t.seq.parse = .failure) ∧
      (s.seq.parse = .bodyMatched → t.seq.parse = .footerMatched ∨ t.seq.parse = .failure) ∧
      (s.seq.parse = .footerMatched → strict = true → t.seq.parse = .compliant ∨ t.seq.parse = .failure) ∧
      (s.seq.parse = .footerMatched → strict = false → t.seq.parse = .nonStrictAccepted) ∧
      (s.seq.parse = .compliant ∨ s.seq.parse = .nonStrictAccepted → t.seq.parse = .success) ∧
      (t.seq.phase = .idle ↔ s.seq.parse = .success ∨ s.seq.parse = .failure)

/-- The fault of R65: a BDEC, or a DECODE in its Start, HeaderMatched or BodyMatched state, whose walk has matched so far
and comes to an element not written since reset stops with UNWRITTEN_CAPTURE of that element (20_memory.md R65). -/
def Obligations.UnwrittenElementFaults : Prop :=
  ∀ (s : State) (p : BitVec 2) (strict : Bool) (n : BitVec 7), s.seq.phase = .run → s.seq.pending = none →
    let f := s.profile p
    (∀ k, s.cursor.toNat + 2 * n.toNat ≤ s.capLen.toNat → walkStopsAt s f s.cursor.toNat n.toNat k →
      exec (.bdec p n) s = .fault (.unwrittenCapture k)) ∧
    (s.seq.parse = .start → (strict = true → n = f.nbitsCanon) → 2 * n.toNat + 3 ≤ s.capLen.toNat →
      (capRead s 0 = none → exec (.decode p strict n) s = .fault (.unwrittenCapture 0)) ∧
      ((capRead s 0).isSome = true → durMatches s (element s 0) f.hdrMark = true → capRead s 1 = none →
        exec (.decode p strict n) s = .fault (.unwrittenCapture 1))) ∧
    (∀ k, s.seq.parse = .headerMatched → walkStopsAt s f s.seq.cur n.toNat k →
      exec (.decode p strict n) s = .fault (.unwrittenCapture k)) ∧
    (s.seq.parse = .bodyMatched →
      (capRead s s.seq.cur = none → exec (.decode p strict n) s = .fault (.unwrittenCapture s.seq.cur)) ∧
      ((capRead s s.seq.cur).isSome = true → durMatches s (element s s.seq.cur) f.ftrMark = true →
        s.seq.cur + 1 < s.capLen.toNat → capRead s (s.seq.cur + 1) = none →
        exec (.decode p strict n) s = .fault (.unwrittenCapture (s.seq.cur + 1))))

/-- DECODE, run to its end where every element it reads holds a value (none, where the strict count or the length fails): it
succeeds exactly if the capture begins with one frame of N bits, N is the canonical count if strict, and the payload
complies if strict; then RES is that payload; else the failure of R51. Nothing else changes (43_parser.md R160 to R172). That
it ends within six steps is the model's choice (assumption log 7): R228 leaves it open. -/
def Obligations.DecodeAcceptsExactlyItsFrames : Prop :=
  ∀ (s : State) (p : BitVec 2) (strict : Bool) (n : BitVec 7), s.inReset = false → s.seq.phase = .run →
    s.seq.pending = none → s.seq.cmd = encode (.decode p strict n) → s.seq.parse = .start → s.env.schedule = [] →
    1 ≤ n.toNat → n.toNat ≤ 64 → (s.profile p).codec ≠ 3 →
    (∀ i, frameReads s (s.profile p) strict n i → (capRead s i).isSome = true) →
    ∃ (v : Payload) (k : Nat) (t : State), bodyHolds s (s.profile p) 2 n.toNat v ∧ k ≤ 6 ∧ runFor k s = .next t ∧
      t.busy = false ∧ sameInputs s t ∧ t.cursor = s.cursor ∧ t.env = s.env ∧
      ((frameMatches s (s.profile p) n.toNat ∧
          (strict = true → n = (s.profile p).nbitsCanon ∧ complies (s.profile p).codec v)) →
        t.res.payload = v ∧ t.res.bits = n ∧ fieldsAre (s.profile p).codec v t.res.addr t.res.cmd ∧
        t.res.proto = (s.profile p).protoId ∧ t.status = { s.status with done := true, ok := true }) ∧
      (¬ (frameMatches s (s.profile p) n.toNat ∧
          (strict = true → n = (s.profile p).nbitsCanon ∧ complies (s.profile p).codec v)) →
        t.res = ⟨0, 0, 0, 0, 0, 0⟩ ∧ t.status = { s.status with done := true, ok := false })

/-- The round trip: with distinguishable spaces, a non-strict DECODE of a capture that holds the tokens of a SEND frame of
v (whatever its clock read) succeeds with RES = v mod 2^N (41_bitcodec.md R125, 90_conflicts.md C6, 10_state.md R56). -/
def Obligations.DecodeInvertsSend : Prop :=
  ∀ (s : State) (p : BitVec 2) (n : BitVec 7) (v : Payload) (e : Duration), s.inReset = false → s.seq.phase = .run →
    s.seq.pending = none → s.seq.cmd = encode (.decode p false n) → s.seq.parse = .start → s.env.schedule = [] →
    1 ≤ n.toNat → n.toNat ≤ 64 → (s.profile p).codec ≠ 3 → distinguishable s (s.profile p) →
    s.capLen.toNat = 2 * n.toNat + 4 →
    (∀ i tok, (wireFrame (s.profile p) v n.toNat 0 e)[i]? = some tok → capRead s i = some tok.dur) →
    ∃ (k : Nat) (t : State), runFor k s = .next t ∧ t.busy = false ∧ t.status.ok = true ∧
      t.res.payload.toNat = v.toNat % 2 ^ n.toNat ∧ t.res.bits = n ∧ t.res.proto = (s.profile p).protoId

/-- The sequencer reads no capture element at or beyond CAP_LEN: a command does the same on any two captures that agree
below it (20_memory.md R62). -/
def Obligations.CaptureBeyondItsLengthIsNotRead : Prop :=
  ∀ (s t : State) (m : Memory) (i : Instr), s.seq.phase = .run → s.seq.pending = none → positionOk i s →
    (∀ j, j < s.capLen.toNat → capRead { s with capture := m } j = capRead s j) →
    exec i s = .next t → exec i { s with capture := m } = .next { t with capture := m }

/-- Elements after index 2N + 3 do not affect a DECODE: it does the same on two captures that agree up to there, of one length
or of two lengths above 2N + 3 — a frame followed by anything decodes as the frame alone (43_parser.md R169). -/
def Obligations.DecodeIgnoresWhatFollowsTheGap : Prop :=
  ∀ (s : State) (m : Memory) (l : Word) (p : BitVec 2) (strict : Bool) (n : BitVec 7), s.seq.phase = .run →
    s.seq.pending = none → positionOk (.decode p strict n) s →
    (∀ j, j < 2 * n.toNat + 4 → capRead { s with capture := m } j = capRead s j) →
    (l = s.capLen ∨ (2 * n.toNat + 4 ≤ l.toNat ∧ 2 * n.toNat + 4 ≤ s.capLen.toNat)) →
    (∀ t, exec (.decode p strict n) s = .next t →
      exec (.decode p strict n) { s with capture := m, capLen := l } = .next { t with capture := m, capLen := l }) ∧
    (∀ r, exec (.decode p strict n) s = .fault r →
      exec (.decode p strict n) { s with capture := m, capLen := l } = .fault r)

/-! ### ProtocolCodec -/

/-- PENC's payload, bit by bit: NEC-style with an 8-bit address, NEC-style with a 16-bit address, Samsung; the rest of the
results 0, OK = 1, nothing else changed (44_protocol.md R182, R183, R186, R190). -/
def Obligations.PencBuildsThePayload : Prop :=
  ∀ (s : State) (p : BitVec 2), s.seq.phase = .run → s.seq.pending = none →
    (s.profile p).codec = 1 ∨ (s.profile p).codec = 2 →
    ∃ w : Word,
      exec (.penc p) s = .next { s with
        res := ⟨w, 0, 0, 0, 0, 0⟩
        status := { s.status with done := true, ok := true }
        seq := { s.seq with phase := .idle } } ∧
      (∀ j, j < 8 → w.getLsbD (15 - j) = s.opLo.getLsbD (16 + j) ∧ w.getLsbD (7 - j) = !s.opLo.getLsbD (16 + j)) ∧
      ((s.profile p).codec = 1 → (s.opLo.extractLsb' 0 16).toNat ≤ 0xFF →
        ∀ j, j < 8 → w.getLsbD (31 - j) = s.opLo.getLsbD j ∧ w.getLsbD (23 - j) = !s.opLo.getLsbD j) ∧
      ((s.profile p).codec = 1 → 0xFF < (s.opLo.extractLsb' 0 16).toNat →
        ∀ j, j < 16 → w.getLsbD (31 - j) = s.opLo.getLsbD j) ∧
      ((s.profile p).codec = 2 →
        ∀ j, j < 8 → w.getLsbD (31 - j) = s.opLo.getLsbD j ∧ w.getLsbD (23 - j) = s.opLo.getLsbD j)

/-- PCHK passes exactly if not strict, or the bit count is canonical and the operand complies; then it writes the operand,
NBITS, the codec's fields and PROTO_ID, with OK = 1; else the failure of R51. Nothing else changes (44_protocol.md R184,
R185, R187 to R189, R191). -/
def Obligations.PchkChecksThePayload : Prop :=
  ∀ (s : State) (p : BitVec 2) (strict : Bool) (n : BitVec 7), s.seq.phase = .run → s.seq.pending = none →
    (s.profile p).codec ≠ 3 →
    ((strict = true → n = (s.profile p).nbitsCanon ∧ complies (s.profile p).codec s.op) →
      ∃ (a : BitVec 16) (k : BitVec 8), fieldsAre (s.profile p).codec s.op a k ∧
        exec (.pchk p strict n) s = .next { s with
          res := ⟨s.opLo, s.opHi, n, a, k, (s.profile p).protoId⟩
          status := { s.status with done := true, ok := true }
          seq := { s.seq with phase := .idle } }) ∧
    (¬ (strict = true → n = (s.profile p).nbitsCanon ∧ complies (s.profile p).codec s.op) →
      exec (.pchk p strict n) s = .next { s with
        res := ⟨0, 0, 0, 0, 0, 0⟩
        status := { s.status with done := true, ok := false }
        seq := { s.seq with phase := .idle } })

/-- The codecs read back what they write: NEC-style for every 8-bit address, and for a 16-bit one unless byte 1 of the
reversed address is the complement of its byte 0, when the 8-bit address comes back; Samsung for every 8-bit address; and
both comply (44_protocol.md R196). -/
def Obligations.CodecsReadBackWhatTheyWrite : Prop :=
  ∀ (a : BitVec 16) (c : BitVec 8),
    comply 1 ((necEncode a c).setWidth 64) = true ∧
    (a.toNat ≤ 0xFF → fields 1 ((necEncode a c).setWidth 64) = (a, c)) ∧
    (0xFF < a.toNat →
      fields 1 ((necEncode a c).setWidth 64) =
        if (rev16 a).extractLsb' 0 8 = ~~~((rev16 a).extractLsb' 8 8)
        then ((rev8 ((rev16 a).extractLsb' 8 8)).setWidth 16, c) else (a, c)) ∧
    comply 2 ((samEncode a c).setWidth 64) = true ∧
    (a.toNat ≤ 0xFF → fields 2 ((samEncode a c).setWidth 64) = (a, c))

/-! ### The host window -/

/-- While BUSY = 1 every word write of the window, the host's and the capture collaborator's, is ignored and sets WIGN,
at every offset, and every word read is served (10_state.md R55). That the RES registers and unmapped offsets are among
those offsets, R49 notwithstanding, is a reading of R55 (assumption log 10); what is recorded as the host's answer to a write
is the model's convention (log 12). -/
def Obligations.WritesAreLostWhileBusy : Prop :=
  ∀ (s : State) (es : List Event), s.inReset = false → s.seq.phase = .run →
    (∀ off v, off < 0x2000 → off % 4 = 0 → s.env.schedule = .host ⟨s.cfg.base + off, 4, .write v⟩ :: es →
      step s = .next { s with
        status := { s.status with wign := true }
        env := { s.env with schedule := es, responses := s.env.responses ++ [.done] } }) ∧
    (∀ w, w.offset < 0x2000 → s.env.schedule = .collaborator w :: es →
      step s = .next { s with
        status := { s.status with wign := true }
        env := { s.env with schedule := es } }) ∧
    (∀ off v, off < 0x2000 → off % 4 = 0 → s.env.schedule = .host ⟨s.cfg.base + off, 4, .read⟩ :: es →
      readRegister s (regAt s.cfg off) = some v →
      step s = .next { s with env := { s.env with schedule := es, responses := s.env.responses ++ [.data v] } })

/-- STATUS as read (10_state.md R24) and as written: a 1 in bit 1 clears DONE, in bit 3 ERR and ERRCODE together, in bit 8
WIGN; nothing else changes (R26 to R29). -/
def Obligations.StatusReadsAndClears : Prop :=
  ∀ s : State,
    (∃ v : Word, readRegister s (regAt s.cfg 0x004) = some v ∧ v.getLsbD 0 = s.busy ∧ v.getLsbD 1 = s.status.done ∧
      v.getLsbD 2 = s.status.ok ∧ v.getLsbD 3 = s.status.err ∧ v.extractLsb' 4 4 = s.status.errcode ∧
      v.getLsbD 8 = s.status.wign ∧ v >>> 9 = 0) ∧
    (∀ v : Word, s.seq.phase = .idle → busWrite 0x004 v s = .next { s with
      status :=
        { done := s.status.done && !v.getLsbD 1
          ok := s.status.ok
          err := s.status.err && !v.getLsbD 3
          errcode := if v.getLsbD 3 then 0 else s.status.errcode
          wign := s.status.wign && !v.getLsbD 8 } })

/-- The operand registers hold what is written, and the write changes nothing else, locked or not (10_state.md R40 to R43,
R38). -/
def Obligations.OperandRegistersHoldWhatIsWritten : Prop :=
  ∀ (s : State) (v : Word), s.seq.phase = .idle →
    busWrite 0x014 v s = .next { s with opLo := v } ∧ busWrite 0x018 v s = .next { s with opHi := v } ∧
    busWrite 0x01C v s = .next { s with opExp := v } ∧ busWrite 0x020 v s = .next { s with cursor := v } ∧
    busWrite 0x024 v s = .next { s with capLen := v } ∧
    readRegister s (regAt s.cfg 0x014) = some s.opLo ∧ readRegister s (regAt s.cfg 0x018) = some s.opHi ∧
    readRegister s (regAt s.cfg 0x01C) = some s.opExp ∧ readRegister s (regAt s.cfg 0x020) = some s.cursor ∧
    readRegister s (regAt s.cfg 0x024) = some s.capLen

/-- An unlocked profile register reads back what was written, FORMAT and CARRIER without their reserved bits; no other
profile register and nothing else changes (10_state.md R30 to R34). -/
def Obligations.ProfileRegistersHoldWhatIsWritten : Prop :=
  ∀ (s : State) (p : BitVec 2) (r : ProfReg) (v : Word), s.seq.phase = .idle → s.lock = false →
    ∃ t, busWrite (0x100 + 0x40 * p.toNat + r.offset) v s = .next t ∧
      readRegister t (regAt t.cfg (0x100 + 0x40 * p.toNat + r.offset)) =
        some (match r with
          | .format => v &&& 0x00FF0FFF
          | .carrier => v &&& 0x00FFFFFF
          | _ => v) ∧
      (∀ q r', (q, r') ≠ (p, r) →
        readRegister t (regAt t.cfg (0x100 + 0x40 * q.toNat + r'.offset)) =
          readRegister s (regAt s.cfg (0x100 + 0x40 * q.toNat + r'.offset))) ∧
      t = { s with profiles := t.profiles }

/-- Reserved bits read 0 and writes to them are ignored; a host write of a RES register is ignored and does not set WIGN;
an unmapped word offset of the window reads 0 and a write to it is ignored (10_state.md R49). -/
def Obligations.ReservedReadOnlyAndUnmapped : Prop :=
  ∀ (s : State) (v : Word),
    (∀ off r, (off, r) ∈ [(0x000, 0xFFFFFFFE#32), (0x004, 0xFFFFFE00#32), (0x00C, 0xFFFFFF00#32), (0x030, 0xFFFFFF80#32),
        (0x034, 0xFFFF0000#32), (0x038, 0xFFFFFF00#32), (0x03C, 0xFFFFFF00#32),
        (0x124, 0xFF00F000#32), (0x164, 0xFF00F000#32), (0x1A4, 0xFF00F000#32), (0x1E4, 0xFF00F000#32),
        (0x128, 0xFF000000#32), (0x168, 0xFF000000#32), (0x1A8, 0xFF000000#32), (0x1E8, 0xFF000000#32)] →
      (∃ w, readRegister s (regAt s.cfg off) = some w ∧ w &&& r = 0) ∧
      busWrite off (v &&& ~~~r) s = busWrite off v s) ∧
    (∀ off, off ∈ [0x028, 0x02C, 0x030, 0x034, 0x038, 0x03C] → s.seq.phase = .idle → busWrite off v s = .next s) ∧
    (∀ off, off % 4 = 0 →
      (0x040 ≤ off ∧ off < 0x100) ∨ (0x100 ≤ off ∧ off < 0x200 ∧ 0x2C ≤ off % 0x40) ∨ (0x200 ≤ off ∧ off < 0x1000) ∨
        (0x1000 + 4 * s.cfg.capDepth ≤ off ∧ off < 0x2000) →
      readRegister s (regAt s.cfg off) = some 0 ∧ (s.seq.phase = .idle → busWrite off v s = .next s))

/-- LOCK: set by writing bit 0 = 1, left by writing 0; while set, writes of TOL, MARGIN and every profile register are
ignored and set WIGN (10_state.md R38). -/
def Obligations.LockedRegistersIgnoreWrites : Prop :=
  ∀ (s : State) (v : Word), s.seq.phase = .idle →
    busWrite 0x000 v s = .next { s with lock := s.lock || v.getLsbD 0 } ∧
    (∀ off, (off = 0x00C ∨ off = 0x010 ∨ ∃ (p : BitVec 2) (r : ProfReg), off = 0x100 + 0x40 * p.toNat + r.offset) →
      s.lock = true → busWrite off v s = .next { s with status := { s.status with wign := true } }) ∧
    (s.lock = false → busWrite 0x00C v s = .next { s with tolPct := v.extractLsb' 0 8 } ∧
      busWrite 0x010 v s = .next { s with marginUs := v })

/-- Once LOCK = 1, no event but reset changes LOCK, TOL, MARGIN or a profile register (10_state.md R38,
70_reset_and_hazards.md R226). -/
def Obligations.LockFreezesTheConfigurationUntilReset : Prop :=
  ∀ (s t : State) (k : Nat), s.lock = true → .resetAssert ∉ s.env.schedule → runFor k s = .next t →
    t.lock = true ∧ t.tolPct = s.tolPct ∧ t.marginUs = s.marginUs ∧ t.profiles = s.profiles

/-- A misaligned or non-word access has no effect on the block and sets no STATUS bit; it gets a bus error where the bus
carries one, and otherwise a read returns some value (20_memory.md R69). -/
def Obligations.MisalignedAndNarrowAccesses : Prop :=
  ∀ (s : State) (off width : Nat) (op : BusOp) (es : List Event), s.inReset = false → off < 0x2000 →
    (off % 4 ≠ 0 ∨ width ≠ 4) → s.env.schedule = .host ⟨s.cfg.base + off, width, op⟩ :: es →
    ∃ t, step s = .next t ∧ { t with env := s.env } = s ∧
      (s.cfg.busErrors = true → t.env = { s.env with schedule := es, responses := s.env.responses ++ [.busError] }) ∧
      (s.cfg.busErrors = false → op = .read →
        ∃ v d, t.env = { s.env with schedule := es, responses := s.env.responses ++ [.data v], draws := d })

/-- A word read never changes the block, whatever it reads: a register, a written element, or an unwritten one, which
gives some value (20_memory.md R65, R70). -/
def Obligations.ReadsHaveNoSideEffect : Prop :=
  ∀ (s : State) (off : Nat) (es : List Event), s.inReset = false → off < 0x2000 → off % 4 = 0 →
    s.env.schedule = .host ⟨s.cfg.base + off, 4, .read⟩ :: es →
    ∃ t v d, step s = .next t ∧
      t = { s with env := { s.env with schedule := es, responses := s.env.responses ++ [.data v], draws := d } } ∧
      (∀ w, readRegister s (regAt s.cfg off) = some w → v = w ∧ d = s.env.draws)

/-- A write of capture element i, by the host or the capture collaborator, stores the word and changes no other element and
nothing else of the block (20_memory.md R61, R64). That it stands in four bytes, the low one first, and that no other byte
changes is the model's layout of the RAM (assumption log 9): no access sees part of a word (R67). -/
def Obligations.CaptureWriteStoresOneElement : Prop :=
  ∀ (s : State) (i : Nat) (v : Word) (es : List Event), s.cfg.wf = true → s.inReset = false → s.seq.phase = .idle →
    i < s.cfg.capDepth →
    (s.env.schedule = .host ⟨s.cfg.base + (0x1000 + 4 * i), 4, .write v⟩ :: es ∨
      s.env.schedule = .collaborator (.element i v) :: es) →
    ∃ t, step s = .next t ∧ capRead t i = some v ∧ (∀ j, j ≠ i → capRead t j = capRead s j) ∧
      (∀ k, k < 4 → t.capture.readByte (0x1000 + 4 * i + k) = some (v.extractLsb' (8 * k) 8)) ∧
      (∀ a, a < 0x1000 + 4 * i ∨ 0x1000 + 4 * i + 4 ≤ a → t.capture.readByte a = s.capture.readByte a) ∧
      (Memory.wf s.capture = true → Memory.wf t.capture = true) ∧
      { t with capture := s.capture, env := s.env } = s

/-! ### Agents, events and reset -/

/-- Only the emission driver appends to the token trace, exactly the pending token; only a SEND issues carrier and clock
events; the traces only grow; every other event leaves them (60_exceptions.md R205 to R207, 42_assembler.md R141). -/
def Obligations.TracesGrowOnlyByTheirAgents : Prop :=
  ∀ (s t : State), step s = .next t →
    (t.env.tokens = s.env.tokens ∨
      ∃ tok es, s.env.schedule = .driver :: es ∧ s.seq.pending = some tok ∧ t.env.tokens = s.env.tokens ++ [tok] ∧
        t.seq.pending = none) ∧
    ((t.env.carriers = s.env.carriers ∧ t.env.clockResets = s.env.clockResets) ∨
      ∃ p n r, decode s.seq.cmd = .ok (.send p n r) ∧ s.seq.phase = .run ∧ s.seq.pending = none ∧
        ((t.env.carriers = s.env.carriers ++ [⟨(s.profile p).freqKhz, (s.profile p).dutyPct⟩] ∧
            t.env.clockResets = s.env.clockResets) ∨
          (t.env.carriers = s.env.carriers ∧ t.env.clockResets = s.env.clockResets + 1 ∧ t.env.clock = 0)))

/-- A clock reading is no less than any earlier one since the same ClockReset, and every later u32 reading can occur
(60_exceptions.md R206). That ticks saturate at the largest u32 is the model's choice (assumption log 4). -/
def Obligations.ClockIsMonotone : Prop :=
  (∀ (s t : State), step s = .next t → t.env.clockResets = s.env.clockResets → s.env.clock.toNat ≤ t.env.clock.toNat) ∧
  (∀ (s : State) (e : Duration), s.env.clock.toNat ≤ e.toNat → ∃ us, ∀ es,
    step (s.setSchedule (.clockTick us :: es)) = .next { s with env := { s.env with schedule := es, clock := e } })

/-- A driver that never completes its token leaves the block in RUN with BUSY = 1 and the sequencer without a step, for
every sequence of other events short of reset (60_exceptions.md R214). -/
def Obligations.StalledDriverKeepsTheBlockBusy : Prop :=
  ∀ (s : State) (tok : Token) (k : Nat), s.seq.phase = .run → s.seq.pending = some tok →
    .driver ∉ s.env.schedule → .resetAssert ∉ s.env.schedule →
    ∃ t, runFor k s = .next t ∧ t.busy = true ∧ t.seq = s.seq ∧ t.env.tokens = s.env.tokens ∧ t.res = s.res

/-- While a command runs, whatever events come short of reset, the registers it reads are frozen: those the host programs, the
profiles and the capture up to and past its completion, and CURSOR, which BDEC's completion writes, as long as it is BUSY
(10_state.md R21, R50, R55, 20_memory.md R77). The clock a SEND reads is no register of the block and is not frozen. -/
def Obligations.InputsAreFrozenWhileBusy : Prop :=
  ∀ (s t : State) (m : Nat), s.inReset = false → .resetAssert ∉ s.env.schedule →
    (∀ j u, j < m → runFor j s = .next u → u.busy = true) → runFor m s = .next t →
    sameInputs s t ∧ (t.busy = true → t.cursor = s.cursor)

/-- After reset every piece of state holds the value of R54, whatever it held before, and reset issues no event
(10_state.md R54); so does the state the model starts in. -/
def Obligations.ResetValues : Prop :=
  holdsResetValues State.reset ∧
  ∀ (s : State) (es : List Event), s.env.schedule = .resetAssert :: .resetRelease :: es →
    ∃ t, runFor 2 s = .next t ∧ holdsResetValues t ∧ t.inReset = false ∧ t.cfg = s.cfg ∧
      t.env = { s.env with schedule := es }

/-- While reset is asserted the block takes no bus access and no step: every event but the release leaves it as it is, and
no token, carrier or clock-reset event is issued (70_reset_and_hazards.md R220, R221). That the host gets no answer then and
its program waits is the model's reading (assumption log 8). -/
def Obligations.AssertedResetHoldsTheBlock : Prop :=
  ∀ (s : State), s.Inv → s.inReset = true → (∀ es, s.env.schedule ≠ .resetRelease :: es) →
    ∃ t, step s = .next t ∧ { t with env := s.env } = s ∧ t.env.tokens = s.env.tokens ∧
      t.env.carriers = s.env.carriers ∧ t.env.clockResets = s.env.clockResets ∧ t.env.responses = s.env.responses ∧
      t.env.program = s.env.program

/-- The host's program: a line runs as its one bus access, and `wait` stays at its line until the STATUS it reads has
BUSY = 0 (30_encoding.md R89, R90); how a line is scheduled is the model's (assumption log 13). -/
def Obligations.HostLinesRunAsBusAccesses : Prop :=
  ∀ (s : State) (ls : List HostLine) (es : List Event), s.inReset = false → s.env.schedule = .hostLine :: es →
    (∀ off v, s.env.program = .wr off v :: ls →
      step s = busAccess ⟨s.cfg.base + off, 4, .write v⟩ { s with env := { s.env with schedule := es, program := ls } }) ∧
    (∀ off, s.env.program = .rd off :: ls →
      step s = busAccess ⟨s.cfg.base + off, 4, .read⟩ { s with env := { s.env with schedule := es, program := ls } }) ∧
    (s.env.program = .wait :: ls →
      step s = .next { s with
        env := { s.env with
          schedule := es
          program := if s.busy then .wait :: ls else ls
          responses := s.env.responses ++ [.data (s.status.toWord s.busy)] } })

/-! ### The invariant and safe runs -/

/-- The invariant holds at reset. -/
def Obligations.InvariantHoldsAtReset : Prop := State.reset.Inv

/-- Every step of every agent keeps the invariant. -/
def Obligations.StepKeepsTheInvariant : Prop :=
  ∀ s t : State, s.Inv → step s = .next t → t.Inv

/-- The only stop of the machine is the fault of R65, raised when a running BDEC or DECODE needs a capture element below
CAP_LEN that was not written since reset; nothing is refused (20_memory.md R62, R65). -/
def Obligations.OnlyAnUnwrittenElementStopsTheMachine : Prop :=
  ∀ s : State, s.Inv →
    (∀ r, step s ≠ .refused r) ∧
    (∀ i, step s = .fault (.unwrittenCapture i) →
      s.seq.phase = .run ∧ i < s.capLen.toNat ∧ s.capLen.toNat ≤ s.cfg.capDepth ∧ capRead s i = none ∧
      ((∃ p n, decode s.seq.cmd = .ok (.bdec p n)) ∨ ∃ p b n, decode s.seq.cmd = .ok (.decode p b n))) ∧
    (s.captured → ∃ t, step s = .next t)

/-- MATCH, MATCHAL, REV, PENC and PCHK, once accepted, are complete after the sequencer's next step, with DONE = 1 (that it
is one step is the model's choice, assumption log 7; 00_scope.md R7: LAT is finite). -/
def Obligations.AcceptedQuickCommandsComplete : Prop :=
  ∀ (s : State) (i : Instr), s.Inv → s.inReset = false → s.seq.phase = .idle → acceptanceError i s = none →
    (i = .matchWithin ∨ i = .matchAtLeast ∨ (∃ n, i = .rev n) ∨ (∃ p, i = .penc p) ∨ ∃ p b n, i = .pchk p b n) →
    s.env.schedule = [.host ⟨s.cfg.base + 0x008, 4, .write (encode i)⟩] →
    ∃ t u, runFor 1 s = .next t ∧ t.busy = true ∧ t.res = s.res ∧
      runFor 2 s = .next u ∧ u.busy = false ∧ u.status.done = true ∧ u.status.err = false ∧ sameInputs s u

/-! ### The bus path to the registers -/

/-- What every register of the window but STATUS reads, by a word read while reset is released: CTRL, CMD (0), TOL, MARGIN,
the operand and the result registers, and each register of each profile bank (10_state.md R30 to R32, R34, R36 to R48). How
the answer is recorded is the model's convention (assumption log 12). -/
def Obligations.RegistersReadTheirValues : Prop :=
  ∀ (s : State) (p : BitVec 2) (off : Nat) (v : Word) (es : List Event), s.inReset = false →
    s.env.schedule = .host ⟨s.cfg.base + off, 4, .read⟩ :: es →
    (off, v) ∈ [(0x000, 0#31 ++ BitVec.ofBool s.lock), (0x008, 0#32), (0x00C, 0#24 ++ s.tolPct), (0x010, s.marginUs),
        (0x014, s.opLo), (0x018, s.opHi), (0x01C, s.opExp), (0x020, s.cursor), (0x024, s.capLen)] ++
      [(0x028, s.res.lo), (0x02C, s.res.hi), (0x030, 0#25 ++ s.res.bits), (0x034, 0#16 ++ s.res.addr),
        (0x038, 0#24 ++ s.res.cmd), (0x03C, 0#24 ++ s.res.proto)] ++
      [(0x100 + 0x40 * p.toNat, (s.profile p).hdrMark), (0x104 + 0x40 * p.toNat, (s.profile p).hdrSpace),
        (0x108 + 0x40 * p.toNat, (s.profile p).bitMark), (0x10C + 0x40 * p.toNat, (s.profile p).oneSpace),
        (0x110 + 0x40 * p.toNat, (s.profile p).zeroSpace), (0x114 + 0x40 * p.toNat, (s.profile p).ftrMark),
        (0x118 + 0x40 * p.toNat, (s.profile p).minGap), (0x11C + 0x40 * p.toNat, (s.profile p).minFrame),
        (0x120 + 0x40 * p.toNat, (s.profile p).rptSpace),
        (0x124 + 0x40 * p.toNat, 0#8 ++ (s.profile p).protoId ++ 0#4 ++ (s.profile p).codec ++ (s.profile p).rptMode ++
          (s.profile p).order ++ (s.profile p).nbitsCanon),
        (0x128 + 0x40 * p.toNat, 0#8 ++ (s.profile p).dutyPct ++ (s.profile p).freqKhz)] →
    step s = .next { s with
      env := { s.env with schedule := es, responses := s.env.responses ++ [.data v] } }

/-- A step at a word write of the host is the write of the register at its offset (`busWrite`, of which the statements about
register writes speak), and so is one at a write of the capture collaborator; its count goes to CAP_LEN while BUSY = 0. An
access outside the window leaves the block alone (20_memory.md R60, R64, 60_exceptions.md R208). What is recorded as the
host's answer, and that outside the window there is none, is the model's convention (assumption log 12). -/
def Obligations.WritesReachTheirRegister : Prop :=
  ∀ (s : State) (es : List Event), s.inReset = false →
    (∀ off v, off < 0x2000 → off % 4 = 0 → s.env.schedule = .host ⟨s.cfg.base + off, 4, .write v⟩ :: es →
      step s = busWrite off v { s with
        env := { s.env with schedule := es, responses := s.env.responses ++ [.done] } }) ∧
    (∀ i d, 0x1000 + 4 * i < 0x2000 → s.env.schedule = .collaborator (.element i d) :: es →
      step s = busWrite (0x1000 + 4 * i) d { s with env := { s.env with schedule := es } }) ∧
    (∀ l, s.seq.phase = .idle → s.env.schedule = .collaborator (.length l) :: es →
      step s = .next { s with capLen := l, env := { s.env with schedule := es } }) ∧
    (∀ a width op, a < s.cfg.base ∨ s.cfg.base + 0x2000 ≤ a → s.env.schedule = .host ⟨a, width, op⟩ :: es →
      step s = .next { s with env := { s.env with schedule := es } })
end

