-- ==== Sys2Proof/Laws/Bits.lean ====
section
/-! SUPPORT. The bits of a reversal, and of the codecs' fields. -/

namespace Sys2Proof.Machine

theorem getLsbD_ite_one (b : Bool) (j : Nat) :
    (if b then (1 : Payload) else 0).getLsbD j = (b && decide (j = 0)) := by
  cases b
  · simp
  · by_cases h : j = 0
    · subst h; decide
    · simp only [if_true, Bool.true_and, h, decide_false]
      have : (1 : Payload) = BitVec.twoPow 64 0 := by decide
      rw [this, BitVec.getLsbD_twoPow]
      simp [Ne.symm h]

theorem getLsbD_shiftOr (acc : Payload) (b : Bool) (j : Nat) (hj : j < 64) :
    ((acc <<< 1) ||| (if b then 1 else 0)).getLsbD j = if j = 0 then b else acc.getLsbD (j - 1) := by
  rw [BitVec.getLsbD_or, getLsbD_ite_one, BitVec.getLsbD_shiftLeft]
  by_cases h : j = 0
  · subst h; simp
  · have : ¬ j < 1 := by omega
    simp [h, hj, this]

/-- Bit j of the reversed low part: bit w−1−j below w, 0 above. -/
theorem getLsbD_revLow (x : Payload) (w j : Nat) (hj : j < 64) :
    (revLow x w).getLsbD j = (decide (j < w) && x.getLsbD (w - 1 - j)) := by
  induction w generalizing j with
  | zero => simp [revLow]
  | succ w ih =>
    rw [revLow, getLsbD_shiftOr _ _ _ hj]
    by_cases h : j = 0
    · subst h; simp
    · rw [if_neg h, ih (j - 1) (by omega)]
      have h1 : w - 1 - (j - 1) = w + 1 - 1 - j := by omega
      rw [h1]
      have h2 : decide (j - 1 < w) = decide (j < w + 1) := by
        apply decide_eq_decide.2; omega
      rw [h2]

/-- The bits of `rev x w` (41_bitcodec.md R120). -/
theorem getLsbD_rev (x : Payload) (w j : Nat) (hj : j < 64) :
    (rev x w).getLsbD j = if j < w then x.getLsbD (w - 1 - j) else x.getLsbD j := by
  rw [rev, BitVec.getLsbD_or, getLsbD_revLow _ _ _ hj, BitVec.getLsbD_shiftLeft, BitVec.getLsbD_ushiftRight]
  by_cases h : j < w
  · simp [h]
  · simp [h, hj, show w + (j - w) = j by omega]

theorem getLsbD_rev8 (b : BitVec 8) (j : Nat) (hj : j < 8) : (rev8 b).getLsbD j = b.getLsbD (7 - j) := by
  rw [rev8, BitVec.getLsbD_setWidth, getLsbD_rev _ _ _ (by omega), if_pos hj, BitVec.getLsbD_setWidth]
  simp [hj, show 7 - j < 64 by omega]

theorem getLsbD_rev16 (a : BitVec 16) (j : Nat) (hj : j < 16) : (rev16 a).getLsbD j = a.getLsbD (15 - j) := by
  rw [rev16, BitVec.getLsbD_setWidth, getLsbD_rev _ _ _ (by omega), if_pos hj, BitVec.getLsbD_setWidth]
  simp [hj, show 15 - j < 64 by omega]

theorem rev8_rev8 (b : BitVec 8) : rev8 (rev8 b) = b := by
  apply BitVec.eq_of_getLsbD_eq
  intro j hj
  rw [getLsbD_rev8 _ _ hj, getLsbD_rev8 _ _ (by omega), show 7 - (7 - j) = j by omega]

theorem rev16_rev16 (a : BitVec 16) : rev16 (rev16 a) = a := by
  apply BitVec.eq_of_getLsbD_eq
  intro j hj
  rw [getLsbD_rev16 _ _ hj, getLsbD_rev16 _ _ (by omega), show 15 - (15 - j) = j by omega]

/-- RES of a payload is that payload. -/
theorem append_extract (v : Payload) : (v.extractLsb' 32 32 ++ v.extractLsb' 0 32 : Payload) = v := by
  apply BitVec.eq_of_getLsbD_eq
  intro j hj
  rw [BitVec.getLsbD_append]
  by_cases h : j < 32
  · simp [h]
  · simp [h, show j - 32 < 32 by omega, show 32 + (j - 32) = j by omega]

end Sys2Proof.Machine
end

