-- ==== Sys2Proof/Laws/Memory.lean ====
section
/-! SUPPORT. The laws of the capture RAM: a read after a write, the other bytes and elements, and the canonical form. -/

namespace Sys2Proof.Machine

namespace Memory

theorem readByte_writeByte_same (m : Memory) (a : Nat) (v : Byte) : (m.writeByte a v).readByte a = some v := by
  induction m with
  | nil => simp [writeByte, readByte]
  | cons c m ih =>
    obtain ⟨b, u⟩ := c
    unfold writeByte
    split
    · simp [readByte]
    · split
      · simp [readByte]
      · rename_i h
        simp only [readByte]
        rw [if_neg (fun e => h e.symm)]
        exact ih

theorem readByte_writeByte_other (m : Memory) {a b : Nat} (v : Byte) (h : b ≠ a) :
    (m.writeByte a v).readByte b = m.readByte b := by
  induction m with
  | nil => simp [writeByte, readByte, h.symm]
  | cons c m ih =>
    obtain ⟨k, u⟩ := c
    unfold writeByte
    split
    · simp [readByte, h.symm]
    · split
      · rename_i e
        subst e
        simp [readByte, h.symm]
      · simp only [readByte]
        split
        · rfl
        · exact ih

theorem readByte_writeByte (m : Memory) (a b : Nat) (v : Byte) :
    (m.writeByte a v).readByte b = if b = a then some v else m.readByte b := by
  split
  · rename_i h
    subst h
    exact readByte_writeByte_same m b v
  · exact readByte_writeByte_other m v ‹_›

/-- The canonical form as "strictly rising": the head lies below every other offset. -/
theorem wf_cons_iff (a : Nat) (v : Byte) (m : Memory) :
    wf ((a, v) :: m) = true ↔ (∀ c ∈ m, a < c.1) ∧ wf m = true := by
  induction m generalizing a v with
  | nil => simp [wf, unlisted]
  | cons c m ih =>
    obtain ⟨b, u⟩ := c
    have h1 : wf ((a, v) :: (b, u) :: m) = (decide (a < b) && wf ((b, u) :: m)) := by
      simp [wf, unlisted]
    rw [h1]
    simp only [Bool.and_eq_true, decide_eq_true_eq, List.mem_cons, forall_eq_or_imp]
    constructor
    · rintro ⟨hab, hw⟩
      exact ⟨⟨hab, fun c hc => lt_trans hab ((ih b u).1 hw |>.1 c hc)⟩, hw⟩
    · rintro ⟨⟨hab, -⟩, hw⟩
      exact ⟨hab, hw⟩

theorem mem_writeByte {m : Memory} {a : Nat} {v : Byte} {c : Host.Cell} (h : c ∈ m.writeByte a v) :
    c = (a, v) ∨ c ∈ m := by
  induction m with
  | nil => simpa [writeByte] using h
  | cons d m ih =>
    obtain ⟨b, u⟩ := d
    unfold writeByte at h
    split at h
    · simpa using h
    · split at h
      · simp only [List.mem_cons] at h ⊢
        tauto
      · simp only [List.mem_cons] at h ⊢
        rcases h with h | h
        · tauto
        · rcases ih h with h | h <;> tauto

theorem wf_writeByte {m : Memory} (a : Nat) (v : Byte) (h : wf m = true) : wf (m.writeByte a v) = true := by
  induction m with
  | nil => simp [writeByte, wf, unlisted]
  | cons c m ih =>
    obtain ⟨b, u⟩ := c
    have hw := (wf_cons_iff b u m).1 h
    unfold writeByte
    split
    · rename_i hab
      refine (wf_cons_iff _ _ _).2 ⟨fun c hc => ?_, h⟩
      rcases List.mem_cons.1 hc with rfl | hc
      · exact hab
      · exact lt_trans hab (hw.1 c hc)
    · split
      · rename_i e
        subst e
        exact (wf_cons_iff _ _ _).2 hw
      · rename_i h1 h2
        refine (wf_cons_iff _ _ _).2 ⟨fun c hc => ?_, ih hw.2⟩
        rcases mem_writeByte hc with rfl | hc
        · exact lt_of_le_of_ne (not_lt.1 h1) (fun e => h2 e.symm)
        · exact hw.1 c hc

theorem wf_writeWord {m : Memory} (a : Nat) (v : Word) (h : wf m = true) : wf (m.writeWord a v) = true :=
  wf_writeByte _ _ (wf_writeByte _ _ (wf_writeByte _ _ (wf_writeByte _ _ h)))

theorem mem_writeWord {m : Memory} {a : Nat} {v : Word} {c : Host.Cell} (h : c ∈ m.writeWord a v) :
    (a ≤ c.1 ∧ c.1 < a + 4) ∨ c ∈ m := by
  unfold writeWord at h
  rcases mem_writeByte h with rfl | h
  · left; simp
  rcases mem_writeByte h with rfl | h
  · left; simp
  rcases mem_writeByte h with rfl | h
  · left; simp
  rcases mem_writeByte h with rfl | h
  · left; simp
  · exact .inr h

/-- A listed byte is read. -/
theorem readByte_isSome_of_mem {m : Memory} {c : Host.Cell} (h : c ∈ m) : (m.readByte c.1).isSome = true := by
  induction m with
  | nil => simp at h
  | cons d m ih =>
    obtain ⟨b, u⟩ := d
    simp only [readByte]
    split
    · rfl
    · rename_i hb
      rcases List.mem_cons.1 h with rfl | h
      · simp at hb
      · exact ih h

theorem readWord_writeWord_same (m : Memory) (a : Nat) (v : Word) : (m.writeWord a v).readWord a = some v := by
  have h : (v.extractLsb' 24 8 ++ v.extractLsb' 16 8 ++ v.extractLsb' 8 8 ++ v.extractLsb' 0 8 : BitVec 32) = v := by
    ext i hi
    simp only [BitVec.getElem_append, BitVec.getElem_extractLsb']
    repeat' split
    all_goals (rw [BitVec.getLsbD_eq_getElem (by omega)]; congr 1; omega)
  simp only [readWord, writeWord, readByte_writeByte]
  simp [h]

/-- An element write reaches no byte outside its four. -/
theorem readByte_writeWord_other (m : Memory) {a x : Nat} (v : Word) (h : x < a ∨ a + 4 ≤ x) :
    (m.writeWord a v).readByte x = m.readByte x := by
  have one : ∀ (m : Memory) (k : Nat) (b : Byte), k < 4 → (m.writeByte (a + k) b).readByte x = m.readByte x :=
    fun m k b hk => readByte_writeByte_other m b (by omega)
  unfold writeWord
  exact (one _ 3 _ (by decide)).trans <| (one _ 2 _ (by decide)).trans <| (one _ 1 _ (by decide)).trans <|
    one _ 0 _ (by decide)

theorem readWord_writeWord_other (m : Memory) {a b : Nat} (v : Word) (h : b + 4 ≤ a ∨ a + 4 ≤ b) :
    (m.writeWord a v).readWord b = m.readWord b := by
  have key : ∀ k, k < 4 → (m.writeWord a v).readByte (b + k) = m.readByte (b + k) :=
    fun k hk => readByte_writeWord_other m v (by omega)
  have key0 := key 0 (by decide)
  rw [Nat.add_zero] at key0
  simp only [readWord, key0, key 1 (by decide), key 2 (by decide), key 3 (by decide)]

/-- An element read in full stays readable after any element write. -/
theorem readWord_isSome_writeWord {m : Memory} {a b : Nat} (v : Word) (h : (m.readWord b).isSome = true) :
    ((m.writeWord a v).readWord b).isSome = true := by
  have key : ∀ x, (m.readByte x).isSome = true → ((m.writeWord a v).readByte x).isSome = true := by
    intro x hx
    simp only [writeWord, readByte_writeByte]
    repeat' split
    all_goals first | rfl | exact hx
  have sp : ∀ (m : Memory), (m.readWord b).isSome = true ↔ ((m.readByte b).isSome = true ∧
      (m.readByte (b + 1)).isSome = true ∧ (m.readByte (b + 2)).isSome = true ∧ (m.readByte (b + 3)).isSome = true) := by
    intro m
    unfold readWord
    cases m.readByte b <;> cases m.readByte (b + 1) <;> cases m.readByte (b + 2) <;> cases m.readByte (b + 3) <;> simp
  rw [sp] at h ⊢
  exact ⟨key _ h.1, key _ h.2.1, key _ h.2.2.1, key _ h.2.2.2⟩

end Memory

/-! ### Elements -/

@[simp] theorem capRead_capWrite_same (s : State) (i : Nat) (d : Duration) : capRead (capWrite s i d) i = some d :=
  Memory.readWord_writeWord_same _ _ _

theorem capRead_capWrite_other (s : State) {i j : Nat} (d : Duration) (h : j ≠ i) :
    capRead (capWrite s i d) j = capRead s j :=
  Memory.readWord_writeWord_other _ _ (by simp only [captureOffset]; omega)

/-- `capRead` looks at the capture RAM alone. -/
theorem capRead_congr {s t : State} (h : t.capture = s.capture) (i : Nat) : capRead t i = capRead s i := by
  simp [capRead, h]

end Sys2Proof.Machine
end

