-- ==== Sys2Proof/Laws/State.lean ====
section
/-! SUPPORT. One lemma per field per named update of State, true by rfl, so that no proof unfolds a record update. -/

namespace Sys2Proof.Machine

variable (s : State)

/-! ### setStatus -/

@[simp] theorem State.setStatus_cfg (st : Status) : (s.setStatus st).cfg = s.cfg := rfl
@[simp] theorem State.setStatus_lock (st : Status) : (s.setStatus st).lock = s.lock := rfl
@[simp] theorem State.setStatus_status (st : Status) : (s.setStatus st).status = st := rfl
@[simp] theorem State.setStatus_tolPct (st : Status) : (s.setStatus st).tolPct = s.tolPct := rfl
@[simp] theorem State.setStatus_marginUs (st : Status) : (s.setStatus st).marginUs = s.marginUs := rfl
@[simp] theorem State.setStatus_opLo (st : Status) : (s.setStatus st).opLo = s.opLo := rfl
@[simp] theorem State.setStatus_opHi (st : Status) : (s.setStatus st).opHi = s.opHi := rfl
@[simp] theorem State.setStatus_opExp (st : Status) : (s.setStatus st).opExp = s.opExp := rfl
@[simp] theorem State.setStatus_cursor (st : Status) : (s.setStatus st).cursor = s.cursor := rfl
@[simp] theorem State.setStatus_capLen (st : Status) : (s.setStatus st).capLen = s.capLen := rfl
@[simp] theorem State.setStatus_res (st : Status) : (s.setStatus st).res = s.res := rfl
@[simp] theorem State.setStatus_profiles (st : Status) : (s.setStatus st).profiles = s.profiles := rfl
@[simp] theorem State.setStatus_capture (st : Status) : (s.setStatus st).capture = s.capture := rfl
@[simp] theorem State.setStatus_seq (st : Status) : (s.setStatus st).seq = s.seq := rfl
@[simp] theorem State.setStatus_inReset (st : Status) : (s.setStatus st).inReset = s.inReset := rfl
@[simp] theorem State.setStatus_env (st : Status) : (s.setStatus st).env = s.env := rfl

/-! ### setSeq -/

@[simp] theorem State.setSeq_cfg (q : Sequencer) : (s.setSeq q).cfg = s.cfg := rfl
@[simp] theorem State.setSeq_lock (q : Sequencer) : (s.setSeq q).lock = s.lock := rfl
@[simp] theorem State.setSeq_status (q : Sequencer) : (s.setSeq q).status = s.status := rfl
@[simp] theorem State.setSeq_tolPct (q : Sequencer) : (s.setSeq q).tolPct = s.tolPct := rfl
@[simp] theorem State.setSeq_marginUs (q : Sequencer) : (s.setSeq q).marginUs = s.marginUs := rfl
@[simp] theorem State.setSeq_opLo (q : Sequencer) : (s.setSeq q).opLo = s.opLo := rfl
@[simp] theorem State.setSeq_opHi (q : Sequencer) : (s.setSeq q).opHi = s.opHi := rfl
@[simp] theorem State.setSeq_opExp (q : Sequencer) : (s.setSeq q).opExp = s.opExp := rfl
@[simp] theorem State.setSeq_cursor (q : Sequencer) : (s.setSeq q).cursor = s.cursor := rfl
@[simp] theorem State.setSeq_capLen (q : Sequencer) : (s.setSeq q).capLen = s.capLen := rfl
@[simp] theorem State.setSeq_res (q : Sequencer) : (s.setSeq q).res = s.res := rfl
@[simp] theorem State.setSeq_profiles (q : Sequencer) : (s.setSeq q).profiles = s.profiles := rfl
@[simp] theorem State.setSeq_capture (q : Sequencer) : (s.setSeq q).capture = s.capture := rfl
@[simp] theorem State.setSeq_seq (q : Sequencer) : (s.setSeq q).seq = q := rfl
@[simp] theorem State.setSeq_inReset (q : Sequencer) : (s.setSeq q).inReset = s.inReset := rfl
@[simp] theorem State.setSeq_env (q : Sequencer) : (s.setSeq q).env = s.env := rfl

/-! ### setRes -/

@[simp] theorem State.setRes_cfg (r : Results) : (s.setRes r).cfg = s.cfg := rfl
@[simp] theorem State.setRes_lock (r : Results) : (s.setRes r).lock = s.lock := rfl
@[simp] theorem State.setRes_status (r : Results) : (s.setRes r).status = s.status := rfl
@[simp] theorem State.setRes_tolPct (r : Results) : (s.setRes r).tolPct = s.tolPct := rfl
@[simp] theorem State.setRes_marginUs (r : Results) : (s.setRes r).marginUs = s.marginUs := rfl
@[simp] theorem State.setRes_opLo (r : Results) : (s.setRes r).opLo = s.opLo := rfl
@[simp] theorem State.setRes_opHi (r : Results) : (s.setRes r).opHi = s.opHi := rfl
@[simp] theorem State.setRes_opExp (r : Results) : (s.setRes r).opExp = s.opExp := rfl
@[simp] theorem State.setRes_cursor (r : Results) : (s.setRes r).cursor = s.cursor := rfl
@[simp] theorem State.setRes_capLen (r : Results) : (s.setRes r).capLen = s.capLen := rfl
@[simp] theorem State.setRes_res (r : Results) : (s.setRes r).res = r := rfl
@[simp] theorem State.setRes_profiles (r : Results) : (s.setRes r).profiles = s.profiles := rfl
@[simp] theorem State.setRes_capture (r : Results) : (s.setRes r).capture = s.capture := rfl
@[simp] theorem State.setRes_seq (r : Results) : (s.setRes r).seq = s.seq := rfl
@[simp] theorem State.setRes_inReset (r : Results) : (s.setRes r).inReset = s.inReset := rfl
@[simp] theorem State.setRes_env (r : Results) : (s.setRes r).env = s.env := rfl

/-! ### setCursor -/

@[simp] theorem State.setCursor_cfg (v : Word) : (s.setCursor v).cfg = s.cfg := rfl
@[simp] theorem State.setCursor_lock (v : Word) : (s.setCursor v).lock = s.lock := rfl
@[simp] theorem State.setCursor_status (v : Word) : (s.setCursor v).status = s.status := rfl
@[simp] theorem State.setCursor_tolPct (v : Word) : (s.setCursor v).tolPct = s.tolPct := rfl
@[simp] theorem State.setCursor_marginUs (v : Word) : (s.setCursor v).marginUs = s.marginUs := rfl
@[simp] theorem State.setCursor_opLo (v : Word) : (s.setCursor v).opLo = s.opLo := rfl
@[simp] theorem State.setCursor_opHi (v : Word) : (s.setCursor v).opHi = s.opHi := rfl
@[simp] theorem State.setCursor_opExp (v : Word) : (s.setCursor v).opExp = s.opExp := rfl
@[simp] theorem State.setCursor_cursor (v : Word) : (s.setCursor v).cursor = v := rfl
@[simp] theorem State.setCursor_capLen (v : Word) : (s.setCursor v).capLen = s.capLen := rfl
@[simp] theorem State.setCursor_res (v : Word) : (s.setCursor v).res = s.res := rfl
@[simp] theorem State.setCursor_profiles (v : Word) : (s.setCursor v).profiles = s.profiles := rfl
@[simp] theorem State.setCursor_capture (v : Word) : (s.setCursor v).capture = s.capture := rfl
@[simp] theorem State.setCursor_seq (v : Word) : (s.setCursor v).seq = s.seq := rfl
@[simp] theorem State.setCursor_inReset (v : Word) : (s.setCursor v).inReset = s.inReset := rfl
@[simp] theorem State.setCursor_env (v : Word) : (s.setCursor v).env = s.env := rfl

/-! ### setEnv -/

@[simp] theorem State.setEnv_cfg (e : Environment) : (s.setEnv e).cfg = s.cfg := rfl
@[simp] theorem State.setEnv_lock (e : Environment) : (s.setEnv e).lock = s.lock := rfl
@[simp] theorem State.setEnv_status (e : Environment) : (s.setEnv e).status = s.status := rfl
@[simp] theorem State.setEnv_tolPct (e : Environment) : (s.setEnv e).tolPct = s.tolPct := rfl
@[simp] theorem State.setEnv_marginUs (e : Environment) : (s.setEnv e).marginUs = s.marginUs := rfl
@[simp] theorem State.setEnv_opLo (e : Environment) : (s.setEnv e).opLo = s.opLo := rfl
@[simp] theorem State.setEnv_opHi (e : Environment) : (s.setEnv e).opHi = s.opHi := rfl
@[simp] theorem State.setEnv_opExp (e : Environment) : (s.setEnv e).opExp = s.opExp := rfl
@[simp] theorem State.setEnv_cursor (e : Environment) : (s.setEnv e).cursor = s.cursor := rfl
@[simp] theorem State.setEnv_capLen (e : Environment) : (s.setEnv e).capLen = s.capLen := rfl
@[simp] theorem State.setEnv_res (e : Environment) : (s.setEnv e).res = s.res := rfl
@[simp] theorem State.setEnv_profiles (e : Environment) : (s.setEnv e).profiles = s.profiles := rfl
@[simp] theorem State.setEnv_capture (e : Environment) : (s.setEnv e).capture = s.capture := rfl
@[simp] theorem State.setEnv_seq (e : Environment) : (s.setEnv e).seq = s.seq := rfl
@[simp] theorem State.setEnv_inReset (e : Environment) : (s.setEnv e).inReset = s.inReset := rfl
@[simp] theorem State.setEnv_env (e : Environment) : (s.setEnv e).env = e := rfl

/-! ### The update of a schedule and of a profile bank -/

@[simp] theorem State.setSchedule_cfg (es : List Event) : (s.setSchedule es).cfg = s.cfg := rfl
@[simp] theorem State.setSchedule_lock (es : List Event) : (s.setSchedule es).lock = s.lock := rfl
@[simp] theorem State.setSchedule_status (es : List Event) : (s.setSchedule es).status = s.status := rfl
@[simp] theorem State.setSchedule_tolPct (es : List Event) : (s.setSchedule es).tolPct = s.tolPct := rfl
@[simp] theorem State.setSchedule_marginUs (es : List Event) : (s.setSchedule es).marginUs = s.marginUs := rfl
@[simp] theorem State.setSchedule_opLo (es : List Event) : (s.setSchedule es).opLo = s.opLo := rfl
@[simp] theorem State.setSchedule_opHi (es : List Event) : (s.setSchedule es).opHi = s.opHi := rfl
@[simp] theorem State.setSchedule_opExp (es : List Event) : (s.setSchedule es).opExp = s.opExp := rfl
@[simp] theorem State.setSchedule_cursor (es : List Event) : (s.setSchedule es).cursor = s.cursor := rfl
@[simp] theorem State.setSchedule_capLen (es : List Event) : (s.setSchedule es).capLen = s.capLen := rfl
@[simp] theorem State.setSchedule_res (es : List Event) : (s.setSchedule es).res = s.res := rfl
@[simp] theorem State.setSchedule_profiles (es : List Event) : (s.setSchedule es).profiles = s.profiles := rfl
@[simp] theorem State.setSchedule_capture (es : List Event) : (s.setSchedule es).capture = s.capture := rfl
@[simp] theorem State.setSchedule_seq (es : List Event) : (s.setSchedule es).seq = s.seq := rfl
@[simp] theorem State.setSchedule_inReset (es : List Event) : (s.setSchedule es).inReset = s.inReset := rfl
@[simp] theorem State.setSchedule_env (es : List Event) : (s.setSchedule es).env = { s.env with schedule := es } := rfl
@[simp] theorem State.setProfile_cfg (p : BitVec 2) (f : Profile) : (s.setProfile p f).cfg = s.cfg := rfl
@[simp] theorem State.setProfile_lock (p : BitVec 2) (f : Profile) : (s.setProfile p f).lock = s.lock := rfl
@[simp] theorem State.setProfile_status (p : BitVec 2) (f : Profile) : (s.setProfile p f).status = s.status := rfl
@[simp] theorem State.setProfile_tolPct (p : BitVec 2) (f : Profile) : (s.setProfile p f).tolPct = s.tolPct := rfl
@[simp] theorem State.setProfile_marginUs (p : BitVec 2) (f : Profile) : (s.setProfile p f).marginUs = s.marginUs := rfl
@[simp] theorem State.setProfile_opLo (p : BitVec 2) (f : Profile) : (s.setProfile p f).opLo = s.opLo := rfl
@[simp] theorem State.setProfile_opHi (p : BitVec 2) (f : Profile) : (s.setProfile p f).opHi = s.opHi := rfl
@[simp] theorem State.setProfile_opExp (p : BitVec 2) (f : Profile) : (s.setProfile p f).opExp = s.opExp := rfl
@[simp] theorem State.setProfile_cursor (p : BitVec 2) (f : Profile) : (s.setProfile p f).cursor = s.cursor := rfl
@[simp] theorem State.setProfile_capLen (p : BitVec 2) (f : Profile) : (s.setProfile p f).capLen = s.capLen := rfl
@[simp] theorem State.setProfile_res (p : BitVec 2) (f : Profile) : (s.setProfile p f).res = s.res := rfl
@[simp] theorem State.setProfile_profiles (p : BitVec 2) (f : Profile) : (s.setProfile p f).profiles = s.profiles.set p.toNat f p.isLt := rfl
@[simp] theorem State.setProfile_capture (p : BitVec 2) (f : Profile) : (s.setProfile p f).capture = s.capture := rfl
@[simp] theorem State.setProfile_seq (p : BitVec 2) (f : Profile) : (s.setProfile p f).seq = s.seq := rfl
@[simp] theorem State.setProfile_inReset (p : BitVec 2) (f : Profile) : (s.setProfile p f).inReset = s.inReset := rfl
@[simp] theorem State.setProfile_env (p : BitVec 2) (f : Profile) : (s.setProfile p f).env = s.env := rfl

/-! ### Reading a profile bank -/

@[simp] theorem State.profile_setStatus (st : Status) (p : BitVec 2) : (s.setStatus st).profile p = s.profile p := rfl
@[simp] theorem State.profile_setSeq (q : Sequencer) (p : BitVec 2) : (s.setSeq q).profile p = s.profile p := rfl
@[simp] theorem State.profile_setRes (r : Results) (p : BitVec 2) : (s.setRes r).profile p = s.profile p := rfl
@[simp] theorem State.profile_setCursor (v : Word) (p : BitVec 2) : (s.setCursor v).profile p = s.profile p := rfl
@[simp] theorem State.profile_setEnv (e : Environment) (p : BitVec 2) : (s.setEnv e).profile p = s.profile p := rfl

@[simp] theorem State.profile_setProfile_self (p : BitVec 2) (f : Profile) : (s.setProfile p f).profile p = f := by
  simp [State.profile, State.setProfile]

theorem State.profile_setProfile_other {p q : BitVec 2} (h : q ≠ p) (f : Profile) :
    (s.setProfile p f).profile q = s.profile q := by
  have : p.toNat ≠ q.toNat := fun e => h (BitVec.eq_of_toNat_eq e.symm)
  simp [State.profile, State.setProfile, this]

/-! ### The payload operand -/

@[simp] theorem State.op_setStatus (st : Status) : (s.setStatus st).op = s.op := rfl
@[simp] theorem State.op_setSeq (q : Sequencer) : (s.setSeq q).op = s.op := rfl
@[simp] theorem State.op_setEnv (e : Environment) : (s.setEnv e).op = s.op := rfl

end Sys2Proof.Machine
end

