-- ==== Sys2Proof/Laws/Exec.lean ====
section
/-! SUPPORT. What a command can do: one spec lemma per shared operation, and one inversion lemma for a step in RUN, which
later proofs cite instead of unfolding the meanings. -/

namespace Sys2Proof.Machine

/-! ### `command` and `exec` by phase -/

theorem command_idle {i : Instr} {body : State → Result} {s : State} (h : s.seq.phase = .idle) :
    command i body s = .next (present i s) := by simp [command, h]

theorem command_pending {i : Instr} {body : State → Result} {s : State} {t : Token} (h : s.seq.phase = .run)
    (hp : s.seq.pending = some t) : command i body s = .next s := by simp [command, h, hp]

theorem command_run {i : Instr} {body : State → Result} {s : State} (h : s.seq.phase = .run)
    (hp : s.seq.pending = none) : command i body s = body s := by simp [command, h, hp]

/-- While IDLE every command's meaning is the step of the `CMD` write (30_encoding.md R80). -/
theorem exec_idle (i : Instr) {s : State} (h : s.seq.phase = .idle) : exec i s = .next (present i s) := by
  cases i <;>
    simp only [exec, execMatchWithin, execMatchAtLeast, execRev, execBenc, execBdec, execSend, execDecode, execPenc,
      execPchk, command_idle h]

/-- With a token pending no command has a step (60_exceptions.md R205). -/
theorem exec_pending (i : Instr) {s : State} {t : Token} (h : s.seq.phase = .run) (hp : s.seq.pending = some t) :
    exec i s = .next s := by
  cases i <;>
    simp only [exec, execMatchWithin, execMatchAtLeast, execRev, execBenc, execBdec, execSend, execDecode, execPenc,
      execPchk, command_pending h hp]

section Running

variable {s : State} (h : s.seq.phase = .run) (hp : s.seq.pending = none)
include h hp

theorem exec_matchWithin_run :
    exec .matchWithin s = .next (completeMatch (durMatches s s.opLo s.opExp) s) := by
  simp only [exec, execMatchWithin, command_run h hp]

theorem exec_matchAtLeast_run :
    exec .matchAtLeast s = .next (completeMatch (durMatchesAtLeast s s.opLo s.opExp) s) := by
  simp only [exec, execMatchAtLeast, command_run h hp]

theorem exec_rev_run (n : BitVec 7) :
    exec (.rev n) s = .next (complete true (Results.ofPayload (rev s.op n.toNat)) s) := by
  simp only [exec, execRev, command_run h hp]

theorem exec_benc_run (p : BitVec 2) (n : BitVec 7) : exec (.benc p n) s = .next (bencStep p n s) := by
  simp only [exec, execBenc, command_run h hp]

theorem exec_bdec_run (p : BitVec 2) (n : BitVec 7) : exec (.bdec p n) s = bdecStep p n s := by
  simp only [exec, execBdec, command_run h hp]

theorem exec_send_run (p : BitVec 2) (n : BitVec 7) (r : BitVec 12) :
    exec (.send p n r) s = .next (sendStep p n r s) := by
  simp only [exec, execSend, command_run h hp]

theorem exec_decode_run (p : BitVec 2) (b : Bool) (n : BitVec 7) :
    exec (.decode p b n) s = decodeStep p b n s := by
  simp only [exec, execDecode, command_run h hp]

theorem exec_penc_run (p : BitVec 2) : exec (.penc p) s = .next (pencStep p s) := by
  simp only [exec, execPenc, command_run h hp]

theorem exec_pchk_run (p : BitVec 2) (b : Bool) (n : BitVec 7) :
    exec (.pchk p b n) s = .next (pchkStep p b n s) := by
  simp only [exec, execPchk, command_run h hp]

end Running

/-! ### The shared operations as record updates -/

theorem complete_eq (ok : Bool) (r : Results) (s : State) :
    complete ok r s = { s with
      res := r
      status := { s.status with done := true, ok := ok }
      seq := { s.seq with phase := .idle } } := rfl

theorem refuse_eq (e : CmdError) (s : State) :
    refuse e s = { s with status := ⟨true, false, true, errCode e, s.status.wign⟩ } := rfl

theorem accept_eq (i : Instr) (s : State) :
    accept i s = { s with
      status := ⟨false, false, false, 0, s.status.wign⟩
      seq := ⟨.run, encode i, 0, 0, s.seq.pending, 0, 0, s.seq.elapsed, .start⟩ } := rfl

/-! ### What a walk does -/

/-- A walk's read goes on with the element, or stops at one that holds no value. -/
theorem Walk.read_eq {α : Type} (s : State) (i : Nat) (k : Duration → Walk α) :
    Walk.read s i k = match capRead s i with
      | none => .unwritten i
      | some d => k d := rfl

theorem Walk.read_some {α : Type} {s : State} {i : Nat} {d : Duration} (h : capRead s i = some d) (k : Duration → Walk α) :
    Walk.read s i k = k d := by simp [Walk.read, h]

/-! ### The inversion lemma -/

/-- What a command can do to the state while it runs. -/
inductive RunStep (i : Instr) (s : State) : State → Prop
  /-- A completion: results, DONE, OK, BUSY cleared; BDEC's also sets CURSOR, `cur` and `acc`. -/
  | complete (ok : Bool) (r : Results) (hb : i.wf = true → r.bits.toNat ≤ 64) :
      RunStep i s (complete ok r s)
  | completeBdec (p : BitVec 2) (n : BitVec 7) (v : Payload) (c : Nat) (hi : i = .bdec p n)
      (hw : bitDecode s (s.profile p) n.toNat s.cursor.toNat 0 = .matched (v, c)) :
      RunStep i s (Machine.complete true { Results.ofPayload v with bits := n }
        ((walkedTo v c s).setCursor (BitVec.ofNat 32 c)))
  /-- BENC hands over a token. -/
  | benc (p : BitVec 2) (n : BitVec 7) (t : Token) (hi : i = .benc p n)
      (ht : (bodyTokens (s.profile p) s.op n.toNat)[s.seq.step]? = some t) : RunStep i s (emit t s)
  /-- SEND performs an action. -/
  | send (p : BitVec 2) (n : BitVec 7) (r : BitVec 12) (a : Action) (hi : i = .send p n r)
      (ha : (sendActions (s.profile p) s.op n.toNat s.seq.frame)[s.seq.step]? = some a) :
      RunStep i s (perform (s.profile p) s a)
  /-- SEND goes on to its next frame. -/
  | nextFrame (p : BitVec 2) (n : BitVec 7) (r : BitVec 12) (hi : i = .send p n r) (hf : s.seq.frame < r.toNat) :
      RunStep i s (nextFrame s)
  /-- DECODE enters a parser state. -/
  | parse (p : BitVec 2) (b : Bool) (n : BitVec 7) (st : ParseState) (c : Nat) (v : Payload) (hi : i = .decode p b n)
      (hh : st = .headerMatched → c = 2 ∧ 2 * n.toNat + 3 ≤ s.capLen.toNat)
      (hb : st = .bodyMatched →
        bitDecode s (s.profile p) n.toNat s.seq.cur 0 = .matched (v, c) ∧ s.seq.parse = .headerMatched) :
      RunStep i s (parsedTo st c v s)
  /-- PENC without a codec has no step. -/
  | stay (p : BitVec 2) (hi : i = .penc p) (hc : codecPayload (s.profile p).codec s.opAddress s.opCommand = none) :
      RunStep i s s

theorem nbitsLegal_le {n : BitVec 7} (h : nbitsLegal n = true) : n.toNat ≤ 64 := by
  simp only [nbitsLegal, Bool.and_eq_true, decide_eq_true_eq] at h
  exact h.2

theorem Results.ofPayload_bits (v : Payload) : (Results.ofPayload v).bits = 0 := rfl

theorem decodedResults_bits (f : Profile) (n : BitVec 7) (v : Payload) : (decodedResults f n v).bits = n := rfl

/-- DECODE's transitions, as walks. -/
theorem parseStart_matched {f : Profile} {b : Bool} {n : BitVec 7} {s t : State} (h : parseStart f b n s = .matched t) :
    t = parsedTo .headerMatched 2 s.seq.acc s ∧ 2 * n.toNat + 3 ≤ s.capLen.toNat := by
  simp only [parseStart, Walk.read_eq] at h
  repeat' split at h
  all_goals first
    | exact ⟨(Walk.matched.inj h).symm, by simp only [leastFrame, startOffset, headerSlots, footerSlots] at *; omega⟩
    | cases h

theorem parseBody_matched {f : Profile} {n : BitVec 7} {s t : State} (h : parseBody f n s = .matched t) :
    ∃ v c, bitDecode s f n.toNat s.seq.cur 0 = .matched (v, c) ∧ t = parsedTo .bodyMatched c v s := by
  unfold parseBody at h
  split at h
  · rename_i v c e
    exact ⟨v, c, e, (Walk.matched.inj h).symm⟩
  · simp at h
  · simp at h

theorem parseFooter_matched {f : Profile} {s t : State} (h : parseFooter f s = .matched t) :
    t = parsedTo .footerMatched (s.seq.cur + 1) s.seq.acc s := by
  simp only [parseFooter, Walk.read_eq] at h
  repeat' split at h
  all_goals first
    | exact (Walk.matched.inj h).symm
    | cases h

theorem parseCompliance_matched {f : Profile} {b : Bool} {s t : State} (h : parseCompliance f b s = .matched t) :
    t = parsedTo (if b then .compliant else .nonStrictAccepted) s.seq.cur s.seq.acc s := by
  unfold parseCompliance at h
  repeat' split at h
  all_goals first
    | (simp at h; done)
    | (have := (Walk.matched.inj h).symm; simp_all)

/-- The transition that ends a walk: the state it matched to, or Failure. -/
theorem parseResult_next {w : Walk State} {s t : State} (h : parseResult w s = .next t) :
    w = .matched t ∨ t = parsedTo .failure s.seq.cur s.seq.acc s := by
  unfold parseResult at h
  split at h
  · rename_i u
    exact .inl (by simpa using h)
  · exact .inr (by simpa using h.symm)
  · simp at h

/-- THE INVERSION LEMMA: everything one sequencer step of a running command can do. -/
theorem exec_run_cases {i : Instr} {s t : State} (h : s.seq.phase = .run) (hp : s.seq.pending = none)
    (he : exec i s = .next t) : RunStep i s t := by
  cases i with
  | matchWithin =>
    rw [exec_matchWithin_run h hp] at he
    cases he
    exact .complete _ _ (fun _ => by simp [Results.ofPayload_bits])
  | matchAtLeast =>
    rw [exec_matchAtLeast_run h hp] at he
    cases he
    exact .complete _ _ (fun _ => by simp [Results.ofPayload_bits])
  | rev n =>
    rw [exec_rev_run h hp] at he
    cases he
    exact .complete _ _ (fun _ => by simp [Results.ofPayload_bits])
  | benc p n =>
    rw [exec_benc_run h hp] at he
    cases he
    unfold bencStep
    split
    · exact .benc p n _ rfl ‹_›
    · exact .complete _ _ (fun _ => by simp [Results.zero])
  | bdec p n =>
    rw [exec_bdec_run h hp] at he
    unfold bdecStep at he
    split at he
    · cases he
      exact .complete _ _ (fun _ => by simp [Results.zero])
    · split at he
      · cases he
      · cases he
        exact .complete _ _ (fun _ => by simp [Results.zero])
      · rename_i v c e
        cases he
        exact .completeBdec p n v c rfl e
  | send p n r =>
    rw [exec_send_run h hp] at he
    cases he
    unfold sendStep
    split
    · exact .send p n r _ rfl ‹_›
    · split
      · exact .nextFrame p n r rfl ‹_›
      · exact .complete _ _ (fun _ => by simp [Results.zero])
  | decode p b n =>
    rw [exec_decode_run h hp] at he
    unfold decodeStep at he
    split at he
    · rcases parseResult_next he with hm | rfl
      · obtain ⟨rfl, hl⟩ := parseStart_matched hm
        exact .parse p b n _ _ _ rfl (fun _ => ⟨rfl, hl⟩) (by simp)
      · exact .parse p b n _ _ _ rfl (by simp) (by simp)
    · rcases parseResult_next he with hm | rfl
      · obtain ⟨v, c, e, rfl⟩ := parseBody_matched hm
        exact .parse p b n _ _ _ rfl (by simp) (fun _ => ⟨e, ‹_›⟩)
      · exact .parse p b n _ _ _ rfl (by simp) (by simp)
    · rcases parseResult_next he with hm | rfl
      · rw [parseFooter_matched hm]
        exact .parse p b n _ _ _ rfl (by simp) (by simp)
      · exact .parse p b n _ _ _ rfl (by simp) (by simp)
    · rcases parseResult_next he with hm | rfl
      · rw [parseCompliance_matched hm]
        exact .parse p b n _ _ _ rfl (by split <;> simp) (by split <;> simp)
      · exact .parse p b n _ _ _ rfl (by simp) (by simp)
    · cases he
      exact .parse p b n _ _ _ rfl (by simp) (by simp)
    · cases he
      exact .parse p b n _ _ _ rfl (by simp) (by simp)
    · cases he
      exact .complete _ _ (fun hw => by rw [decodedResults_bits]; exact nbitsLegal_le hw)
    · cases he
      exact .complete _ _ (fun _ => by simp [Results.zero])
  | penc p =>
    rw [exec_penc_run h hp] at he
    cases he
    unfold pencStep
    split
    · exact .complete _ _ (fun _ => by simp [Results.ofPayload_bits])
    · exact .stay p rfl ‹_›
  | pchk p b n =>
    rw [exec_pchk_run h hp] at he
    cases he
    unfold pchkStep
    split
    · exact .complete _ _ (fun hw => by rw [decodedResults_bits]; exact nbitsLegal_le hw)
    · exact .complete _ _ (fun _ => by simp [Results.zero])

theorem phase_cases (s : State) : s.seq.phase = .idle ∨ s.seq.phase = .run := by
  cases s.seq.phase <;> simp

/-- Every next state of a command, by phase. -/
theorem exec_cases {i : Instr} {s t : State} (h : exec i s = .next t) :
    (s.seq.phase = .idle ∧ t = present i s) ∨ (s.seq.phase = .run ∧ (∃ k, s.seq.pending = some k) ∧ t = s) ∨
      (s.seq.phase = .run ∧ s.seq.pending = none ∧ RunStep i s t) := by
  rcases phase_cases s with hp | hp
  · rw [exec_idle i hp] at h
    cases h
    exact .inl ⟨hp, rfl⟩
  · cases hq : s.seq.pending with
    | some k =>
      rw [exec_pending i hp hq] at h
      cases h
      exact .inr (.inl ⟨hp, ⟨k, rfl⟩, rfl⟩)
    | none => exact .inr (.inr ⟨hp, rfl, exec_run_cases hp hq h⟩)

end Sys2Proof.Machine
end

