-- ==== Sys2Proof/Laws/Bus.lean ====
section
/-! SUPPORT. The register map by register, and what a register write leaves alone. -/

namespace Sys2Proof.Machine

/-! ### The register map (10_state.md R53) -/

theorem profRegAt_offset (r : ProfReg) : profRegAt r.offset = some r := by
  cases r <;> rfl

theorem ProfReg.offset_le (r : ProfReg) : r.offset ≤ 0x28 := by
  cases r <;> decide

/-- Above the global registers the map has banks, the capture RAM and unmapped offsets. -/
theorem regAt_high (c : Config) {off : Nat} (h : 0x40 ≤ off) :
    regAt c off =
      if 0x100 ≤ off ∧ off < 0x200 then bankRegAt off
      else if captureBase ≤ off ∧ off < captureBase + 4 * c.capDepth then .capture ((off - captureBase) / 4)
      else .unmapped := by
  unfold regAt
  repeat rw [if_neg (by omega)]

theorem bankRegAt_profOffset (p : BitVec 2) (r : ProfReg) : bankRegAt (profOffset p r) = .profile p r := by
  have h1 := r.offset_le
  have h2 := p.isLt
  unfold bankRegAt profOffset
  rw [show (0x100 + 0x40 * p.toNat + r.offset) % 0x40 = r.offset by omega, profRegAt_offset]
  simp only
  rw [show (0x100 + 0x40 * p.toNat + r.offset - 0x100) / 0x40 = p.toNat by omega]
  simp

/-- A profile register stands at its offset (10_state.md R30). -/
theorem regAt_profile (c : Config) (p : BitVec 2) (r : ProfReg) : regAt c (profOffset p r) = .profile p r := by
  have h1 := r.offset_le
  have h2 := p.isLt
  rw [regAt_high c (by unfold profOffset; omega), if_pos (by unfold profOffset; omega), bankRegAt_profOffset]

/-- A capture element stands at its offset (20_memory.md R61). -/
theorem regAt_capture (c : Config) {i : Nat} (h : i < c.capDepth) : regAt c (captureOffset i) = .capture i := by
  rw [regAt_high c (by unfold captureOffset captureBase; omega), if_neg (by unfold captureOffset captureBase; omega),
    if_pos (by unfold captureOffset; omega)]
  congr 1
  unfold captureOffset
  omega

/-- Only elements of the capture RAM are mapped. -/
theorem lt_of_regAt_capture {c : Config} {off i : Nat} (h : regAt c off = .capture i) : i < c.capDepth := by
  by_cases hl : off < 0x40
  · exfalso
    have hm : ∀ k, k < 0x40 → regAt c k ≠ .capture i := by
      intro k hk
      interval_cases k <;> (rw [regAt]; simp [captureBase])
    exact hm off hl h
  · rw [regAt_high c (by omega)] at h
    rcases ite_eq_iff.1 h with ⟨-, h⟩ | ⟨-, h⟩
    · unfold bankRegAt at h
      split at h <;> cases h
    · rcases ite_eq_iff.1 h with ⟨hc, h⟩ | ⟨-, h⟩
      · cases h
        omega
      · cases h

/-! ### Register writes -/

theorem commandWrite_next {w : Word} {s : State} (hp : s.seq.phase = .idle) :
    ∃ t, commandWrite w s = .next t ∧ ((∃ e, decode w = .error e ∧ t = refuse e s) ∨ ∃ i, decode w = .ok i ∧ t = present i s) := by
  unfold commandWrite
  cases h : decode w with
  | error e => exact ⟨_, rfl, .inl ⟨e, rfl, rfl⟩⟩
  | ok i =>
    simp only
    rw [exec_idle i hp]
    exact ⟨_, rfl, .inr ⟨i, rfl, rfl⟩⟩

/-- A register write while IDLE takes a next state and leaves everything outside the block alone. -/
theorem writeRegister_next {s : State} (v : Word) (r : Reg) (hp : s.seq.phase = .idle) :
    ∃ t, writeRegister s v r = .next t ∧ t.env = s.env ∧ t.inReset = s.inReset ∧ t.cfg = s.cfg := by
  have lk : ∀ u : State, u.env = s.env → u.inReset = s.inReset → u.cfg = s.cfg →
      (lockableWrite s u).env = s.env ∧ (lockableWrite s u).inReset = s.inReset ∧ (lockableWrite s u).cfg = s.cfg := by
    intro u h1 h2 h3
    unfold lockableWrite
    split
    · exact ⟨rfl, rfl, rfl⟩
    · exact ⟨h1, h2, h3⟩
  cases r <;> simp only [writeRegister]
  case cmd =>
    obtain ⟨t, ht, ⟨e, -, rfl⟩ | ⟨i, -, rfl⟩⟩ := commandWrite_next (w := v) hp
    · exact ⟨_, ht, rfl, rfl, rfl⟩
    · refine ⟨_, ht, ?_⟩
      unfold present
      split <;> exact ⟨rfl, rfl, rfl⟩
  case tol => exact ⟨_, rfl, lk _ rfl rfl rfl⟩
  case margin => exact ⟨_, rfl, lk _ rfl rfl rfl⟩
  case profile p q => exact ⟨_, rfl, lk _ rfl rfl rfl⟩
  all_goals exact ⟨_, rfl, rfl, rfl, rfl⟩

theorem busWrite_next (off : Nat) (v : Word) (s : State) : ∃ t, busWrite off v s = .next t := by
  unfold busWrite
  rcases phase_cases s with hp | hp
  · rw [if_neg (by simp [State.busy, hp])]
    obtain ⟨t, ht, -⟩ := writeRegister_next (s := s) v (regAt s.cfg off) hp
    exact ⟨t, ht⟩
  · rw [if_pos (by simp [State.busy, hp])]
    exact ⟨_, rfl⟩

/-- A bus access never stops the machine. -/
theorem busAccess_next (a : BusAccess) (s : State) : ∃ t, busAccess a s = .next t := by
  unfold busAccess
  split
  · exact ⟨_, rfl⟩
  · split
    · exact ⟨_, rfl⟩
    · split
      · split
        · exact ⟨_, rfl⟩
        · exact busWrite_next _ _ _
      · exact ⟨_, rfl⟩

end Sys2Proof.Machine
end

