-- ==== Sys2Proof/Laws/Step.lean ====
section
/-! SUPPORT. What one step of the machine can do: one inversion lemma for a next state and one for a stop, which later
proofs cite instead of unfolding the agents. -/

namespace Sys2Proof.Machine

/-- What lies outside the block moved without an event of the block: answers to the host, the host's program, free values,
and a clock that did not go back. -/
structure QuietEnv (d e : Environment) : Prop where
  tokens : e.tokens = d.tokens
  carriers : e.carriers = d.carriers
  clockResets : e.clockResets = d.clockResets
  schedule : e.schedule = d.schedule
  clock : d.clock.toNat ≤ e.clock.toNat

theorem QuietEnv.refl (d : Environment) : QuietEnv d d := ⟨rfl, rfl, rfl, rfl, le_refl _⟩

/-- The state a step starts from: the next event taken off the schedule. -/
def State.taken (s : State) : State := s.setSchedule s.env.schedule.tail

@[simp] theorem State.setEnv_self (s : State) : s.setEnv s.env = s := rfl

theorem State.taken_nil {s : State} (h : s.env.schedule = []) : s.taken = s := by
  obtain ⟨_, _, _, _, _, _, _, _, _, _, _, _, _, _, _, ⟨_, _, _, _, _, _, _, sch⟩⟩ := s
  simp only at h
  subst h
  rfl

/-- Everything one step can do, from the state `s` with the event `o` taken (none: no event was scheduled). -/
inductive StepEffect (o : Option Event) (s : State) : State → Prop
  /-- The block is as it was. -/
  | outside (e : Environment) (h : QuietEnv s.env e) : StepEffect o s (s.setEnv e)
  /-- The sequencer's step of the running command. -/
  | sequencer (i : Instr) (t : State) (hr : s.inReset = false) (hp : s.seq.phase = .run) (hd : decode s.seq.cmd = .ok i)
      (he : exec i s = .next t) : StepEffect o s t
  /-- The driver completes the pending token. -/
  | driver (tok : Token) (ho : o = some .driver) (hr : s.inReset = false) (hp : s.seq.pending = some tok) :
      StepEffect o s ((s.setEnv { s.env with tokens := s.env.tokens ++ [tok] }).setSeq { s.seq with pending := none })
  /-- A write lost to BUSY. -/
  | lost (e : Environment) (h : QuietEnv s.env e) (hr : s.inReset = false) (hp : s.seq.phase = .run) :
      StepEffect o s (loseWrite (s.setEnv e))
  /-- A write of a register while IDLE. -/
  | write (e : Environment) (v : Word) (off : Nat) (t : State) (h : QuietEnv s.env e) (hr : s.inReset = false)
      (hp : s.seq.phase = .idle) (hw : writeRegister (s.setEnv e) v (regAt s.cfg off) = .next t) : StepEffect o s t
  /-- Reset asserted. -/
  | resetAssert (ho : o = some .resetAssert) : StepEffect o s (assertReset s)
  /-- Reset released. -/
  | resetRelease (ho : o = some .resetRelease) : StepEffect o s (releaseReset s)

/-! ### One agent at a time -/

theorem sequencerStep_effect {o : Option Event} {s t : State} (h : sequencerStep s = .next t) : StepEffect o s t := by
  have same : s = t → StepEffect o s t := by
    rintro rfl
    exact .outside s.env (QuietEnv.refl _)
  unfold sequencerStep at h
  split at h
  · exact same (Host.Outcome.next.inj h)
  · split at h
    · exact same (Host.Outcome.next.inj h)
    · split at h
      · exact .sequencer _ t (by simp_all) ‹_› ‹_› h
      · exact same (Host.Outcome.next.inj h)

theorem busRead_outside (off : Nat) (s : State) :
    ∃ e, QuietEnv s.env e ∧ e.program = s.env.program ∧ busRead off s = s.setEnv e := by
  unfold busRead
  split
  · refine ⟨_, ?_, ?_, rfl⟩
    exacts [⟨rfl, rfl, rfl, rfl, le_refl _⟩, rfl]
  · refine ⟨_, ?_, ?_, rfl⟩
    exacts [⟨rfl, rfl, rfl, rfl, le_refl _⟩, rfl]

theorem badAccess_outside (op : BusOp) (s : State) :
    ∃ e, QuietEnv s.env e ∧ e.program = s.env.program ∧ badAccess op s = s.setEnv e := by
  unfold badAccess
  split
  · refine ⟨_, ?_, ?_, rfl⟩
    exacts [⟨rfl, rfl, rfl, rfl, le_refl _⟩, rfl]
  · cases op
    · refine ⟨_, ?_, ?_, rfl⟩
      exacts [⟨rfl, rfl, rfl, rfl, le_refl _⟩, rfl]
    · refine ⟨_, ?_, ?_, rfl⟩
      exacts [⟨rfl, rfl, rfl, rfl, le_refl _⟩, rfl]

theorem busWrite_effect {o : Option Event} {off : Nat} {v : Word} {s t : State} {e : Environment} (he : QuietEnv s.env e)
    (hr : s.inReset = false) (h : busWrite off v (s.setEnv e) = .next t) : StepEffect o s t := by
  unfold busWrite at h
  by_cases hb : s.seq.phase = .run
  · rw [if_pos (by simp [State.busy, hb])] at h
    cases h
    exact .lost e he hr hb
  · have hp : s.seq.phase = .idle := by
      cases hq : s.seq.phase with
      | idle => rfl
      | run => exact absurd hq hb
    rw [if_neg (by simp [State.busy, hp])] at h
    exact .write e v off t he hr hp h

/-- One bus access from a state whose outside has moved by `e`. -/
theorem busAccess_effect {o : Option Event} {a : BusAccess} {s t : State} {e : Environment} (he : QuietEnv s.env e)
    (h : busAccess a (s.setEnv e) = .next t) : StepEffect o s t := by
  have out : ∀ {e' : Environment} {u : State}, QuietEnv e e' → u = (s.setEnv e).setEnv e' → StepEffect o s u := by
    rintro e' u ⟨h1, h2, h3, h4, h5⟩ rfl
    exact .outside e' ⟨h1.trans he.tokens, h2.trans he.carriers, h3.trans he.clockResets, h4.trans he.schedule,
      he.clock.trans h5⟩
  unfold busAccess at h
  split at h
  · cases h
    exact .outside e he
  · rename_i hr
    split at h
    · cases h
      exact .outside e he
    · split at h
      · split at h
        · cases h
          obtain ⟨e', hq, -, hb⟩ := busRead_outside _ (s.setEnv e)
          exact out hq hb
        · refine busWrite_effect ?_ (by simpa using hr) h
          exact ⟨he.tokens, he.carriers, he.clockResets, he.schedule, he.clock⟩
      · cases h
        obtain ⟨e', hq, -, hb⟩ := badAccess_outside a.op (s.setEnv e)
        exact out hq hb

theorem agentStep_effect {ev : Event} {s t : State} (h : agentStep ev s = .next t) : StepEffect (some ev) s t := by
  cases ev with
  | host a => exact busAccess_effect (QuietEnv.refl s.env) h
  | hostLine =>
    simp only [agentStep, hostLineStep] at h
    split at h
    · cases h
      exact .outside s.env (QuietEnv.refl _)
    · split at h
      · cases h
        exact .outside s.env (QuietEnv.refl _)
      · refine busAccess_effect ?_ h
        exact ⟨rfl, rfl, rfl, rfl, le_refl _⟩
  | sequencer => exact sequencerStep_effect h
  | driver =>
    simp only [agentStep, driverStep] at h
    split at h
    · cases h
      exact .outside s.env (QuietEnv.refl _)
    · split at h
      · cases h
        exact .outside s.env (QuietEnv.refl _)
      · cases h
        exact .driver _ rfl (by simp_all) ‹_›
  | clockTick us =>
    cases h
    refine .outside _ ⟨rfl, rfl, rfl, rfl, ?_⟩
    have := s.env.clock.isLt
    simp only [BitVec.toNat_ofNat]
    omega
  | collaborator w =>
    simp only [agentStep, collaboratorStep] at h
    split at h
    · cases h
      exact .outside s.env (QuietEnv.refl _)
    · rename_i hr
      split at h
      · exact busWrite_effect (QuietEnv.refl s.env) (by simpa using hr) h
      · cases h
        exact .outside s.env (QuietEnv.refl _)
  | resetAssert =>
    cases h
    exact .resetAssert rfl
  | resetRelease =>
    cases h
    exact .resetRelease rfl

/-- THE INVERSION LEMMA of a step. -/
theorem step_effect {s t : State} (h : step s = .next t) : StepEffect s.env.schedule.head? s.taken t := by
  unfold step stepOnce at h
  split at h
  · rename_i hs
    rw [State.taken_nil hs]
    exact sequencerStep_effect h
  · rename_i ev es hs
    have : s.taken = s.setSchedule es := by simp [State.taken, hs]
    rw [this, hs]
    exact agentStep_effect h

end Sys2Proof.Machine
end

