-- ==== Sys2Proof/Laws/Run.lean ====
section
/-! SUPPORT. Runs: one equation per kind of event, and the composition of runs. -/

namespace Sys2Proof.Machine

/-! ### Runs -/

theorem runFor_succ {s t : State} (k : Nat) (h : step s = .next t) : runFor (k + 1) s = runFor k t := by
  simp [runFor, h]

theorem runFor_add {j : Nat} {s t : State} (k : Nat) (h : runFor j s = .next t) : runFor (j + k) s = runFor k t := by
  induction j generalizing s with
  | zero =>
    cases h
    simp
  | succ j ih =>
    rw [show j + 1 + k = j + k + 1 by omega]
    cases hs : step s with
    | next u =>
      rw [runFor_succ _ hs] at h ⊢
      exact ih h
    | fault r => simp [runFor, hs] at h
    | refused r => simp [runFor, hs] at h

/-- The first step of a longer run. -/
theorem runFor_split {k : Nat} {s t : State} (h : runFor (k + 1) s = .next t) :
    ∃ u, step s = .next u ∧ runFor k u = .next t := by
  cases hs : step s with
  | next u =>
    rw [runFor_succ _ hs] at h
    exact ⟨u, rfl, h⟩
  | fault r => simp [runFor, hs] at h
  | refused r => simp [runFor, hs] at h

theorem rounds_add (a b : Nat) : rounds (a + b) = rounds a ++ rounds b := by
  induction a with
  | zero => simp [rounds]
  | succ a ih =>
    rw [show a + 1 + b = a + b + 1 by omega]
    simp [rounds, ih]

/-! ### One event -/

variable {s : State} {es : List Event}

/-- The sequencer's turn runs the accepted command. -/
theorem step_sequencer {i : Instr} (hr : s.inReset = false) (hp : s.seq.phase = .run) (hd : decode s.seq.cmd = .ok i)
    (hs : s.env.schedule = .sequencer :: es) : step s = exec i (s.setSchedule es) := by
  unfold step stepOnce
  rw [hs]
  simp only [agentStep, sequencerStep, State.setSchedule_inReset, State.setSchedule_seq, hp, hd]
  rw [if_neg (by simp [hr])]

/-- With no event scheduled the sequencer moves. -/
theorem step_unscheduled {i : Instr} (hr : s.inReset = false) (hp : s.seq.phase = .run) (hd : decode s.seq.cmd = .ok i)
    (hs : s.env.schedule = []) : step s = exec i s := by
  unfold step stepOnce
  rw [hs]
  simp [sequencerStep, hr, hp, hd]

/-- The driver's turn with a token pending. -/
theorem step_driver {t : Token} (hr : s.inReset = false) (hp : s.seq.pending = some t)
    (hs : s.env.schedule = .driver :: es) :
    step s = .next ((s.setEnv { s.env with tokens := s.env.tokens ++ [t], schedule := es }).setSeq
      { s.seq with pending := none }) := by
  unfold step stepOnce
  rw [hs]
  simp only [agentStep, driverStep, State.setSchedule_seq, hp]
  rw [if_neg (by simp [hr])]
  rfl

/-- The driver's turn with nothing pending. -/
theorem step_driver_none (hp : s.seq.pending = none) (hs : s.env.schedule = .driver :: es) :
    step s = .next (s.setSchedule es) := by
  unfold step stepOnce
  rw [hs]
  simp only [agentStep, driverStep, State.setSchedule_seq, hp]
  split <;> rfl

/-- A bus access of the host. -/
theorem step_host {a : BusAccess} (hs : s.env.schedule = .host a :: es) : step s = busAccess a (s.setSchedule es) := by
  unfold step stepOnce
  rw [hs]
  rfl

theorem windowOffset_base (c : Config) {off : Nat} (h : off < windowSize) : windowOffset c (c.base + off) = some off := by
  rw [windowOffset, if_pos ⟨by omega, by omega⟩]
  simp

/-- A word write inside the window. -/
theorem busAccess_write {b off : Nat} {v : Word} (hr : s.inReset = false) (hb : s.cfg.base = b) (ho : off < windowSize)
    (ha : off % 4 = 0) : busAccess ⟨b + off, 4, .write v⟩ s = busWrite off v (s.respond .done) := by
  subst hb
  simp [busAccess, hr, windowOffset_base s.cfg ho, ha]

/-- A word read inside the window. -/
theorem busAccess_read {b off : Nat} (hr : s.inReset = false) (hb : s.cfg.base = b) (ho : off < windowSize)
    (ha : off % 4 = 0) : busAccess ⟨b + off, 4, .read⟩ s = .next (busRead off s) := by
  subst hb
  simp [busAccess, hr, windowOffset_base s.cfg ho, ha]

/-- A misaligned or narrow access inside the window. -/
theorem busAccess_bad {b off width : Nat} {op : BusOp} (hr : s.inReset = false) (hb : s.cfg.base = b)
    (ho : off < windowSize) (ha : off % 4 ≠ 0 ∨ width ≠ 4) :
    busAccess ⟨b + off, width, op⟩ s = .next (badAccess op s) := by
  subst hb
  simp only [busAccess, windowOffset_base s.cfg ho]
  rw [if_neg (by simp [hr]), if_neg (by tauto)]

/-- The capture collaborator's write inside the window. -/
theorem step_collaborator {w : CaptureWrite} (hr : s.inReset = false) (ho : w.offset < windowSize)
    (hs : s.env.schedule = .collaborator w :: es) : step s = busWrite w.offset w.word (s.setSchedule es) := by
  unfold step stepOnce
  rw [hs]
  simp only [agentStep, collaboratorStep]
  rw [if_neg (by simp [hr]), if_pos ho]

/-- A write while BUSY = 0 goes to the register at its offset. -/
theorem busWrite_idle {off : Nat} {v : Word} (hp : s.seq.phase = .idle) :
    busWrite off v s = writeRegister s v (regAt s.cfg off) := by
  simp [busWrite, State.busy, hp]

/-- A write while BUSY = 1 is lost. -/
theorem busWrite_busy {off : Nat} {v : Word} (hp : s.seq.phase = .run) : busWrite off v s = .next (loseWrite s) := by
  simp [busWrite, State.busy, hp]

end Sys2Proof.Machine
end

