-- ==== Sys2Proof/Laws/Walk.lean ====
section
/-! SUPPORT. The matcher as inequalities, and what a walk over the capture decodes. -/

namespace Sys2Proof.Machine

/-! ### The matcher (40_matcher.md) -/

theorem durMatches_iff (s : State) (m e : Duration) :
    durMatches s m e = true ↔ m.toNat ≤ e.toNat + band s e ∧ e.toNat ≤ m.toNat + band s e := by
  simp only [durMatches, decide_eq_true_eq]
  split <;> omega

theorem durMatchesAtLeast_iff (s : State) (m e : Duration) :
    durMatchesAtLeast s m e = true ↔ e.toNat ≤ m.toNat + band s e := by
  unfold durMatchesAtLeast lowerBound band
  simp only [decide_eq_true_eq]
  omega

/-- The percentage part is the floor of the rational product (40_matcher.md R100). -/
theorem floor_eq_tolerancePart (s : State) (e : Duration) :
    (⌊(e.toNat : ℚ) * (s.tolPct.toNat : ℚ) / 100⌋ : ℤ) = (tolerancePart s e : ℤ) := by
  have h := Rat.floor_intCast_div_natCast ((e.toNat * s.tolPct.toNat : ℕ) : ℤ) 100
  unfold tolerancePart
  push_cast at *
  simpa using h

theorem band_congr {s t : State} (h1 : t.tolPct = s.tolPct) (h2 : t.marginUs = s.marginUs) (e : Duration) :
    band t e = band s e := by simp only [band, tolerancePart, h1, h2]

/-- The matcher reads TOL and MARGIN alone. -/
theorem durMatches_congr {s t : State} (h1 : t.tolPct = s.tolPct) (h2 : t.marginUs = s.marginUs) (m e : Duration) :
    durMatches t m e = durMatches s m e := by
  rw [Bool.eq_iff_iff, durMatches_iff, durMatches_iff, band_congr h1 h2]

theorem durMatchesAtLeast_congr {s t : State} (h1 : t.tolPct = s.tolPct) (h2 : t.marginUs = s.marginUs)
    (m e : Duration) : durMatchesAtLeast t m e = durMatchesAtLeast s m e := by
  rw [Bool.eq_iff_iff, durMatchesAtLeast_iff, durMatchesAtLeast_iff, band_congr h1 h2]

theorem classify_congr {s t : State} (h1 : t.tolPct = s.tolPct) (h2 : t.marginUs = s.marginUs) (f : Profile)
    (d : Duration) : classify t f d = classify s f d := by
  simp only [classify, durMatches_congr h1 h2]

/-! ### Walks (41_bitcodec.md R124, R125) -/

/-- Where a walk that matched ends. -/
theorem bitDecode_matched {s : State} {f : Profile} {n c c' : Nat} {acc v : Payload}
    (h : bitDecode s f n c acc = .matched (v, c')) : c' = c + 2 * n := by
  induction n generalizing c acc with
  | zero => cases h; rfl
  | succ n ih =>
    simp only [bitDecode, Walk.read_eq] at h
    repeat' split at h
    all_goals first
      | (have := ih h; omega)
      | cases h

/-- Where a walk that faults reads. -/
theorem bitDecode_unwritten {s : State} {f : Profile} {n c i : Nat} {acc : Payload}
    (h : bitDecode s f n c acc = .unwritten i) : c ≤ i ∧ i < c + 2 * n ∧ capRead s i = none := by
  induction n generalizing c acc with
  | zero => cases h
  | succ n ih =>
    simp only [bitDecode, Walk.read_eq] at h
    repeat' split at h
    all_goals first
      | (have h' := ih h
         exact ⟨by omega, by omega, h'.2.2⟩)
      | (cases h
         exact ⟨by omega, by omega, ‹_›⟩)
      | cases h

/-- A walk reads only the elements of its body. -/
theorem bitDecode_congr {s t : State} (h1 : t.tolPct = s.tolPct) (h2 : t.marginUs = s.marginUs) (f : Profile) {n c : Nat}
    (acc : Payload) (h : ∀ i, c ≤ i → i < c + 2 * n → capRead t i = capRead s i) :
    bitDecode t f n c acc = bitDecode s f n c acc := by
  induction n generalizing c acc with
  | zero => rfl
  | succ n ih =>
    simp only [bitDecode, Walk.read_eq, h c (by omega) (by omega), h (c + 1) (by omega) (by omega),
      durMatches_congr h1 h2, classify_congr h1 h2]
    cases capRead s c with
    | none => rfl
    | some m =>
      cases capRead s (c + 1) with
      | none => rfl
      | some d =>
        simp only
        split
        · split
          · exact ih _ fun i hi hj => h i (by omega) (by omega)
          · rfl
        · rfl

theorem element_of_some {s : State} {i : Nat} {d : Duration} (h : capRead s i = some d) : element s i = d := by
  simp [element, h]

theorem classify_of_ne {s : State} {f : Profile} {d : Duration} (h : durMatches s d f.oneSpace ≠ durMatches s d f.zeroSpace) :
    classify s f d = some (durMatches s d f.oneSpace) := by
  unfold classify
  cases h1 : durMatches s d f.oneSpace <;> cases h2 : durMatches s d f.zeroSpace <;> simp_all

theorem classify_of_eq {s : State} {f : Profile} {d : Duration} (h : durMatches s d f.oneSpace = durMatches s d f.zeroSpace) :
    classify s f d = none := by
  unfold classify
  cases h1 : durMatches s d f.oneSpace <;> cases h2 : durMatches s d f.zeroSpace <;> simp_all

/-- A body's first pair and the rest. -/
theorem bodyMatches_succ (s : State) (f : Profile) (c n : Nat) :
    bodyMatches s f c (n + 1) ↔
      (durMatches s (element s c) f.bitMark = true ∧
        durMatches s (element s (c + 1)) f.oneSpace ≠ durMatches s (element s (c + 1)) f.zeroSpace) ∧
      bodyMatches s f (c + 2) n := by
  constructor
  · intro h
    refine ⟨h 0 (by omega), fun k hk => ?_⟩
    have := h (k + 1) (by omega)
    rwa [show c + 2 * (k + 1) = c + 2 + 2 * k by omega] at this
  · rintro ⟨h0, h⟩ k hk
    cases k with
    | zero => exact h0
    | succ k =>
      have := h k (by omega)
      rwa [show c + 2 + 2 * k = c + 2 * (k + 1) by omega] at this

/-! ### The elements a walk reads -/

theorem walkReads_mark (s : State) (f : Profile) (c n : Nat) : walkReads s f c (n + 1) c :=
  ⟨0, by omega, fun k hk => absurd hk (by omega), .inl rfl⟩

theorem walkReads_space {s : State} {f : Profile} {c : Nat} (n : Nat) (h : durMatches s (element s c) f.bitMark = true) :
    walkReads s f c (n + 1) (c + 1) :=
  ⟨0, by omega, fun k hk => absurd hk (by omega), .inr ⟨rfl, h⟩⟩

/-- Behind a matching first pair a walk reads what the rest of it reads. -/
theorem walkReads_rest {s : State} {f : Profile} {c n i : Nat} (hm : durMatches s (element s c) f.bitMark = true)
    (hs : durMatches s (element s (c + 1)) f.oneSpace ≠ durMatches s (element s (c + 1)) f.zeroSpace)
    (h : walkReads s f (c + 2) n i) : walkReads s f c (n + 1) i := by
  obtain ⟨j, hj, hb, hi⟩ := h
  refine ⟨j + 1, by omega, (bodyMatches_succ s f c j).2 ⟨⟨hm, hs⟩, hb⟩, ?_⟩
  rwa [show c + 2 * (j + 1) = c + 2 + 2 * j by omega]

theorem walkReads_bounds {s : State} {f : Profile} {c n i : Nat} (h : walkReads s f c n i) : c ≤ i ∧ i < c + 2 * n := by
  obtain ⟨j, hj, -, rfl | ⟨rfl, -⟩⟩ := h <;> omega

/-- A walk that has matched so far and comes to an element that holds no value stops there (20_memory.md R65). -/
theorem bitDecode_stops {s : State} {f : Profile} {c n k : Nat} (acc : Payload) (h : walkStopsAt s f c n k) :
    bitDecode s f n c acc = .unwritten k := by
  obtain ⟨h0, h1, j, hj, hb, hk⟩ := h
  induction j generalizing c n acc with
  | zero =>
    obtain ⟨n, rfl⟩ : ∃ m, n = m + 1 := ⟨n - 1, by omega⟩
    simp only [Nat.mul_zero, Nat.add_zero] at hk
    rcases hk with rfl | ⟨rfl, hm⟩
    · simp only [bitDecode, Walk.read_eq, h0]
    · obtain ⟨m, hr⟩ := Option.isSome_iff_exists.1 (h1 c (by omega) (by omega))
      rw [element_of_some hr] at hm
      simp only [bitDecode, Walk.read_eq, h0, hr, hm, if_true]
  | succ j ih =>
    obtain ⟨n, rfl⟩ : ∃ m, n = m + 1 := ⟨n - 1, by omega⟩
    obtain ⟨⟨a, b⟩, hb⟩ := (bodyMatches_succ s f c j).1 hb
    obtain ⟨m, hm⟩ := Option.isSome_iff_exists.1 (h1 c (by omega) (by omega))
    obtain ⟨d, hd⟩ := Option.isSome_iff_exists.1 (h1 (c + 1) (by omega) (by omega))
    rw [element_of_some hm] at a
    rw [element_of_some hd] at b
    simp only [bitDecode, Walk.read_eq, hm, hd, a, if_true, classify_of_ne b]
    refine ih _ (fun i _ _ => h1 i (by omega) (by omega)) (by omega) hb ?_
    rwa [show c + 2 + 2 * j = c + 2 * (j + 1) by omega]

/-- A walk whose elements hold values as far as it reads: it matches exactly the bodies that match, and then its payload
holds one bit for each pair, the first pair highest, above them the accumulator it started with. -/
theorem bitDecode_spec (s : State) (f : Profile) (n c : Nat) (acc : Payload)
    (hc : ∀ i, walkReads s f c n i → (capRead s i).isSome = true) :
    (bodyMatches s f c n → ∃ v, bitDecode s f n c acc = .matched (v, c + 2 * n) ∧
      ∀ j, j < 64 → v.getLsbD j =
        if j < n then durMatches s (element s (c + 2 * (n - 1 - j) + 1)) f.oneSpace else acc.getLsbD (j - n)) ∧
    (¬ bodyMatches s f c n → bitDecode s f n c acc = .failed) := by
  induction n generalizing c acc with
  | zero =>
    refine ⟨fun _ => ⟨acc, rfl, fun j _ => by simp⟩, fun h => absurd (fun k hk => absurd hk (by omega)) h⟩
  | succ n ih =>
    obtain ⟨m, hm⟩ := Option.isSome_iff_exists.1 (hc c (walkReads_mark s f c n))
    by_cases h1 : durMatches s m f.bitMark = true
    · have h1' : durMatches s (element s c) f.bitMark = true := by rwa [element_of_some hm]
      obtain ⟨d, hd⟩ := Option.isSome_iff_exists.1 (hc (c + 1) (walkReads_space n h1'))
      rw [bodyMatches_succ, element_of_some hm, element_of_some hd]
      by_cases h2 : durMatches s d f.oneSpace = durMatches s d f.zeroSpace
      · refine ⟨fun h => absurd h2 h.1.2, fun _ => ?_⟩
        simp only [bitDecode, Walk.read_eq, hm, hd, h1, if_true, classify_of_eq h2]
      · have ih' := ih (c + 2) ((acc <<< 1) ||| (if durMatches s d f.oneSpace then 1 else 0))
          fun i hi => hc i (walkReads_rest h1' (by rwa [element_of_some hd]) hi)
        have first : bitDecode s f (n + 1) c acc =
            bitDecode s f n (c + 2) ((acc <<< 1) ||| (if durMatches s d f.oneSpace then 1 else 0)) := by
          simp only [bitDecode, Walk.read_eq, hm, hd, h1, if_true, classify_of_ne h2]
        rw [first]
        refine ⟨fun h => ?_, fun h => ih'.2 fun h3 => h ⟨⟨h1, h2⟩, h3⟩⟩
        obtain ⟨v, hv, hb⟩ := ih'.1 h.2
        refine ⟨v, ?_, fun j hj => ?_⟩
        · simp only [hv]
          congr 2
          omega
        · rw [hb j hj]
          by_cases hjn : j < n
          · rw [if_pos hjn, if_pos (by omega), show c + 2 + 2 * (n - 1 - j) + 1 = c + 2 * (n + 1 - 1 - j) + 1 by omega]
          · rw [if_neg hjn, getLsbD_shiftOr _ _ _ (by omega)]
            by_cases h0 : j = n
            · subst h0
              simp only [Nat.sub_self, if_true, Nat.lt_succ_self, Nat.add_sub_cancel, Nat.mul_zero, Nat.add_zero,
                element_of_some hd]
            · rw [if_neg (by omega), if_neg (by omega), show j - n - 1 = j - (n + 1) by omega]
    · refine ⟨fun h => absurd ((bodyMatches_succ s f c n).1 h).1.1 (by rwa [element_of_some hm]), fun _ => ?_⟩
      simp only [bitDecode, Walk.read_eq, hm, h1]
      rfl

end Sys2Proof.Machine
end

