-- ==== Sys2Proof/Laws/Wire.lean ====
section
/-! SUPPORT. The token lists of BENC and SEND position by position, and their agreement with the frame on the wire. -/

namespace Sys2Proof.Machine

/-! ### The body (41_bitcodec.md R122) -/

@[simp] theorem bodyTokens_length (f : Profile) (v : Payload) (n : Nat) : (bodyTokens f v n).length = 2 * n := by
  induction n with
  | zero => rfl
  | succ n ih =>
    simp only [bodyTokens, bitTokens, List.length_append, List.length_cons, List.length_nil, ih]
    omega

/-- The k-th pair of a body: bit n−1−k. -/
theorem bodyTokens_pair (f : Profile) (v : Payload) {n k : Nat} (hk : k < n) :
    (bodyTokens f v n)[2 * k]? = some ⟨.mark, f.bitMark⟩ ∧
      (bodyTokens f v n)[2 * k + 1]? =
        some ⟨.space, if v.getLsbD (n - 1 - k) then f.oneSpace else f.zeroSpace⟩ := by
  induction n generalizing k with
  | zero => omega
  | succ n ih =>
    cases k with
    | zero => simp [bodyTokens, bitTokens]
    | succ k =>
      obtain ⟨h1, h2⟩ := ih (k := k) (by omega)
      rw [bodyTokens, show 2 * (k + 1) = 2 * k + 1 + 1 by ring]
      simp only [bitTokens, List.cons_append, List.nil_append, List.getElem?_cons_succ, h1, h2]
      rw [show n + 1 - 1 - (k + 1) = n - 1 - k by omega]
      simp

/-- The body the sequencer hands over is the body on the wire. -/
theorem wireBody_eq (f : Profile) (v : Payload) (n : Nat) : wireBody f v n = bodyTokens f v n := by
  induction n with
  | zero => rfl
  | succ n ih =>
    rw [bodyTokens, ← ih, wireBody, List.range_succ_eq_map, List.flatMap_cons]
    simp only [bitTokens, List.flatMap_map, wireBody]
    congr 2
    funext k
    simp [Nat.sub_sub, Nat.add_comm]

/-! ### The gap (42_assembler.md R144) -/

theorem gap_toNat (f : Profile) (e : Duration) :
    (gap f e).toNat = max f.minGap.toNat (f.minFrame.toNat - e.toNat) := by
  have h1 := f.minGap.isLt
  have h2 := f.minFrame.isLt
  rw [gap, BitVec.toNat_ofNat, Nat.mod_eq_of_lt]
  omega

theorem wireGap_eq (f : Profile) (e : Duration) : wireGap f e = gap f e := by
  have h1 := f.minGap.isLt
  have h2 := f.minFrame.isLt
  have h : max (f.minGap.toNat : Int) ((f.minFrame.toNat : Int) - (e.toNat : Int)) =
      ((max f.minGap.toNat (f.minFrame.toNat - e.toNat) : Nat) : Int) := by omega
  rw [wireGap, h, BitVec.ofInt_natCast]
  rfl

/-! ### The frame (42_assembler.md R143 to R146) -/

/-- The token an action hands over, when the last clock reading was e. -/
def Action.token (f : Profile) (e : Duration) : Action → Option Token
  | .emit t => some t
  | .emitGap => some ⟨.space, gap f e⟩
  | .carrier _ _ => none
  | .clockReset => none
  | .clockRead => none

theorem frameActions_length (f : Profile) (v : Payload) (n k : Nat) :
    (frameActions f v n k).length = (frameMiddle f v n k).length + 5 := by
  simp [frameActions]

/-- What stands between the header mark and the footer mark. -/
theorem frameMiddle_length (f : Profile) (v : Payload) (n k : Nat) :
    (frameMiddle f v n k).length = 1 + if k = 0 ∨ f.rptMode = 0 then 2 * n else 0 := by
  unfold frameMiddle
  by_cases h : k = 0 ∨ f.rptMode = 0
  · rw [if_pos h, if_pos (by simpa [Profile.repeatsFull] using h)]
    simp
    omega
  · rw [if_neg h, if_neg (by simpa [Profile.repeatsFull] using h)]
    simp

theorem frameMiddle_full {f : Profile} {k : Nat} (h : k = 0 ∨ f.rptMode = 0) (v : Payload) (n : Nat) :
    frameMiddle f v n k = ⟨.space, f.hdrSpace⟩ :: bodyTokens f v n := by
  rw [frameMiddle, if_pos (by simpa [Profile.repeatsFull] using h)]

theorem frameMiddle_short {f : Profile} {k : Nat} (h : ¬ (k = 0 ∨ f.rptMode = 0)) (v : Payload) (n : Nat) :
    frameMiddle f v n k = [⟨.space, f.rptSpace⟩] := by
  rw [frameMiddle, if_neg (by simpa [Profile.repeatsFull] using h)]

/-- The carrier event stands before the actions of frame 0 only (42_assembler.md R141). -/
theorem sendActions_zero (f : Profile) (v : Payload) (n : Nat) :
    sendActions f v n 0 = .carrier f.freqKhz f.dutyPct :: frameActions f v n 0 := rfl

theorem sendActions_get (f : Profile) (v : Payload) (n k j : Nat) :
    (sendActions f v n k)[(if k = 0 then 1 else 0) + j]? = (frameActions f v n k)[j]? := by
  unfold sendActions
  by_cases h : k = 0
  · rw [if_pos h, if_pos h, List.getElem?_append_right (by simp)]
    simp
  · rw [if_neg h, if_neg h]
    simp

/-- The actions of a frame by position. -/
theorem frameActions_get (f : Profile) (v : Payload) (n k : Nat) :
    (frameActions f v n k)[0]? = some .clockReset ∧
      (frameActions f v n k)[1]? = some (.emit ⟨.mark, f.hdrMark⟩) ∧
      (∀ j t, (frameMiddle f v n k)[j]? = some t → (frameActions f v n k)[2 + j]? = some (.emit t)) ∧
      (frameActions f v n k)[2 + (frameMiddle f v n k).length]? = some (.emit ⟨.mark, f.ftrMark⟩) ∧
      (frameActions f v n k)[3 + (frameMiddle f v n k).length]? = some .clockRead ∧
      (frameActions f v n k)[4 + (frameMiddle f v n k).length]? = some .emitGap ∧
      ∀ j, 5 + (frameMiddle f v n k).length ≤ j → (frameActions f v n k)[j]? = none := by
  have tail : ∀ j, (frameActions f v n k)[2 + (frameMiddle f v n k).length + j]? =
      ([Action.emit ⟨.mark, f.ftrMark⟩, .clockRead, .emitGap] : List Action)[j]? := by
    intro j
    rw [frameActions, List.getElem?_append_right (by simp; omega)]
    congr 1
    simp
    omega
  refine ⟨rfl, rfl, ?_, tail 0, ?_, ?_, ?_⟩
  · intro j t hj
    have hl := (List.getElem?_eq_some_iff.1 hj).1
    rw [frameActions, List.getElem?_append_left (by simp; omega), List.getElem?_append_right (by simp)]
    simp [hj]
  · rw [show 3 + (frameMiddle f v n k).length = 2 + (frameMiddle f v n k).length + 1 by omega, tail 1]
    rfl
  · rw [show 4 + (frameMiddle f v n k).length = 2 + (frameMiddle f v n k).length + 2 by omega, tail 2]
    rfl
  · intro j hj
    rw [List.getElem?_eq_none]
    rw [frameActions_length]
    omega

/-- The tokens of a frame's actions are the frame on the wire. -/
theorem frameActions_tokens (f : Profile) (v : Payload) (n k : Nat) (e : Duration) :
    (sendActions f v n k).filterMap (Action.token f e) = wireFrame f v n k e := by
  have hm : ∀ ts : List Token, (ts.map Action.emit).filterMap (Action.token f e) = ts := by
    intro ts
    induction ts with
    | nil => rfl
    | cons t ts ih => rw [List.map_cons, List.filterMap_cons, ih]; rfl
  have hc : (if k = 0 then [Action.carrier f.freqKhz f.dutyPct] else []).filterMap (Action.token f e) = [] := by
    split <;> rfl
  rw [sendActions, List.filterMap_append, hc, frameActions, List.filterMap_append, List.filterMap_append, hm, wireFrame,
    frameMiddle, wireBody_eq, wireGap_eq]
  by_cases h : k = 0 ∨ f.rptMode = 0
  · rw [if_pos h, if_pos (by simpa [Profile.repeatsFull] using h)]
    simp [Action.token, List.filterMap]
  · rw [if_neg h, if_neg (by simpa [Profile.repeatsFull] using h)]
    simp [Action.token, List.filterMap]

end Sys2Proof.Machine
end

