-- ==== Sys2Proof/Tests/Slice0.lean ====
section
/-! SUPPORT. Tests whose expected results are the spec's own (95_test_vectors.md, 30_encoding.md R83 and R90), and for
every statement with hypotheses a witness that meets them. -/

namespace Sys2Proof.Tests

open Sys2Proof Sys2Proof.Machine

/-! ### Small states -/

/-- The NEC-style reference profile (95_test_vectors.md, Conventions; 44_protocol.md R194). -/
def nec : Profile :=
  ⟨9000, 4500, 560, 1690, 560, 560, 21940, 108000, 2250, 32, 0, 1, 1, 1, 38, 33⟩

/-- The Samsung reference profile (44_protocol.md R195). -/
def sam : Profile :=
  ⟨4480, 4480, 560, 1680, 560, 560, 26800, 108000, 0, 32, 0, 0, 2, 2, 38, 33⟩

/-- The reset state with profiles 0 and 1 programmed. -/
def base : State := { State.reset with profiles := #v[nec, sam, Profile.zero, Profile.zero] }

/-- `s` with `v` in OP. -/
def withOp (v : Payload) (s : State) : State :=
  { s with opLo := v.extractLsb' 0 32, opHi := v.extractLsb' 32 32 }

/-- `s` with measured `m` and expected `e`. -/
def withPair (m e : Word) (s : State) : State := { s with opLo := m, opExp := e }

/-- `s` with `i` running, before its first step. -/
def running (i : Instr) (s : State) : State :=
  { s with seq := { s.seq with phase := .run, cmd := encode i } }

/-- `s` with its action list at `k`. -/
def atStep (k : Nat) (s : State) : State := s.setSeq { s.seq with step := k }

/-- `s` with its frame index at `k`. -/
def atFrame (k : Nat) (s : State) : State := s.setSeq { s.seq with frame := k }

/-- `s` with its parser in `st` at capture index `c`. -/
def parsing (st : ParseState) (c : Nat) (s : State) : State := s.setSeq { s.seq with parse := st, cur := c }

/-- The elements `ds` stored from index `i`. -/
def stored : List Word → Nat → State → State
  | [], _, s => s
  | d :: ds, i, s => stored ds (i + 1) (capWrite s i d)

/-- `s` with the capture `ds`. -/
def withCapture (ds : List Word) (s : State) : State :=
  { stored ds 0 s with capLen := BitVec.ofNat 32 ds.length }

/-- An 8-bit NEC-style frame of payload 0xA5 (CAP20, 95_test_vectors.md). -/
def cap20 : List Word :=
  [8950, 4420, 610, 1640, 540, 600, 590, 1720, 520, 530] ++ [600, 580, 580, 1650, 545, 590, 575, 1700, 600, 30000]

/-- A one-bit frame of a 1, with its gap. -/
def cap6 : List Word := [9000, 4500, 560, 1690, 560, 21940]

/-- `s` with the events `es` to come. -/
def planned (es : List Event) (s : State) : State := s.setSchedule es

/-- One bus access of the host. -/
def access (off width : Nat) (op : BusOp) : Event := .host ⟨off, width, op⟩

/-- Is every state before step `m` BUSY? -/
def busyBefore (m : Nat) (s : State) : Bool :=
  (List.range m).all fun j =>
    match runFor j s with
    | .next t => t.busy
    | .fault _ => true
    | .refused _ => true

/-- What `f` reads of the next state. -/
def after {α : Type} (r : Result) (f : State → α) : Option α :=
  match r with
  | .next t => some (f t)
  | .fault _ => none
  | .refused _ => none

/-! ### Well-formedness: each range check refuses -/

theorem test_wf_rev_zero : (Instr.rev 0).wf = false := by decide
theorem test_wf_rev_65 : (Instr.rev 65).wf = false := by decide
theorem test_wf_benc_zero : (Instr.benc 0 0).wf = false := by decide
theorem test_wf_benc_65 : (Instr.benc 0 65).wf = false := by decide
theorem test_wf_bdec_zero : (Instr.bdec 0 0).wf = false := by decide
theorem test_wf_bdec_65 : (Instr.bdec 0 65).wf = false := by decide
theorem test_wf_send_zero : (Instr.send 0 0 0).wf = false := by decide
theorem test_wf_send_65 : (Instr.send 0 65 0).wf = false := by decide
theorem test_wf_decode_zero : (Instr.decode 0 false 0).wf = false := by decide
theorem test_wf_decode_65 : (Instr.decode 0 false 65).wf = false := by decide
theorem test_wf_pchk_zero : (Instr.pchk 0 true 0).wf = false := by decide
theorem test_wf_pchk_65 : (Instr.pchk 0 true 65).wf = false := by decide
theorem test_wf_limits : (Instr.rev 1).wf = true ∧ (Instr.send 3 64 4095).wf = true := by decide

/-! ### Decoding: REPEAT, 0, NBITS, 0, STRICT, PROF, OP, bit by bit (30_encoding.md R80, R82) -/

theorem test_decode_match :
    decode (0b000000000000#12 ++ 0#1 ++ 0b0000000#7 ++ 0#1 ++ 0#1 ++ 0b00#2 ++ 0b00000001#8) = .ok .matchWithin := by decide
theorem test_decode_matchal :
    decode (0b000000000000#12 ++ 0#1 ++ 0b0000000#7 ++ 0#1 ++ 0#1 ++ 0b00#2 ++ 0b00000010#8) = .ok .matchAtLeast := by decide
theorem test_decode_rev :
    decode (0b000000000000#12 ++ 0#1 ++ 0b0010000#7 ++ 0#1 ++ 0#1 ++ 0b00#2 ++ 0b00000011#8) = .ok (.rev 16) := by decide
theorem test_decode_benc :
    decode (0b000000000000#12 ++ 0#1 ++ 0b0000001#7 ++ 0#1 ++ 0#1 ++ 0b10#2 ++ 0b00010000#8) = .ok (.benc 2 1) := by decide
theorem test_decode_bdec :
    decode (0b000000000000#12 ++ 0#1 ++ 0b0001000#7 ++ 0#1 ++ 0#1 ++ 0b11#2 ++ 0b00010001#8) = .ok (.bdec 3 8) := by decide
theorem test_decode_send :
    decode (0b100000000001#12 ++ 0#1 ++ 0b0100000#7 ++ 0#1 ++ 0#1 ++ 0b01#2 ++ 0b00100000#8) = .ok (.send 1 32 2049) := by decide
theorem test_decode_decode :
    decode (0b000000000000#12 ++ 0#1 ++ 0b1000000#7 ++ 0#1 ++ 1#1 ++ 0b01#2 ++ 0b00110000#8) = .ok (.decode 1 true 64) := by decide
theorem test_decode_penc :
    decode (0b000000000000#12 ++ 0#1 ++ 0b0000000#7 ++ 0#1 ++ 0#1 ++ 0b01#2 ++ 0b01000000#8) = .ok (.penc 1) := by decide
theorem test_decode_pchk :
    decode (0b000000000000#12 ++ 0#1 ++ 0b0010000#7 ++ 0#1 ++ 0#1 ++ 0b00#2 ++ 0b01000001#8) = .ok (.pchk 0 false 16) := by decide
/-- Bit 11 set and NBITS 0: ERR_RSV comes first (E5). -/
theorem test_decode_rsv : decode 0x00000830 = .error .rsv ∧ decode 0x00080020 = .error .rsv := by decide

/-! ### One step of each command (95_test_vectors.md) -/

/-- M1, M2. -/
theorem test_match :
    after (exec .matchWithin (running .matchWithin (withPair 750 560 base))) (fun t => (t.status.ok, t.res.lo)) =
      some (true, 1) ∧
    after (exec .matchWithin (running .matchWithin (withPair 751 560 base))) (fun t => (t.status.ok, t.res.lo)) =
      some (false, 0) := by decide

/-- M18, M19. -/
theorem test_matchal :
    after (exec .matchAtLeast (running .matchAtLeast (withPair 29950 40000 base))) (fun t => (t.status.ok, t.res.lo)) =
      some (true, 1) ∧
    after (exec .matchAtLeast (running .matchAtLeast (withPair 29949 40000 base))) (fun t => (t.status.ok, t.res.lo)) =
      some (false, 0) := by decide

/-- B3, B6. -/
theorem test_rev :
    after (exec (.rev 16) (running (.rev 16) (withOp 0xC1A2 base))) (fun t => (t.res.hi, t.res.lo)) = some (0, 0x4583) ∧
    after (exec (.rev 8) (running (.rev 8) (withOp 0x301 base))) (fun t => (t.res.hi, t.res.lo)) = some (0, 0x380) := by
  decide

/-- B9: the pair of bit 2, a 1, comes first; then a zero's space. -/
theorem test_benc :
    after (exec (.benc 0 3) (atStep 1 (running (.benc 0 3) (withOp 5 base)))) (fun t => t.seq.pending) =
      some (some ⟨.space, 1690⟩) ∧
    after (exec (.benc 0 3) (atStep 3 (running (.benc 0 3) (withOp 5 base)))) (fun t => t.seq.pending) =
      some (some ⟨.space, 560⟩) := by decide

/-- B12. -/
theorem test_bdec :
    after (exec (.bdec 0 4) (running (.bdec 0 4) { withCapture cap20 base with cursor := 2 }))
      (fun t => (t.status.ok, t.res.lo, t.cursor)) = some (true, 0xA, 10) := by decide

/-- B17: failure, CURSOR unchanged. -/
theorem test_bdec_fails :
    after (exec (.bdec 0 1) (running (.bdec 0 1) { withCapture cap20 base with cursor := 1 }))
      (fun t => (t.status.ok, t.res.lo, t.cursor)) = some (false, 0, 1) := by decide

/-- V1: one carrier event of 38 kHz, 33 %. -/
theorem test_send_carrier :
    after (exec (.send 0 8 0) (running (.send 0 8 0) base)) (fun t => t.env.carriers) = some [⟨38, 33⟩] := by decide

/-- S5: the trailing gap at a reading of 86059 and of 200000. -/
theorem test_send_gap : gap nec 86059 = 21941 ∧ gap nec 200000 = 21940 := by decide

/-- P3: the body of CAP20 is 0xA5. -/
theorem test_decode_body :
    after (exec (.decode 0 false 8) (parsing .headerMatched 2 (running (.decode 0 false 8) (withCapture cap20 base))))
      (fun t => (t.seq.parse, t.seq.acc, t.seq.cur)) = some (.bodyMatched, 0xA5, 18) := by decide

/-- X13: a strict DECODE of a count that is not the canonical one fails before any read. -/
theorem test_decode_strict_count :
    after (exec (.decode 0 true 8) (running (.decode 0 true 8) { base with capLen := 20 })) (fun t => t.seq.parse) =
      some .failure := by decide

/-- K1, K5. -/
theorem test_penc_nec :
    after (exec (.penc 0) (running (.penc 0) { base with opLo := 0x00020001 })) (fun t => t.res.lo) = some 0x807F40BF ∧
    after (exec (.penc 0) (running (.penc 0) { base with opLo := 0x0011FF01 })) (fun t => t.res.lo) = some 0x80FF8877 := by
  decide

/-- K7: the Samsung address is truncated. -/
theorem test_penc_samsung :
    after (exec (.penc 1) (running (.penc 1) { base with opLo := 0x000201FF })) (fun t => t.res.lo) = some 0xFFFF40BF := by
  decide

/-- K9. -/
theorem test_pchk :
    after (exec (.pchk 0 true 32) (running (.pchk 0 true 32) (withOp 0xC1A28877 base)))
      (fun t => (t.status.ok, t.res.addr, t.res.cmd, t.res.proto)) = some (true, 0x4583, 0x11, 1) := by decide

/-- K15. -/
theorem test_pchk_fails :
    after (exec (.pchk 1 true 32) (running (.pchk 1 true 32) (withOp 0x12345678 base)))
      (fun t => (t.status.ok, t.res.lo, t.res.proto)) = some (false, 0, 0) := by decide

/-! ### The window, refusals and the waveform -/

/-- E4, E10, E15, E16: STATUS after a refused CMD write. -/
theorem test_refusals :
    after (busWrite 0x008 0x00000101 base) (fun t => t.status.toWord t.busy) = some 0x02A ∧
    after (busWrite 0x008 0x00041030 base) (fun t => t.status.toWord t.busy) = some 0x03A ∧
    after (busWrite 0x008 0x00000240 base) (fun t => t.status.toWord t.busy) = some 0x05A ∧
    after (busWrite 0x008 0x00020030 { base with capLen := 2000 }) (fun t => t.status.toWord t.busy) = some 0x06A := by
  decide

/-- SETUP0's FORMAT and CARRIER words read back. -/
theorem test_format : nec.formatWord = 0x00010520 ∧ nec.carrierWord = 0x00210026 ∧ sam.formatWord = 0x00020820 := by decide

/-- B9 as text (42_assembler.md R148). -/
theorem test_waveform : waveform (bodyTokens nec 5 3) = "m560s1690m560s560m560s1690" := by decide

/-! ### Witnesses: for every statement with hypotheses, states and operands that meet them -/

theorem busyBefore_iff {m : Nat} {s : State} (h : busyBefore m s = true) :
    ∀ j t, j < m → runFor j s = .next t → t.busy = true := by
  intro j t hj ht
  have := List.all_eq_true.1 h j (List.mem_range.2 hj)
  rwa [ht] at this

theorem witness_EncodeInvertsDecode : decode 0xFFF40320 = .ok (.send 3 64 4095) := by decide

theorem witness_StepRunsTheDecodedCommand :
    (let s := planned [access 0x008 4 (.write 0x00008003)] base;
      s.inReset = false ∧ s.seq.phase = .idle ∧
        s.env.schedule = .host ⟨s.cfg.base + 0x008, 4, .write 0x00008003⟩ :: [] ∧ decode 0x00008003 = .ok (.rev 8)) ∧
    (let s := planned [.sequencer] (running (.rev 8) base);
      s.inReset = false ∧ s.seq.phase = .run ∧ s.env.schedule = .sequencer :: [] ∧ decode s.seq.cmd = .ok (.rev 8)) ∧
    (let s := running (.rev 8) base;
      s.inReset = false ∧ s.seq.phase = .run ∧ s.env.schedule = [] ∧ decode s.seq.cmd = .ok (.rev 8)) ∧
    decodeTableWord 32 0x00008003 = some (.rev 8) := by decide

theorem witness_CommandWriteRefusesOrAccepts :
    let s := planned [access 0x008 4 (.write 0x00000101)] base
    let t := planned [access 0x008 4 (.write 0x00040003)] base
    (s.inReset = false ∧ s.seq.phase = .idle ∧
      s.env.schedule = .host ⟨s.cfg.base + 0x008, 4, .write 0x00000101⟩ :: [] ∧ refusalCode 0x00000101 s = some 2) ∧
    (t.inReset = false ∧ t.seq.phase = .idle ∧
      t.env.schedule = .host ⟨t.cfg.base + 0x008, 4, .write 0x00040003⟩ :: [] ∧ refusalCode 0x00040003 t = none) := by decide

theorem witness_CommandsKeepTheirInputs :
    ∃ t, exec (.rev 8) (running (.rev 8) base) = .next t ∧ (∀ p n, Instr.rev 8 ≠ .bdec p n) ∧
      ∀ p n r, Instr.rev 8 ≠ .send p n r :=
  ⟨_, rfl, nofun, nofun⟩

theorem witness_RegisterEffectsComeAtCompletion :
    (running (.rev 8) base).seq.phase = .run ∧
    (∃ t, exec (.rev 8) (running (.rev 8) base) = .next t ∧ t.seq.phase = .idle) ∧
    (∃ t, exec (.benc 0 8) (running (.benc 0 8) base) = .next t ∧ t.seq.phase = .run) :=
  ⟨rfl, ⟨_, rfl, rfl⟩, ⟨_, rfl, rfl⟩⟩

/-- A state that meets "running, no token pending", for the statements that ask no more: MATCH, MATCHAL, REV, PENC and
PCHK. -/
theorem witness_running :
    (running .matchWithin base).seq.phase = .run ∧ (running .matchWithin base).seq.pending = none := by decide

/-- 560 with the reset tolerance: T = 190 (V6); e = 0; no tolerance; TOL = 100. -/
theorem witness_MatcherCornerCases :
    ({ base with tolPct := 0, marginUs := 0 } : State).tolPct = 0 ∧
    ({ base with tolPct := 0, marginUs := 0 } : State).marginUs = 0 ∧
    100 ≤ ({ base with tolPct := 100 } : State).tolPct.toNat ∧ band base 0xFFFFFFFF < 2 ^ 32 - 1 ∧
    (750#32).toNat = (560#32).toNat + band base 560 ∧ (370#32).toNat + band base 560 = (560#32).toNat ∧
    (751#32).toNat = (560#32).toNat + band base 560 + 1 ∧ (369#32).toNat + band base 560 + 1 = (560#32).toNat := by decide

theorem witness_ReversalOfTheLowBits : (1 ≤ 1 ∧ 1 ≤ 64) ∧ (1 ≤ 64 ∧ 64 ≤ 64 ∧ 63 < 64) ∧ (1 ≤ 63 ∧ 63 < 64) := by decide

theorem witness_BencHandsOverTheBody :
    ∀ k ∈ [0, 1, 126, 127, 128], (atStep k (running (.benc 0 64) base)).seq.phase = .run ∧
      (atStep k (running (.benc 0 64) base)).seq.pending = none ∧ (atStep k (running (.benc 0 64) base)).seq.step = k := by
  decide

theorem witness_BencEmitsExactlyTheBody :
    let s := planned (rounds 17) (running (.benc 0 8) base)
    s.inReset = false ∧ s.seq.phase = .run ∧ s.seq.pending = none ∧ s.seq.cmd = encode (.benc 0 8) ∧ s.seq.step = 0 ∧
      s.env.schedule = rounds (2 * (8#7).toNat + 1) := by decide

/-- Whether every element was written depends on the capture and CAP_LEN alone. -/
theorem captured_of {s t : State} (h : s.captured) (h1 : t.capture = s.capture) (h2 : t.capLen = s.capLen) : t.captured := by
  intro i hi
  have := h i (h2 ▸ hi)
  rwa [capRead, h1]

theorem cap6_captured : (withCapture cap6 base).captured := by
  unfold State.captured
  decide

/-- A BDEC of the one bit of `cap6`. -/
def bdecoding : State := running (.bdec 0 1) { withCapture cap6 base with cursor := 2 }

theorem bdecoding_captured : bdecoding.captured := captured_of cap6_captured rfl rfl

/-- A body that ends below CAP_LEN and matches, with every element it reads written. -/
theorem witness_BdecDecodesTheBody :
    bdecoding.seq.phase = .run ∧ bdecoding.seq.pending = none ∧
      (∀ i, walkReads bdecoding (bdecoding.profile 0) bdecoding.cursor.toNat (1#7).toNat i →
        (capRead bdecoding i).isSome = true) ∧
      bdecoding.cursor.toNat + 2 * (1#7).toNat ≤ bdecoding.capLen.toNat ∧
      bodyMatches bdecoding (bdecoding.profile 0) bdecoding.cursor.toNat (1#7).toNat := by
  have fits : bdecoding.cursor.toNat + 2 * (1#7).toNat ≤ bdecoding.capLen.toNat := by decide
  refine ⟨rfl, rfl, fun i h => bdecoding_captured i (lt_of_lt_of_le (walkReads_bounds h).2 fits), fits, ?_⟩
  unfold bodyMatches
  decide

/-- V10's case for BDEC: nothing was written and the body does not fit. And a mark that does not match, behind which nothing
was written. -/
theorem witness_BdecDecodesTheBody_fails :
    (let s := running (.bdec 0 64) base;
      s.seq.phase = .run ∧ s.seq.pending = none ∧ (64#7).toNat ≤ 64 ∧
        ¬ s.cursor.toNat + 2 * (64#7).toNat ≤ s.capLen.toNat ∧ capRead s 0 = none) ∧
    (let s := running (.bdec 0 2) { withCapture [9000] base with capLen := 4 };
      s.cursor.toNat + 2 * (2#7).toNat ≤ s.capLen.toNat ∧ capRead s 1 = none ∧
        (∀ i, walkReads s (s.profile 0) s.cursor.toNat (2#7).toNat i → (capRead s i).isSome = true) ∧
        ¬ bodyMatches s (s.profile 0) s.cursor.toNat (2#7).toNat) := by
  refine ⟨by decide, by decide, by decide, ?_, by unfold bodyMatches; decide⟩
  rintro i ⟨j, -, hb, hi⟩
  cases j with
  | succ j => exact absurd (hb 0 (by omega)).1 (by decide)
  | zero =>
    rcases hi with rfl | ⟨-, hm⟩
    · decide
    · exact absurd hm (by decide)

/-- Frame 0 of a SEND of 8 bits, and frame 1, a SHORT repeat frame: every position, and the one after the last. -/
theorem witness_SendFollowsItsActionList :
    (∀ k ∈ [0, 1, 2, 3, 4, 5, 18, 19, 20, 21, 22, 23],
      let s := atStep k (running (.send 0 8 1) base)
      s.seq.phase = .run ∧ s.seq.pending = none ∧ s.seq.frame = 0 ∧ s.seq.step = k ∧ s.seq.frame < (1#12).toNat) ∧
    (∀ k ∈ [0, 1, 2, 3, 4, 5, 6],
      let s := atStep k (atFrame 1 (running (.send 0 8 1) base))
      s.seq.phase = .run ∧ s.seq.pending = none ∧ s.seq.frame = 1 ∧ (s.profile 0).rptMode ≠ 0 ∧ s.seq.step = k ∧
        (1#12).toNat ≤ s.seq.frame) := by decide

theorem witness_TrailingGapIsExact : nec.minFrame.toNat ≤ (108000#32).toNat := by decide

theorem witness_SendCompletesWithItsWaveform :
    let s := running (.send 3 64 4095) base
    s.inReset = false ∧ s.seq.phase = .run ∧ s.seq.pending = none ∧ s.seq.cmd = encode (.send 3 64 4095) ∧
      s.seq.frame = 0 ∧ s.seq.step = 0 := by decide

/-- A SEND of one bit of the all-zero profile, up to its completion at the 19th event. -/
theorem witness_SendEmitsNothingButItsWaveform :
    let s := planned (rounds 10) (running (.send 2 1 0) base)
    s.inReset = false ∧ s.seq.phase = .run ∧ s.seq.pending = none ∧ s.seq.cmd = encode (.send 2 1 0) ∧ s.seq.frame = 0 ∧
      s.seq.step = 0 ∧ .resetAssert ∉ s.env.schedule ∧ busyBefore 19 s = true ∧
      after (runFor 19 s) State.busy = some false := by decide

theorem witness_DecodeCompletion :
    let s := parsing .success 18 (running (.decode 0 false 8) base)
    let t := parsing .failure 0 (running (.decode 0 false 8) base)
    (s.seq.phase = .run ∧ s.seq.pending = none ∧ s.seq.parse = .success ∧ (s.profile 0).codec ≠ 3) ∧
      t.seq.phase = .run ∧ t.seq.pending = none ∧ t.seq.parse = .failure := by decide

/-- A running DECODE of one bit over a one-bit frame. -/
def decoding (strict : Bool) (st : ParseState) (c : Nat) : State :=
  parsing st c (running (.decode 0 strict 1) (withCapture cap6 base))

theorem decoding_captured (strict : Bool) (st : ParseState) (c : Nat) : (decoding strict st c).captured :=
  captured_of cap6_captured rfl rfl

theorem transitionReads_lt {strict : Bool} {st : ParseState} {c i : Nat} (hc : c + 2 ≤ 6)
    (h : transitionReads (decoding strict st c) ((decoding strict st c).profile 0) strict 1 i) : i < 6 := by
  cases st with
  | start =>
    obtain ⟨-, -, rfl | ⟨-, rfl⟩⟩ := h <;> omega
  | headerMatched =>
    have hb : i < c + 2 * (1#7).toNat := (walkReads_bounds h).2
    have h1 : (1#7).toNat = 1 := rfl
    omega
  | bodyMatched =>
    obtain hi | ⟨-, hi, -⟩ := h
    · change i = c at hi
      omega
    · change i = c + 1 at hi
      omega
  | footerMatched => cases h
  | compliant => cases h
  | nonStrictAccepted => cases h
  | success => cases h
  | failure => cases h

theorem witness_DecodeFollowsTheStateMachine :
    ∀ x ∈ [(ParseState.start, 0), (.headerMatched, 2), (.bodyMatched, 4), (.footerMatched, 4), (.compliant, 4),
        (.nonStrictAccepted, 4), (.success, 4), (.failure, 0)], ∀ strict : Bool,
      (decoding strict x.1 x.2).seq.phase = .run ∧ (decoding strict x.1 x.2).seq.pending = none ∧
        (decoding strict x.1 x.2).seq.parse = x.1 ∧ positionOk (.decode 0 strict 1) (decoding strict x.1 x.2) ∧
        ∀ i, transitionReads (decoding strict x.1 x.2) ((decoding strict x.1 x.2).profile 0) strict 1 i →
          (capRead (decoding strict x.1 x.2) i).isSome = true := by
  intro x hx strict
  have hc : x.2 + 2 ≤ 6 := by
    revert x
    decide
  refine ⟨rfl, rfl, rfl, ?_, fun i hi => decoding_captured _ _ _ i (transitionReads_lt hc hi)⟩
  clear hc
  revert x strict
  unfold positionOk
  decide

/-- A BDEC whose second pair's mark, or whose first pair's space, was never written; a DECODE at each element it reads. -/
theorem witness_UnwrittenElementFaults :
    (let s := running (.bdec 0 2) { withCapture [560, 1690] base with capLen := 4 };
      s.seq.phase = .run ∧ s.seq.pending = none ∧ s.cursor.toNat + 2 * (2#7).toNat ≤ s.capLen.toNat ∧
        walkStopsAt s (s.profile 0) s.cursor.toNat (2#7).toNat 2) ∧
    (let s := running (.bdec 0 1) { withCapture [560] base with capLen := 2 };
      s.cursor.toNat + 2 * (1#7).toNat ≤ s.capLen.toNat ∧ walkStopsAt s (s.profile 0) s.cursor.toNat (1#7).toNat 1) ∧
    (let s := running (.decode 0 false 1) { base with capLen := 5 };
      s.seq.parse = .start ∧ 2 * (1#7).toNat + 3 ≤ s.capLen.toNat ∧ capRead s 0 = none) ∧
    (let s := running (.decode 0 true 32) { withCapture [9000] base with capLen := 68 };
      32#7 = (s.profile 0).nbitsCanon ∧ 2 * (32#7).toNat + 3 ≤ s.capLen.toNat ∧ (capRead s 0).isSome = true ∧
        durMatches s (element s 0) (s.profile 0).hdrMark = true ∧ capRead s 1 = none) ∧
    (let s := parsing .headerMatched 2 (running (.decode 0 false 1) { withCapture [9000, 4500] base with capLen := 5 });
      s.seq.parse = .headerMatched ∧ walkStopsAt s (s.profile 0) s.seq.cur (1#7).toNat 2) ∧
    (let s := parsing .bodyMatched 4 (running (.decode 0 false 1) { withCapture [9000, 4500, 560, 1690] base with capLen := 6 });
      s.seq.parse = .bodyMatched ∧ capRead s s.seq.cur = none) ∧
    (let s := parsing .bodyMatched 4
        (running (.decode 0 false 1) { withCapture [9000, 4500, 560, 1690, 560] base with capLen := 6 });
      s.seq.parse = .bodyMatched ∧ (capRead s s.seq.cur).isSome = true ∧
        durMatches s (element s s.seq.cur) (s.profile 0).ftrMark = true ∧ s.seq.cur + 1 < s.capLen.toNat ∧
        capRead s (s.seq.cur + 1) = none) := by
  refine ⟨⟨rfl, rfl, by decide, by decide, ?_, 1, ?_⟩, ⟨by decide, by decide, ?_, 0, ?_⟩, by decide, by decide,
    ⟨rfl, by decide, ?_, 0, ?_⟩, by decide, by decide⟩
  · intro i _ hi
    interval_cases i <;> decide
  · unfold bodyMatches; decide
  · intro i _ hi
    interval_cases i; decide
  · unfold bodyMatches; decide
  · intro i h1 h2
    exact absurd h2 (by change 2 ≤ i at h1; omega)
  · unfold bodyMatches; decide

/-- The one-bit frame is accepted by a non-strict DECODE of one bit, and by a strict one where the canonical count is 1
and the codec NONE. -/
theorem witness_DecodeAcceptsExactlyItsFrames :
    (let s := decoding false .start 0;
      s.inReset = false ∧ s.seq.phase = .run ∧ s.seq.pending = none ∧ s.seq.cmd = encode (.decode 0 false 1) ∧
        s.seq.parse = .start ∧ s.env.schedule = [] ∧ 1 ≤ (1#7).toNat ∧ (1#7).toNat ≤ 64 ∧ (s.profile 0).codec ≠ 3 ∧
        (∀ i, frameReads s (s.profile 0) false 1 i → (capRead s i).isSome = true) ∧ frameMatches s (s.profile 0) 1) ∧
    (let s := (decoding true .start 0).setProfile 0 { nec with nbitsCanon := 1, codec := 0 };
      1#7 = (s.profile 0).nbitsCanon ∧ complies (s.profile 0).codec 1 ∧ frameMatches s (s.profile 0) 1) := by
  refine ⟨⟨rfl, rfl, rfl, rfl, rfl, rfl, by decide, by decide, by decide, fun i h => decoding_captured _ _ _ i ?_, ?_⟩,
    rfl, ⟨by decide, by decide⟩, ?_⟩
  · change i < 6
    have h1 : (1 : BitVec 7).toNat = 1 := rfl
    obtain ⟨-, -, rfl | ⟨-, rfl | ⟨-, hw | ⟨-, rfl | ⟨-, rfl, -⟩⟩⟩⟩⟩ := h
    · omega
    · omega
    · have := (walkReads_bounds hw).2
      omega
    · omega
    · omega
  · unfold frameMatches bodyMatches
    decide
  · unfold frameMatches bodyMatches
    decide

/-- Captures with nothing written: too short (V10), and long enough with a strict count that is not the canonical one (X13). -/
theorem witness_DecodeAcceptsExactlyItsFrames_fails :
    (let s := running (.decode 0 false 32) { base with capLen := 66 };
      s.seq.parse = .start ∧ s.env.schedule = [] ∧ (∀ i, frameReads s (s.profile 0) false 32 i → (capRead s i).isSome = true) ∧
        capRead s 0 = none) ∧
    (let s := running (.decode 0 true 16) { base with capLen := 68 };
      s.seq.parse = .start ∧ s.env.schedule = [] ∧ (∀ i, frameReads s (s.profile 0) true 16 i → (capRead s i).isSome = true) ∧
        capRead s 0 = none) :=
  ⟨⟨rfl, rfl, fun _ h => absurd h.2.1 (by decide), by decide⟩, rfl, rfl, fun _ h => absurd (h.1 rfl) (by decide), by decide⟩

theorem witness_DecodeInvertsSend :
    let s := parsing .start 0 (running (.decode 0 false 1) (withCapture [9000, 4500, 560, 1690, 560, 108000] base))
    s.inReset = false ∧ s.seq.phase = .run ∧ s.seq.pending = none ∧ s.seq.cmd = encode (.decode 0 false 1) ∧
      s.seq.parse = .start ∧ s.env.schedule = [] ∧ 1 ≤ (1#7).toNat ∧ (1#7).toNat ≤ 64 ∧ (s.profile 0).codec ≠ 3 ∧
      distinguishable s (s.profile 0) ∧ s.capLen.toNat = 2 * (1#7).toNat + 4 ∧
      ∀ i tok, (wireFrame (s.profile 0) 1 (1#7).toNat 0 0)[i]? = some tok → capRead s i = some tok.dur := by
  refine ⟨rfl, rfl, rfl, rfl, rfl, rfl, by decide, by decide, by decide, ?_, rfl, ?_⟩
  · unfold distinguishable
    decide
  · intro i tok h
    match i with
    | 0 => cases h; decide
    | 1 => cases h; decide
    | 2 => cases h; decide
    | 3 => cases h; decide
    | 4 => cases h; decide
    | 5 => cases h; decide
    | i + 6 => cases h

/-- Captures that differ at element 6, behind the frame and behind CAP_LEN. -/
theorem witness_CaptureBeyondItsLengthIsNotRead :
    let s := decoding false .start 0
    let m := (capWrite s 6 5).capture
    s.seq.phase = .run ∧ s.seq.pending = none ∧ positionOk (.decode 0 false 1) s ∧
      (∀ j, j < s.capLen.toNat → capRead { s with capture := m } j = capRead s j) ∧
      (∀ j, j < 2 * (1#7).toNat + 4 → capRead { s with capture := m } j = capRead s j) ∧
      (∃ t, exec (.decode 0 false 1) s = .next t) ∧ m ≠ s.capture := by
  refine ⟨rfl, rfl, ?_, by decide, by decide, ⟨_, rfl⟩, by decide⟩
  unfold positionOk
  decide

/-- X6: the frame alone, and the same frame followed by one more element. -/
theorem witness_DecodeIgnoresWhatFollowsTheGap :
    let s := decoding false .start 0
    s.seq.phase = .run ∧ s.seq.pending = none ∧ positionOk (.decode 0 false 1) s ∧
      (∀ j, j < 2 * (1#7).toNat + 4 → capRead { s with capture := (capWrite s 6 5).capture } j = capRead s j) ∧
      2 * (1#7).toNat + 4 ≤ (7#32).toNat ∧ 2 * (1#7).toNat + 4 ≤ s.capLen.toNat ∧
      (∃ t, exec (.decode 0 false 1) s = .next t) := by
  refine ⟨rfl, rfl, ?_, by decide, by decide, by decide, ⟨_, rfl⟩⟩
  unfold positionOk
  decide

theorem witness_PencBuildsThePayload :
    let s := fun w => running (.penc 0) { base with opLo := w }
    let t := running (.penc 1) { base with opLo := 0x000201FF }
    (s 0x000000FF).seq.phase = .run ∧ (s 0x000000FF).seq.pending = none ∧ ((s 0x000000FF).profile 0).codec = 1 ∧
      ((s 0x000000FF).opLo.extractLsb' 0 16).toNat ≤ 0xFF ∧ 0xFF < ((s 0x00000100).opLo.extractLsb' 0 16).toNat ∧
      t.seq.phase = .run ∧ t.seq.pending = none ∧ (t.profile 1).codec = 2 := by decide

/-- K9 and K11. -/
theorem witness_PchkChecksThePayload :
    let s := fun v => running (.pchk 0 true 32) (withOp v base)
    (s 0xC1A28877).seq.phase = .run ∧ (s 0xC1A28877).seq.pending = none ∧ ((s 0xC1A28877).profile 0).codec ≠ 3 ∧
      32#7 = ((s 0xC1A28877).profile 0).nbitsCanon ∧ complies ((s 0xC1A28877).profile 0).codec (s 0xC1A28877).op ∧
      ¬ complies ((s 0xC1A28878).profile 0).codec (s 0xC1A28878).op := by
  refine ⟨rfl, rfl, by decide, by decide, ⟨by decide, by decide⟩, fun h => absurd (h.1 (by decide)) (by decide)⟩

theorem witness_CodecsReadBackWhatTheyWrite : (0xFF#16).toNat ≤ 0xFF ∧ 0xFF < (0x100#16).toNat := by decide

theorem witness_WritesAreLostWhileBusy :
    (∀ off ∈ [0x0000, 0x1FFC],
      let s := planned [access off 4 (.write 5)] (running (.rev 8) base)
      s.inReset = false ∧ s.seq.phase = .run ∧ off < 0x2000 ∧ off % 4 = 0 ∧
        s.env.schedule = .host ⟨s.cfg.base + off, 4, .write 5⟩ :: []) ∧
    (∀ i ∈ [0, 1023],
      let s := planned [.collaborator (.element i 5)] (running (.rev 8) base)
      (CaptureWrite.element i 5).offset < 0x2000 ∧ s.env.schedule = .collaborator (.element i 5) :: []) ∧
    (let s := planned [access 0x00C 4 .read] (running (.rev 8) base);
      s.env.schedule = .host ⟨s.cfg.base + 0x00C, 4, .read⟩ :: [] ∧ readRegister s (regAt s.cfg 0x00C) = some 25) := by decide

/-- The idle block, unlocked and locked, for the statements about register reads and writes. -/
theorem witness_idle :
    base.seq.phase = .idle ∧ base.lock = false ∧ ({ base with lock := true } : State).seq.phase = .idle ∧
      ({ base with lock := true } : State).lock = true ∧
      (0x1E8 : Nat) = 0x100 + 0x40 * (3#2).toNat + ProfReg.carrier.offset := by decide

theorem witness_ReservedReadOnlyAndUnmapped :
    base.seq.phase = .idle ∧
    ∀ off ∈ [0x040, 0x0FC, 0x12C, 0x1FC, 0x200, 0xFFC], off % 4 = 0 ∧
      ((0x040 ≤ off ∧ off < 0x100) ∨ (0x100 ≤ off ∧ off < 0x200 ∧ 0x2C ≤ off % 0x40) ∨ (0x200 ≤ off ∧ off < 0x1000) ∨
        (0x1000 + 4 * base.cfg.capDepth ≤ off ∧ off < 0x2000)) := by decide

/-- With CAP_DEPTH = 131 the capture ends at 0x120B. -/
theorem witness_UnmappedBehindTheCapture :
    0x1000 + 4 * ({ base with cfg := ⟨131, 0, true⟩ } : State).cfg.capDepth ≤ 0x120C ∧ 0x120C < 0x2000 := by decide

theorem witness_LockFreezesTheConfigurationUntilReset :
    let s := planned [access 0x00C 4 (.write 10)] { base with lock := true }
    s.lock = true ∧ .resetAssert ∉ s.env.schedule ∧ ∃ t, runFor 1 s = .next t :=
  ⟨rfl, by decide, ⟨_, rfl⟩⟩

theorem witness_MisalignedAndNarrowAccesses :
    (∀ x ∈ [(0x0001, 4), (0x1FFF, 4), (0x0000, 1), (0x1FFC, 8)], ∀ b : Bool,
      let s := planned [access x.1 x.2 .read] { base with cfg := ⟨1024, 0, b⟩ }
      s.inReset = false ∧ x.1 < 0x2000 ∧ (x.1 % 4 ≠ 0 ∨ x.2 ≠ 4) ∧ s.cfg.busErrors = b ∧
        s.env.schedule = .host ⟨s.cfg.base + x.1, x.2, .read⟩ :: []) := by decide

/-- A register and a capture element never written. -/
theorem witness_ReadsHaveNoSideEffect :
    ∀ off ∈ [0x0000, 0x1FFC],
      let s := planned [access off 4 .read] base
      s.inReset = false ∧ off < 0x2000 ∧ off % 4 = 0 ∧ s.env.schedule = .host ⟨s.cfg.base + off, 4, .read⟩ :: [] := by decide

theorem witness_ReadOfARegister : readRegister base (regAt base.cfg 0x00C) = some 25 := by decide

theorem witness_CaptureWriteStoresOneElement :
    ∀ i ∈ [0, 1023],
      let s := planned [access (0x1000 + 4 * i) 4 (.write 560)] base
      let t := planned [.collaborator (.element i 560)] base
      s.cfg.wf = true ∧ s.inReset = false ∧ s.seq.phase = .idle ∧ i < s.cfg.capDepth ∧ Memory.wf s.capture = true ∧
        s.env.schedule = .host ⟨s.cfg.base + (0x1000 + 4 * i), 4, .write 560⟩ :: [] ∧ t.cfg.wf = true ∧ t.inReset = false ∧
        t.seq.phase = .idle ∧ t.env.schedule = .collaborator (.element i 560) :: [] := by decide

/-- The driver completes a token; a SEND issues its carrier event. -/
theorem witness_TracesGrowOnlyByTheirAgents :
    (∃ t, step (planned [.driver] ((running (.benc 0 8) base).setSeq
        { (running (.benc 0 8) base).seq with pending := some ⟨.mark, 560⟩ })) = .next t ∧ t.env.tokens = [⟨.mark, 560⟩]) ∧
    (∃ t, step (planned [.sequencer] (running (.send 0 8 0) base)) = .next t ∧ t.env.carriers = [⟨38, 33⟩]) :=
  ⟨⟨_, rfl, rfl⟩, ⟨_, rfl, rfl⟩⟩

theorem witness_ClockIsMonotone :
    (∃ t, step (planned [.clockTick 7] base) = .next t ∧ t.env.clockResets = (planned [.clockTick 7] base).env.clockResets ∧
      t.env.clock = 7) ∧
    base.env.clock.toNat ≤ (0xFFFFFFFF#32).toNat :=
  ⟨⟨_, rfl, rfl, rfl⟩, by decide⟩

theorem witness_StalledDriverKeepsTheBlockBusy :
    let s := planned [.sequencer, access 0x014 4 (.write 5)] ((running (.benc 0 8) base).setSeq
      { (running (.benc 0 8) base).seq with pending := some ⟨.mark, 560⟩ })
    s.seq.phase = .run ∧ s.seq.pending = some ⟨.mark, 560⟩ ∧ .driver ∉ s.env.schedule ∧ .resetAssert ∉ s.env.schedule := by
  decide

/-- A BENC still BUSY after a lost write, and a BDEC whose first step completes it. -/
theorem witness_InputsAreFrozenWhileBusy :
    (let s := planned [access 0x020 4 (.write 5), .sequencer] (running (.benc 0 8) base);
      s.inReset = false ∧ .resetAssert ∉ s.env.schedule ∧ busyBefore 2 s = true ∧
        after (runFor 2 s) State.busy = some true) ∧
    (let s := planned [access 0x020 4 (.write 5), .sequencer] bdecoding;
      s.inReset = false ∧ .resetAssert ∉ s.env.schedule ∧ busyBefore 2 s = true ∧
        after (runFor 2 s) (fun t => (t.busy, t.cursor)) = some (false, 4)) := by decide

theorem witness_ResetValues :
    (planned [.resetAssert, .resetRelease] (running (.send 0 8 0) base)).env.schedule =
      .resetAssert :: .resetRelease :: [] := rfl

/-- The programmed block meets the invariant. -/
theorem base_inv : base.Inv where
  cfg := by decide
  memory := by decide
  whole := nofun
  idle := fun _ => rfl
  running := nofun
  error := by decide
  bits := by decide
  reset := nofun

/-- So does the block held in reset. -/
theorem witness_AssertedResetHoldsTheBlock :
    let s := planned [.sequencer] (assertReset base)
    s.Inv ∧ s.inReset = true ∧ ∀ es, s.env.schedule ≠ .resetRelease :: es :=
  ⟨{ cfg := by decide
     memory := by decide
     whole := nofun
     idle := fun _ => rfl
     running := nofun
     error := by decide
     bits := by decide
     reset := fun _ => rfl }, rfl, nofun⟩

theorem witness_HostLinesRunAsBusAccesses :
    ∀ l ∈ [HostLine.wr 0x014 5, .rd 0x014, .wait],
      let s := planned [.hostLine] { base with env := { base.env with program := [l] } }
      s.inReset = false ∧ s.env.schedule = .hostLine :: [] ∧ s.env.program = l :: [] := by decide

theorem witness_StepKeepsTheInvariant : base.Inv ∧ ∃ t, step base = .next t := ⟨base_inv, ⟨_, rfl⟩⟩

/-- A running BDEC over a capture with nothing written meets the invariant and faults; the programmed block with an empty
capture is `captured`. -/
theorem witness_OnlyAnUnwrittenElementStopsTheMachine :
    (running (.bdec 0 1) { base with capLen := 2 }).Inv ∧
    step (running (.bdec 0 1) { base with capLen := 2 }) = .fault (.unwrittenCapture 0) ∧ base.captured :=
  ⟨{ cfg := by decide
     memory := by decide
     whole := nofun
     idle := nofun
     running := fun _ => ⟨.bdec 0 1, by decide, by decide, rfl, rfl, rfl, rfl⟩
     error := by decide
     bits := by decide
     reset := nofun }, rfl, fun i h => absurd h (Nat.not_lt_zero i)⟩

theorem witness_AcceptedQuickCommandsComplete :
    base.Inv ∧
    ∀ i ∈ [Instr.matchWithin, .matchAtLeast, .rev 64, .penc 0, .pchk 0 true 1],
      let s := planned [access 0x008 4 (.write (encode i))] base
      s.inReset = false ∧ s.seq.phase = .idle ∧ acceptanceError i s = none ∧
        s.env.schedule = [.host ⟨s.cfg.base + 0x008, 4, .write (encode i)⟩] :=
  ⟨base_inv, by decide⟩

/-- A read of the last profile register, of CMD, and of a result register. -/
theorem witness_RegistersReadTheirValues :
    ∀ x ∈ [(0x1E8, 0#32), (0x008, 0#32), (0x03C, 0#32)],
      let s := planned [access x.1 4 .read] base
      s.inReset = false ∧ s.env.schedule = .host ⟨s.cfg.base + x.1, 4, .read⟩ :: [] ∧
        (x.1 = 0x128 + 0x40 * (3#2).toNat ∧ x.2 = 0#8 ++ (s.profile 3).dutyPct ++ (s.profile 3).freqKhz ∨ x = (0x008, 0#32) ∨
          x = (0x03C, 0#24 ++ s.res.proto)) := by decide

theorem witness_WritesReachTheirRegister :
    (∀ off ∈ [0x0000, 0x1FFC],
      let s := planned [access off 4 (.write 5)] base
      s.inReset = false ∧ off < 0x2000 ∧ off % 4 = 0 ∧ s.env.schedule = .host ⟨s.cfg.base + off, 4, .write 5⟩ :: []) ∧
    (∀ i ∈ [0, 1023],
      let s := planned [.collaborator (.element i 5)] base
      s.inReset = false ∧ 0x1000 + 4 * i < 0x2000 ∧ s.env.schedule = .collaborator (.element i 5) :: []) ∧
    (let s := planned [.collaborator (.length 20)] base;
      s.inReset = false ∧ s.seq.phase = .idle ∧ s.env.schedule = .collaborator (.length 20) :: []) ∧
    (∀ a ∈ [0x0FFF, 0x3000],
      let s := planned [access a 4 .read] { base with cfg := ⟨1024, 0x1000, true⟩ }
      s.inReset = false ∧ (a < s.cfg.base ∨ s.cfg.base + 0x2000 ≤ a) ∧ s.env.schedule = .host ⟨a, 4, .read⟩ :: []) := by
  decide

end Sys2Proof.Tests
end

/-! ## A command's word decodes to it (30_encoding.md R80 to R83) -/

namespace Sys2Proof

/-- A mask with both reserved bits set selects from a command word the masked fields. -/
theorem commandWord_and (op mop : BitVec 8) (p mp : BitVec 2) (s ms : Bool) (n mn : BitVec 7) (r mr : BitVec 12) :
    commandWord op p s n r &&& (mr ++ 1#1 ++ mn ++ 1#1 ++ BitVec.ofBool ms ++ mp ++ mop) =
      commandWord (op &&& mop) (p &&& mp) (s && ms) (n &&& mn) (r &&& mr) := by
  refine (BitVec.and_append (w := 12 + 1 + 7 + 1 + 1 + 2)).trans (congrArg (· ++ (op &&& mop)) ?_)
  simp only [BitVec.and_append, BitVec.ofBool_and_ofBool]
  rfl

theorem commandOf_encode (i : Instr) : commandOf (encode i) = some i := by
  cases i <;> simp [commandOf, encode]

/-- A mask that keeps OP and the reserved bits, and meets no field bit that is set, leaves only the opcode. -/
theorem commandWord_and_mask {op : BitVec 8} {p : BitVec 2} {s : Bool} {n : BitVec 7} {r : BitVec 12} {m : Word}
    (mp : BitVec 2) (ms : Bool) (mn : BitVec 7) (mr : BitVec 12)
    (hm : mr ++ 1#1 ++ mn ++ 1#1 ++ BitVec.ofBool ms ++ mp ++ 0xFF#8 = m)
    (hz : p &&& mp = 0 ∧ (s && ms) = false ∧ n &&& mn = 0 ∧ r &&& mr = 0) :
    commandWord op p s n r &&& m = commandWord op 0 false 0 0 := by
  obtain ⟨hp, hs, hn, hr⟩ := hz
  rw [← hm, commandWord_and, hp, hs, hn, hr, show op &&& 0xFF#8 = op from BitVec.and_allOnes]

/-- The encoding of a command meets its row of R83. -/
theorem encode_and_mask (i : Instr) : encode i &&& (rowOf i).mask = (rowOf i).pattern := by
  cases i with
  | matchWithin => decide
  | matchAtLeast => decide
  | rev n => exact commandWord_and_mask 3 true 0 (-1) rfl (by simp)
  | benc p n => exact commandWord_and_mask 0 true 0 (-1) rfl (by simp)
  | bdec p n => exact commandWord_and_mask 0 true 0 (-1) rfl (by simp)
  | send p n r => exact commandWord_and_mask 0 true 0 0 rfl (by simp)
  | decode p b n => exact commandWord_and_mask 0 false 0 (-1) rfl (by simp)
  | penc p => exact commandWord_and_mask 0 true (-1) (-1) rfl (by simp)
  | pchk p b n => exact commandWord_and_mask 0 false 0 (-1) rfl (by simp)

theorem decode_encode (i : Instr) : decode (encode i) = .ok i := by
  simp only [decode, commandOf_encode, encode_and_mask, if_pos]

end Sys2Proof

/-! ## The invariant of the block

The facts of `State.Inv` one part at a time, then one lemma for each effect a step can have (`StepEffect`). -/

namespace Sys2Proof.Machine

/-! ### The error bits of STATUS (10_state.md R27, R28) -/

/-- ERR is set exactly with a code, one of 1 to 6, and excludes OK: what `State.Inv` asks of STATUS. -/
def Status.Consistent (st : Status) : Prop :=
  (st.err = true ↔ st.errcode ≠ 0) ∧ st.errcode.toNat ≤ 6 ∧ (st.err = true → st.ok = false)

theorem Status.consistent_cleared (st : Status) : st.cleared.Consistent := by
  simp [Consistent, cleared]

theorem Status.consistent_refused (st : Status) (e : CmdError) : (st.refused e).Consistent := by
  cases e <;> simp [Consistent, refused, errCode]

theorem Status.Consistent.hostWrite {st : Status} (h : st.Consistent) (v : Word) : (st.hostWrite v).Consistent := by
  obtain ⟨hcode, hmax, hok⟩ := h
  cases hv : v.getLsbD 3 with
  | false =>
    simp only [Consistent, Status.hostWrite, hv, Bool.not_false, Bool.and_true, Bool.false_eq_true, if_false]
    exact ⟨hcode, hmax, hok⟩
  | true => simp [Consistent, Status.hostWrite, hv]

/-- A completion comes with ERR clear, so OK may take either value. -/
theorem Status.Consistent.completed {st : Status} (h : st.Consistent) (he : st.err = false) (ok : Bool) :
    (st.completed ok).Consistent :=
  ⟨h.1, h.2.1, fun h1 => absurd (he.symm.trans h1) Bool.false_ne_true⟩

/-! ### What the acceptance checks look at -/

theorem State.profile_congr {s t : State} (h : t.profiles = s.profiles) (p : BitVec 2) : t.profile p = s.profile p := by
  simp only [State.profile, h]

/-- The checks of 60_exceptions.md R200 read CAP_DEPTH, CAP_LEN and the profile banks alone. -/
theorem acceptanceError_congr {s t : State} (hcfg : t.cfg = s.cfg) (hlen : t.capLen = s.capLen)
    (hprof : t.profiles = s.profiles) (i : Instr) : acceptanceError i t = acceptanceError i s := by
  cases i <;> simp only [acceptanceError, checkProfile, checkCodec, checkCapLen, State.profile_congr hprof, hcfg, hlen]

theorem checkNbits_eq_none {n : BitVec 7} : checkNbits n = none ↔ nbitsLegal n = true := by
  simp [checkNbits]

/-- An accepted command has NBITS in range (30_encoding.md R91). -/
theorem wf_of_acceptanceError_none {i : Instr} {s : State} (h : acceptanceError i s = none) : i.wf = true := by
  cases i <;> simp_all [acceptanceError, Instr.wf, checkNbits_eq_none]

/-- A running command stays one where its inputs, the sequencer and the outcome bits stay. -/
theorem runningOk_congr {s t : State} (h : runningOk s) (hcfg : t.cfg = s.cfg) (hlen : t.capLen = s.capLen)
    (hprof : t.profiles = s.profiles) (hop : t.op = s.op) (hseq : t.seq = s.seq) (hdone : t.status.done = s.status.done)
    (hok : t.status.ok = s.status.ok) (herr : t.status.err = s.status.err) : runningOk t := by
  obtain ⟨i, hd, ha, hpos, hs⟩ := h
  refine ⟨i, by rwa [hseq], by rwa [acceptanceError_congr hcfg hlen hprof], ?_, by rwa [hdone, hok, herr]⟩
  cases i <;> simpa only [positionOk, State.profile_congr hprof, hseq, hop, hlen] using hpos

/-! ### Acceptance -/

theorem present_accepted {i : Instr} {s : State} (h : acceptanceError i s = none) : present i s = accept i s := by
  simp [present, h]

/-- A command starts at a possible position (10_state.md R23). -/
theorem positionOk_accept (i : Instr) {s : State} (hp : s.seq.pending = none) : positionOk i (accept i s) := by
  cases i <;> simp [positionOk, accept, Sequencer.started, hp]

theorem runningOk_accept {i : Instr} {s : State} (hp : s.seq.pending = none) (ha : acceptanceError i s = none) :
    runningOk (accept i s) :=
  ⟨i, decode_encode i, (acceptanceError_congr rfl rfl rfl i).trans ha, positionOk_accept i hp, rfl, rfl, rfl⟩

/-! ### SEND's actions -/

/-- Where a performed action leaves the sequencer: one position on, in the same frame of the same command. -/
theorem perform_eq (f : Profile) (s : State) (a : Action) :
    ∃ e pd el, perform f s a =
      (s.setEnv e).setSeq { s.seq with pending := pd, elapsed := el, step := s.seq.step + 1 } := by
  cases a with
  | carrier k d => exact ⟨_, _, _, rfl⟩
  | clockReset => exact ⟨_, _, _, rfl⟩
  | emit t => exact ⟨s.env, _, _, rfl⟩
  | clockRead => exact ⟨s.env, _, _, rfl⟩
  | emitGap => exact ⟨s.env, _, _, rfl⟩

/-! ### Building the invariant -/

namespace State.Inv

variable {s t : State}

/-- Outside reset, with the parameters and the capture RAM as they were, four facts are left to show. -/
theorem of_same_memory (h : s.Inv) (hcfg : t.cfg = s.cfg) (hcap : t.capture = s.capture) (hr : t.inReset = false)
    (hidle : t.seq.phase = .idle → t.seq.pending = none) (hrun : t.seq.phase = .run → runningOk t)
    (herr : t.status.Consistent) (hbits : t.res.bits.toNat ≤ 64) : t.Inv where
  cfg := hcfg ▸ h.cfg
  memory := hcap ▸ h.memory
  whole := by simpa only [captureWhole, hcfg, hcap] using h.whole
  idle := hidle
  running := hrun
  error := herr
  bits := hbits
  reset := fun e => absurd (hr.symm.trans e) Bool.false_ne_true

/-- An idle block has no running command to speak of. -/
theorem of_idle (h : s.Inv) (hcfg : t.cfg = s.cfg) (hcap : t.capture = s.capture) (hr : t.inReset = false)
    (hp : t.seq.phase = .idle) (hn : t.seq.pending = none) (herr : t.status.Consistent)
    (hbits : t.res.bits.toNat ≤ 64) : t.Inv :=
  h.of_same_memory hcfg hcap hr (fun _ => hn) (fun e => by simp [hp] at e) herr hbits

/-- What lies outside the block is not part of the invariant. -/
theorem setEnv (h : s.Inv) (e : Environment) : (s.setEnv e).Inv where
  cfg := h.cfg
  memory := h.memory
  whole := h.whole
  idle := h.idle
  running := fun hp => runningOk_congr (h.running hp) rfl rfl rfl rfl rfl rfl rfl rfl
  error := h.error
  bits := h.bits
  reset := fun hr => congrArg (State.setEnv · e) (h.reset hr)

/-- A running command goes on: the word stays and the new position is a possible one. -/
theorem goOn {i : Instr} {e : Environment} {q : Sequencer} (h : s.Inv) (hr : s.inReset = false)
    (hp : s.seq.phase = .run) (hd : decode s.seq.cmd = .ok i) (hq : q.phase = .run) (hc : q.cmd = s.seq.cmd)
    (hpos : positionOk i ((s.setEnv e).setSeq q)) : ((s.setEnv e).setSeq q).Inv := by
  obtain ⟨j, hj, ha, -, hs⟩ := h.running hp
  obtain rfl : i = j := by simpa [hd] using hj
  refine h.of_same_memory rfl rfl hr (fun e => by simp [hq] at e) (fun _ => ?_) h.error h.bits
  exact ⟨i, hc ▸ hd, (acceptanceError_congr rfl rfl rfl i).trans ha, hpos, hs⟩

/-! ### The sequencer's step -/

/-- A running DECODE stands where its parser state says. -/
theorem decode_position (h : s.Inv) (hp : s.seq.phase = .run) {p : BitVec 2} {b : Bool} {n : BitVec 7}
    (hd : decode s.seq.cmd = .ok (.decode p b n)) (hs : s.seq.parse = .headerMatched) :
    s.seq.cur = 2 ∧ 2 * n.toNat + 3 ≤ s.capLen.toNat := by
  obtain ⟨i, hi, -, hpos, -⟩ := h.running hp
  obtain rfl : .decode p b n = i := by simpa [hd] using hi
  exact hpos.2.1 hs

/-- A step of the running command keeps the invariant. -/
theorem runStep {i : Instr} (h : s.Inv) (hr : s.inReset = false) (hp : s.seq.phase = .run) (hn : s.seq.pending = none)
    (hd : decode s.seq.cmd = .ok i) (hs : RunStep i s t) : t.Inv := by
  obtain ⟨j, hj, hacc, hpos, -, -, herr⟩ := h.running hp
  obtain rfl : i = j := by simpa [hd] using hj
  have hwf := wf_of_acceptanceError_none hacc
  have hst : ∀ ok, (s.status.completed ok).Consistent := Status.Consistent.completed h.error herr
  cases hs with
  | complete ok r hb => exact h.of_idle rfl rfl hr rfl hn (hst ok) (hb hwf)
  | completeBdec p n v c hi hw =>
    subst hi
    exact h.of_idle rfl rfl hr rfl hn (hst true) (nbitsLegal_le hwf)
  | benc p n k hi hk =>
    subst hi
    have hlt := (List.getElem?_eq_some_iff.1 hk).1
    rw [bodyTokens_length] at hlt
    exact h.goOn (e := s.env) hr hp hd hp rfl hlt
  | send p n r a hi ha =>
    subst hi
    have hlt := (List.getElem?_eq_some_iff.1 ha).1
    obtain ⟨e, pd, el, he⟩ := perform_eq (s.profile p) s a
    rw [he]
    exact h.goOn hr hp hd hp rfl ⟨hpos.1, hlt⟩
  | nextFrame p n r hi hf =>
    subst hi
    exact h.goOn (e := s.env) hr hp hd hp rfl ⟨hf, Nat.zero_le _⟩
  | parse p b n st c v hi hh hb =>
    subst hi
    refine h.goOn (e := s.env) hr hp hd hp rfl ⟨hn, hh, fun hst => ?_⟩
    obtain ⟨hw, hs⟩ := hb hst
    obtain ⟨hcur, hlen⟩ := h.decode_position hp hd hs
    exact ⟨by simp [bitDecode_matched hw, hcur, Nat.add_comm], hlen⟩
  | stay p hi hc => exact h

theorem exec {i : Instr} (h : s.Inv) (hr : s.inReset = false) (hp : s.seq.phase = .run)
    (hd : decode s.seq.cmd = .ok i) (he : exec i s = .next t) : t.Inv := by
  rcases exec_cases he with ⟨hidle, -⟩ | ⟨-, -, rfl⟩ | ⟨-, hn, hs⟩
  · simp [hp] at hidle
  · exact h
  · exact h.runStep hr hp hn hd hs

/-! ### The other agents -/

/-- The driver's completion of the pending token: a position with a token pending is one without, too. -/
theorem driver (h : s.Inv) (hr : s.inReset = false) (e : Environment) :
    ((s.setEnv e).setSeq { s.seq with pending := none }).Inv := by
  refine h.of_same_memory rfl rfl hr (fun _ => rfl) (fun hp => ?_) h.error h.bits
  obtain ⟨i, hd, ha, hpos, hs⟩ := h.running hp
  refine ⟨i, hd, (acceptanceError_congr rfl rfl rfl i).trans ha, ?_, hs⟩
  cases i with
  | benc p n => exact hpos
  | send p n r => exact hpos
  | decode p b n => exact ⟨rfl, hpos.2⟩
  | _ => rfl

/-- WIGN is not part of the invariant. -/
theorem loseWrite (h : s.Inv) (hr : s.inReset = false) : (loseWrite s).Inv :=
  h.of_same_memory rfl rfl hr h.idle (fun hp => runningOk_congr (h.running hp) rfl rfl rfl rfl rfl rfl rfl rfl)
    h.error h.bits

theorem assertReset (h : s.Inv) : (assertReset s).Inv where
  cfg := h.cfg
  memory := rfl
  whole := nofun
  idle := fun _ => rfl
  running := nofun
  error := Status.consistent_cleared s.status
  bits := Nat.zero_le _
  reset := fun _ => rfl

theorem releaseReset (h : s.Inv) : (releaseReset s).Inv :=
  h.of_same_memory rfl rfl rfl h.idle (fun hp => runningOk_congr (h.running hp) rfl rfl rfl rfl rfl rfl rfl rfl)
    h.error h.bits

/-! ### Register writes of an idle block -/

/-- A write of a lockable register, taken or lost (10_state.md R38). -/
theorem lockableWrite {u : State} (h : s.Inv) (hr : s.inReset = false) (hu : u.Inv) : (lockableWrite s u).Inv := by
  unfold Machine.lockableWrite
  split
  · exact h.loseWrite hr
  · exact hu

section Idle

variable (h : s.Inv) (hr : s.inReset = false) (hp : s.seq.phase = .idle)
include h hr hp

theorem refuse (e : CmdError) : (refuse e s).Inv :=
  h.of_idle rfl rfl hr hp (h.idle hp) (Status.consistent_refused _ e) h.bits

theorem accept {i : Instr} (ha : acceptanceError i s = none) : (accept i s).Inv :=
  h.of_same_memory rfl rfl hr nofun (fun _ => runningOk_accept (h.idle hp) ha) (Status.consistent_cleared _) h.bits

theorem present (i : Instr) : (present i s).Inv := by
  cases ha : acceptanceError i s with
  | none => simpa [present_accepted ha] using h.accept hr hp ha
  | some e => simpa [Machine.present, ha] using h.refuse hr hp e

/-- An element write stores four bytes of one element inside the RAM (20_memory.md R61, R67). -/
theorem capWrite {i : Nat} (hi : i < s.cfg.capDepth) (d : Duration) : (capWrite s i d).Inv where
  cfg := h.cfg
  memory := Memory.wf_writeWord _ _ h.memory
  whole := by
    intro c hc
    rcases Memory.mem_writeWord hc with ⟨hlo, hhi⟩ | hold
    · have hbase : c.1 - c.1 % 4 = captureOffset i := by simp only [captureOffset, captureBase] at *; omega
      simp only [captureOffset] at hlo hhi
      refine ⟨by omega, show c.1 < captureBase + 4 * s.cfg.capDepth by omega, ?_⟩
      rw [hbase]
      simp [Machine.capWrite, Memory.readWord_writeWord_same]
    · obtain ⟨h1, h2, h3⟩ := h.whole c hold
      exact ⟨h1, h2, Memory.readWord_isSome_writeWord d h3⟩
  idle := h.idle
  running := fun e => by simp [Machine.capWrite, hp] at e
  error := h.error
  bits := h.bits
  reset := fun e => absurd (hr.symm.trans e) Bool.false_ne_true

theorem writeRegister {v : Word} {r : Reg} (hc : ∀ i, r = .capture i → i < s.cfg.capDepth)
    (hw : writeRegister s v r = .next t) : t.Inv := by
  cases r with
  | cmd =>
    obtain ⟨u, hu, ⟨e, -, rfl⟩ | ⟨i, -, rfl⟩⟩ := commandWrite_next (w := v) hp
    · cases hu.symm.trans hw
      exact h.refuse hr hp e
    · cases hu.symm.trans hw
      exact h.present hr hp i
  | status =>
    cases hw
    exact h.of_idle rfl rfl hr hp (h.idle hp) (Status.Consistent.hostWrite h.error v) h.bits
  | tol | margin | profile =>
    cases hw
    exact h.lockableWrite hr (h.of_idle rfl rfl hr hp (h.idle hp) h.error h.bits)
  | capture i =>
    cases hw
    exact h.capWrite hr hp (hc i rfl) v
  | _ =>
    cases hw
    exact h.of_idle rfl rfl hr hp (h.idle hp) h.error h.bits

end Idle

/-! ### Every step -/

theorem effect {o : Option Event} (h : s.Inv) (he : StepEffect o s t) : t.Inv := by
  cases he with
  | outside e _ => exact h.setEnv e
  | sequencer i t hr hp hd he => exact h.exec hr hp hd he
  | driver tok _ hr _ => exact h.driver hr _
  | lost e _ hr _ => exact (h.setEnv e).loseWrite hr
  | write e v off t _ hr hp hw => exact (h.setEnv e).writeRegister hr hp (fun i hi => lt_of_regAt_capture hi) hw
  | resetAssert _ => exact h.assertReset
  | resetRelease _ => exact h.releaseReset

end State.Inv

/-- Settles O50: by the inversion lemma of a step, each of whose effects keeps every part of the invariant. -/
theorem stepKeepsTheInvariant : Obligations.StepKeepsTheInvariant := by
  intro s t h hs
  exact (h.setEnv { s.env with schedule := s.env.schedule.tail }).effect (step_effect hs)

end Sys2Proof.Machine

/-! ## Commands that complete in one step of the sequencer -/

namespace Sys2Proof.Machine

/-- MATCH, MATCHAL, REV, PENC and PCHK: the commands that neither walk the capture nor hand over tokens. -/
def IsQuick (i : Instr) : Prop :=
  i = .matchWithin ∨ i = .matchAtLeast ∨ (∃ n, i = .rev n) ∨ (∃ p, i = .penc p) ∨ ∃ p b n, i = .pchk p b n

/-- An accepted PENC has a payload construction (44_protocol.md R189, 30_encoding.md R92). -/
theorem codecPayload_of_accepted {s : State} {p : BitVec 2} (h : acceptanceError (.penc p) s = none) (a : BitVec 16)
    (c : BitVec 8) : ∃ w, codecPayload (s.profile p).codec a c = some w := by
  have hcodec : (s.profile p).codec ≠ 3 ∧ (s.profile p).codec ≠ 0 := by
    simp_all [acceptanceError, checkProfile, checkCodec, Profile.legal]
  have hcases : ∀ k : BitVec 2, k ≠ 3 ∧ k ≠ 0 → k = 1 ∨ k = 2 := by decide
  rcases hcases _ hcodec with hk | hk
  · exact ⟨necEncode a c, by simp [codecPayload, hk]⟩
  · exact ⟨samEncode a c, by simp [codecPayload, hk]⟩

theorem exec_quick_run {i : Instr} {s : State} (hq : IsQuick i) (hp : s.seq.phase = .run) (hn : s.seq.pending = none)
    (ha : acceptanceError i s = none) : ∃ ok r, exec i s = .next (complete ok r s) := by
  rcases hq with rfl | rfl | ⟨n, rfl⟩ | ⟨p, rfl⟩ | ⟨p, b, n, rfl⟩
  · exact ⟨_, _, exec_matchWithin_run hp hn⟩
  · exact ⟨_, _, exec_matchAtLeast_run hp hn⟩
  · exact ⟨_, _, exec_rev_run hp hn n⟩
  · obtain ⟨w, hw⟩ := codecPayload_of_accepted ha s.opAddress s.opCommand
    exact ⟨true, Results.ofPayload (w.setWidth 64), by rw [exec_penc_run hp hn, pencStep, hw]⟩
  · rw [exec_pchk_run hp hn, pchkStep]
    split
    · exact ⟨_, _, rfl⟩
    · exact ⟨_, _, rfl⟩

/-- The host's `CMD` write of a command's word while BUSY = 0 (30_encoding.md R80). -/
theorem step_writeCommand {s : State} {i : Instr} {es : List Event} (hr : s.inReset = false) (hp : s.seq.phase = .idle)
    (hs : s.env.schedule = .host ⟨s.cfg.base + 0x008, 4, .write (encode i)⟩ :: es) :
    step s = .next (present i ((s.setSchedule es).respond .done)) :=
  calc step s
      = busAccess ⟨s.cfg.base + 0x008, 4, .write (encode i)⟩ (s.setSchedule es) := step_host hs
    _ = busWrite 0x008 (encode i) ((s.setSchedule es).respond .done) :=
        busAccess_write (s := s.setSchedule es) hr rfl (by decide) (by decide)
    _ = commandWrite (encode i) ((s.setSchedule es).respond .done) := busWrite_idle hp
    _ = exec i ((s.setSchedule es).respond .done) := by simp only [commandWrite, decode_encode]
    _ = .next (present i ((s.setSchedule es).respond .done)) := exec_idle i hp

/-- A quick command just accepted, with no event scheduled: the sequencer's step is its completion. -/
theorem step_accepted_quick {i : Instr} {s : State} (hq : IsQuick i) (hr : s.inReset = false)
    (hn : s.seq.pending = none) (ha : acceptanceError i s = none) (hs : s.env.schedule = []) :
    ∃ ok r, step (accept i s) = .next (complete ok r (accept i s)) := by
  rw [step_unscheduled (s := accept i s) hr rfl (decode_encode i) hs]
  exact exec_quick_run hq rfl hn ((acceptanceError_congr rfl rfl rfl i).trans ha)

/-- Settles O52: the `CMD` write is an acceptance, and the next step is the completion. -/
theorem acceptedQuickCommandsComplete : Obligations.AcceptedQuickCommandsComplete := by
  intro s i h hr hp ha hq hs
  have ha' : acceptanceError i ((s.setSchedule []).respond .done) = none :=
    (acceptanceError_congr rfl rfl rfl i).trans ha
  have haccept := step_writeCommand hr hp hs
  rw [present_accepted ha'] at haccept
  obtain ⟨ok, r, hcomplete⟩ := step_accepted_quick (s := (s.setSchedule []).respond .done) hq hr (h.idle hp) ha' rfl
  have hsecond := (runFor_succ 1 haccept).trans (runFor_succ 0 hcomplete)
  exact ⟨_, _, runFor_succ 0 haccept, rfl, rfl, hsecond, rfl, rfl, rfl,
    by simp [sameInputs, complete, accept, State.respond]⟩

end Sys2Proof.Machine

/-! ## What a command leaves alone -/

namespace Sys2Proof.Machine

/-! ### The inputs (10_state.md R55) -/

theorem sameInputs_refl (s : State) : sameInputs s s := ⟨rfl, rfl, rfl, rfl, rfl, rfl, rfl, rfl, rfl, rfl⟩

theorem sameInputs.trans {s t u : State} (h : sameInputs s t) (h' : sameInputs t u) : sameInputs s u := by
  obtain ⟨h1, h2, h3, h4, h5, h6, h7, h8, h9, h10⟩ := h
  obtain ⟨k1, k2, k3, k4, k5, k6, k7, k8, k9, k10⟩ := h'
  exact ⟨k1.trans h1, k2.trans h2, k3.trans h3, k4.trans h4, k5.trans h5, k6.trans h6, k7.trans h7, k8.trans h8,
    k9.trans h9, k10.trans h10⟩

/-- What one command leaves alone: the inputs, WIGN, and what lies outside the block, but for CURSOR (BDEC) and the carrier
and clock events (SEND). -/
structure CommandFrame (i : Instr) (s t : State) : Prop where
  inputs : sameInputs s t
  inReset : t.inReset = s.inReset
  wign : t.status.wign = s.status.wign
  cursor : (∀ p n, i ≠ .bdec p n) → t.cursor = s.cursor
  outside : (∀ p n r, i ≠ .send p n r) → t.env = s.env
  tokens : t.env.tokens = s.env.tokens
  responses : t.env.responses = s.env.responses
  program : t.env.program = s.env.program
  draws : t.env.draws = s.env.draws
  schedule : t.env.schedule = s.env.schedule

namespace CommandFrame

variable {i : Instr} {s t : State}

/-- A command that leaves CURSOR and the whole outside alone. -/
theorem of_env (hi : sameInputs s t) (hr : t.inReset = s.inReset) (hw : t.status.wign = s.status.wign)
    (hc : t.cursor = s.cursor) (he : t.env = s.env) : CommandFrame i s t :=
  ⟨hi, hr, hw, fun _ => hc, fun _ => he, congrArg _ he, congrArg _ he, congrArg _ he, congrArg _ he, congrArg _ he⟩

theorem present (i : Instr) (s : State) : CommandFrame i s (present i s) := by
  unfold Machine.present
  split
  · exact of_env (sameInputs_refl s) rfl rfl rfl rfl
  · exact of_env (sameInputs_refl s) rfl rfl rfl rfl

/-- An action of SEND changes nothing outside the block but the carrier and clock events. -/
theorem perform {p : BitVec 2} {n : BitVec 7} {r : BitVec 12} (f : Profile) (s : State) (a : Action) :
    CommandFrame (.send p n r) s (perform f s a) := by
  have hs : ¬ ∀ p' n' r', Instr.send p n r ≠ .send p' n' r' := fun h => h p n r rfl
  cases a with
  | carrier | clockReset =>
    exact ⟨sameInputs_refl s, rfl, rfl, fun _ => rfl, fun h => absurd h hs, rfl, rfl, rfl, rfl, rfl⟩
  | emit | clockRead | emitGap => exact of_env (sameInputs_refl s) rfl rfl rfl rfl

theorem runStep (h : RunStep i s t) : CommandFrame i s t := by
  cases h with
  | completeBdec p n v c hi _ =>
    subst hi
    exact ⟨sameInputs_refl s, rfl, rfl, fun h => absurd rfl (h p n), fun _ => rfl, rfl, rfl, rfl, rfl, rfl⟩
  | send p n r a hi _ => exact hi ▸ perform _ s a
  | complete | benc | nextFrame | parse | stay => exact of_env (sameInputs_refl s) rfl rfl rfl rfl

theorem exec (h : exec i s = .next t) : CommandFrame i s t := by
  rcases exec_cases h with ⟨-, rfl⟩ | ⟨-, -, rfl⟩ | ⟨-, -, hs⟩
  · exact present i s
  · exact of_env (sameInputs_refl _) rfl rfl rfl rfl
  · exact runStep hs

end CommandFrame

/-- Settles O8: acceptance, refusal and every step of a running command keep `CommandFrame`. -/
theorem commandsKeepTheirInputs : Obligations.CommandsKeepTheirInputs := by
  intro i s t h
  have hf := CommandFrame.exec h
  obtain ⟨-, -, -, -, -, -, -, -, -, hcap⟩ := hf.inputs
  exact ⟨hf.inputs, fun a => by rw [hcap], hf.inReset, hf.wign, hf.cursor, hf.outside, hf.tokens, hf.responses, hf.program,
    hf.draws, hf.schedule⟩

/-! ### The completion (10_state.md R50) -/

/-- A step of a running command is the completion, or leaves the result registers, STATUS and CURSOR alone. -/
inductive CompletionOr (s t : State) : Prop
  | completed (hp : t.seq.phase = .idle) (hd : t.status.done = true) (he : t.status.err = s.status.err)
      (hc : t.status.errcode = s.status.errcode) (hn : t.seq.pending = s.seq.pending)
  | running (hp : t.seq.phase = s.seq.phase) (hr : t.res = s.res) (hs : t.status = s.status) (hc : t.cursor = s.cursor)

theorem RunStep.completionOr {i : Instr} {s t : State} (h : RunStep i s t) : CompletionOr s t := by
  cases h with
  | complete | completeBdec => exact .completed rfl rfl rfl rfl rfl
  | send p n r a =>
    obtain ⟨e, pd, el, he⟩ := perform_eq (s.profile p) s a
    rw [he]
    exact .running rfl rfl rfl rfl
  | benc | nextFrame | parse | stay => exact .running rfl rfl rfl rfl

/-- What a running command's step does to the registers, a pending token included. -/
theorem exec_completionOr {i : Instr} {s t : State} (hp : s.seq.phase = .run) (h : exec i s = .next t) :
    CompletionOr s t ∧ (t.seq.phase = .idle → s.seq.pending = none) := by
  rcases exec_cases h with ⟨hi, -⟩ | ⟨-, -, rfl⟩ | ⟨-, hn, hs⟩
  · exact absurd (hi.symm.trans hp) (by decide)
  · exact ⟨.running rfl rfl rfl rfl, fun hi => absurd (hi.symm.trans hp) (by decide)⟩
  · exact ⟨hs.completionOr, fun _ => hn⟩

/-- Settles O9: a step in RUN is the completion or writes no register. -/
theorem registerEffectsComeAtCompletion : Obligations.RegisterEffectsComeAtCompletion := by
  intro i s t hp h
  obtain ⟨hor, hn⟩ := exec_completionOr hp h
  cases hor with
  | completed hpt hd he hc hpend =>
    exact ⟨fun hr => absurd (hpt.symm.trans hr) (by decide), fun hi => ⟨hd, he, hc, hpend.trans (hn hi)⟩⟩
  | running hpt hr hs hc =>
    exact ⟨fun _ => ⟨hr, hs, hc⟩, fun hi => absurd ((hpt.trans hp).symm.trans hi) (by decide)⟩

/-! ### A running command's inputs, whatever event comes (10_state.md R55) -/

/-- One event other than reset leaves the inputs of a BUSY block alone, and CURSOR if it stays BUSY. -/
theorem StepEffect.keeps_inputs {o : Option Event} {s t : State} (h : StepEffect o s t) (hp : s.seq.phase = .run)
    (ho : o ≠ some .resetAssert) :
    sameInputs s t ∧ (t.seq.phase = .run → t.cursor = s.cursor) ∧ t.env.schedule = s.env.schedule := by
  cases h with
  | outside e he => exact ⟨sameInputs_refl s, fun _ => rfl, he.schedule⟩
  | sequencer i t _ _ _ he =>
    have hf := CommandFrame.exec he
    obtain ⟨hbusy, -⟩ := registerEffectsComeAtCompletion i s t hp he
    refine ⟨hf.inputs, fun hr => ?_, hf.schedule⟩
    obtain ⟨-, -, hc⟩ := hbusy hr
    exact hc
  | driver => exact ⟨sameInputs_refl s, fun _ => rfl, rfl⟩
  | lost e he => exact ⟨sameInputs_refl s, fun _ => rfl, he.schedule⟩
  | write _ _ _ _ _ _ hi _ => exact absurd (hi.symm.trans hp) (by decide)
  | resetAssert h => exact absurd h ho
  | resetRelease => exact ⟨sameInputs_refl s, fun _ => rfl, rfl⟩

/-- One step of a BUSY block with no reset scheduled: its inputs stay, and no reset is scheduled after it. -/
theorem step_keeps_inputs {s t : State} (h : step s = .next t) (hb : s.busy = true)
    (hn : .resetAssert ∉ s.env.schedule) :
    sameInputs s t ∧ (t.busy = true → t.cursor = s.cursor) ∧ .resetAssert ∉ t.env.schedule := by
  have ho : s.env.schedule.head? ≠ some .resetAssert := fun e => hn (List.mem_of_head? e)
  obtain ⟨hi, hc, hs⟩ := (step_effect h).keeps_inputs (by simpa [State.busy, State.taken] using hb) ho
  refine ⟨hi, fun hbt => hc (by simpa [State.busy] using hbt), fun hm => hn ?_⟩
  rw [hs] at hm
  exact List.mem_of_mem_tail hm

/-- Settles O45: by induction on the run. -/
theorem inputsAreFrozenWhileBusy : Obligations.InputsAreFrozenWhileBusy := by
  rintro s t m - hn hb h
  induction m generalizing s with
  | zero =>
    obtain rfl : s = t := by simpa [runFor] using h
    exact ⟨sameInputs_refl s, fun _ => rfl⟩
  | succ m ih =>
    obtain ⟨u, hu, hut⟩ := runFor_split h
    obtain ⟨hsu, hcu, hnu⟩ := step_keeps_inputs hu (hb 0 s (by omega) rfl) hn
    have hbu : ∀ j w, j < m → runFor j u = .next w → w.busy = true := fun j w hj hw =>
      hb (j + 1) w (by omega) ((runFor_succ j hu).trans hw)
    obtain ⟨hut', hct⟩ := ih u hnu hbu hut
    have hlast : t.busy = true → u.busy = true := fun hbt => by
      cases m with
      | zero =>
        obtain rfl : u = t := by simpa [runFor] using hut
        exact hbt
      | succ m => exact hbu 0 u (by omega) rfl
    exact ⟨hsu.trans hut', fun hbt => (hct hbt).trans (hcu (hlast hbt))⟩

end Sys2Proof.Machine

/-! ## PCHK and REV -/

namespace Sys2Proof.Machine

/-! ### The codecs, bit by bit (44_protocol.md R184 to R189) -/

theorem comply_iff (codec : BitVec 2) (v : Payload) : comply codec v = true ↔ complies codec v := by
  have hcases : codec = 0 ∨ codec = 1 ∨ codec = 2 ∨ codec = 3 := by revert codec; decide
  rcases hcases with rfl | rfl | rfl | rfl <;> simp [comply, complies, payloadByte]

/-- Bit j of a reversed byte of a payload. -/
theorem getLsbD_rev8_payloadByte (v : Payload) {k j : Nat} (hk : k ≤ 3) (hj : j < 8) :
    (rev8 (payloadByte v k)).getLsbD j = v.getLsbD (31 - 8 * k - j) := by
  rw [getLsbD_rev8 _ _ hj, payloadByte, BitVec.getLsbD_extractLsb', show 24 - 8 * k + (7 - j) = 31 - 8 * k - j by omega]
  simp [show 7 - j < 8 by omega]

theorem getLsbD_rev16_extract (v : Payload) {j : Nat} (hj : j < 16) :
    (rev16 (v.extractLsb' 16 16)).getLsbD j = v.getLsbD (31 - j) := by
  rw [getLsbD_rev16 _ _ hj, BitVec.getLsbD_extractLsb', show 16 + (15 - j) = 31 - j by omega]
  simp [show 15 - j < 16 by omega]

/-- The 8-bit address of a payload, widened to the register. -/
theorem getLsbD_address8 (v : Payload) {j : Nat} (hj : j < 16) :
    ((rev8 (payloadByte v 0)).setWidth 16).getLsbD j = (decide (j < 8) && v.getLsbD (31 - j)) := by
  rw [BitVec.getLsbD_setWidth]
  by_cases h : j < 8
  · rw [getLsbD_rev8_payloadByte v (Nat.zero_le 3) h]
    simp [h, hj]
  · simp [h, BitVec.getLsbD_of_ge _ j (Nat.le_of_not_lt h)]

/-- The fields a legal codec extracts are those of its table. -/
theorem fieldsAre_fields {codec : BitVec 2} (hc : codec ≠ 3) (v : Payload) :
    fieldsAre codec v (fields codec v).1 (fields codec v).2 := by
  have hcmd : ∀ j, j < 8 → (rev8 (payloadByte v 2)).getLsbD j = v.getLsbD (15 - j) := fun j hj =>
    getLsbD_rev8_payloadByte v (by decide) hj
  have hcases : codec = 0 ∨ codec = 1 ∨ codec = 2 := by revert codec; decide
  rcases hcases with rfl | rfl | rfl
  · simp [fieldsAre, fields]
  · refine ⟨fun _ => ⟨hcmd, ?_⟩, nofun, nofun⟩
    by_cases hx : v.extractLsb' 16 8 = ~~~(v.extractLsb' 24 8)
    · rw [if_pos hx]
      intro j hj
      rw [← getLsbD_address8 v hj]
      simp [fields, payloadByte, hx]
    · rw [if_neg hx]
      intro j hj
      rw [← getLsbD_rev16_extract v hj]
      simp [fields, payloadByte, hx]
  · exact ⟨nofun, fun _ => ⟨hcmd, fun j hj => getLsbD_address8 v hj⟩, nofun⟩

/-! ### The results as registers -/

@[simp] theorem payload_ofPayload (v : Payload) : (Results.ofPayload v).payload = v := append_extract v

/-- RES is the payload for every record that takes its two words from it. -/
@[simp] theorem payload_decodedResults (f : Profile) (n : BitVec 7) (v : Payload) :
    (decodedResults f n v).payload = v := append_extract v

theorem decodedResults_op (f : Profile) (n : BitVec 7) (s : State) :
    decodedResults f n s.op =
      ⟨s.opLo, s.opHi, n, (fields f.codec s.op).1, (fields f.codec s.op).2, f.protoId⟩ := by
  have hlo : s.op.extractLsb' 0 32 = s.opLo := BitVec.extractLsb'_append_eq_right
  have hhi : s.op.extractLsb' 32 32 = s.opHi := BitVec.extractLsb'_append_eq_left
  simp [decodedResults, Results.ofPayload, Results.zero, hlo, hhi]

/-! ### PCHK -/

theorem strictChecks_iff (f : Profile) (strict : Bool) (n : BitVec 7) (v : Payload) :
    strictChecks f strict n v = true ↔ (strict = true → n = f.nbitsCanon ∧ complies f.codec v) := by
  rw [← comply_iff]
  cases strict <;> simp [strictChecks]

/-- Settles O30: by the cases of the strict checks. -/
theorem pchkChecksThePayload : Obligations.PchkChecksThePayload := by
  intro s p strict n hp hn hc
  rw [← strictChecks_iff, exec_pchk_run hp hn]
  constructor
  · intro h
    refine ⟨_, _, fieldsAre_fields hc s.op, ?_⟩
    rw [pchkStep, if_pos h, decodedResults_op, complete_eq]
  · intro h
    rw [pchkStep, if_neg h, failDecode, complete_eq]
    rfl

/-! ### REV -/

/-- Settles O14: the completion's payload is the reversal, bit by bit. -/
theorem revCompletes : Obligations.RevCompletes := by
  intro s n hp hn
  refine ⟨Results.ofPayload (rev s.op n.toNat), fun j hj => ?_, rfl, rfl, rfl, rfl, ?_⟩
  · rw [payload_ofPayload]
    exact getLsbD_rev s.op n.toNat j hj
  · rw [exec_rev_run hp hn, complete_eq]

end Sys2Proof.Machine

/-! ## BDEC -/

namespace Sys2Proof.Machine

/-! ### The payload a body holds (41_bitcodec.md R125) -/

/-- The payload of an n-bit body from index c: one bit for each pair, the first pair highest. -/
def bodyPayload (s : State) (f : Profile) (c n : Nat) : Payload :=
  BitVec.ofFnLE fun j => decide (j.val < n) && durMatches s (element s (c + 2 * (n - 1 - j) + 1)) f.oneSpace

theorem bodyHolds_bodyPayload (s : State) (f : Profile) (c n : Nat) : bodyHolds s f c n (bodyPayload s f c n) := by
  intro j hj
  rw [bodyPayload, BitVec.getLsbD_ofFnLE, dif_pos hj]

section Walk

variable {s : State} {f : Profile} {c n : Nat} (hread : ∀ i, walkReads s f c n i → (capRead s i).isSome = true)
include hread

/-- A walk from an empty accumulator over a body that matches. -/
theorem bitDecode_of_bodyMatches (h : bodyMatches s f c n) :
    bitDecode s f n c 0 = .matched (bodyPayload s f c n, c + 2 * n) := by
  obtain ⟨v, hv, hbits⟩ := (bitDecode_spec s f n c 0 hread).1 h
  have : v = bodyPayload s f c n := by
    apply BitVec.eq_of_getLsbD_eq
    intro j hj
    rw [hbits j hj, bodyHolds_bodyPayload s f c n j hj]
    by_cases hjn : j < n <;> simp [hjn]
  rw [hv, this]

theorem bitDecode_of_not_bodyMatches (h : ¬ bodyMatches s f c n) : bitDecode s f n c 0 = .failed :=
  (bitDecode_spec s f n c 0 hread).2 h

end Walk

/-! ### BDEC's completion (41_bitcodec.md R126) -/

/-- BDEC succeeds: the body fits below CAP_LEN and matches. -/
def bodyFound (s : State) (f : Profile) (n : Nat) : Prop :=
  s.cursor.toNat + 2 * n ≤ s.capLen.toNat ∧ bodyMatches s f s.cursor.toNat n

section Bdec

variable {s : State} {p : BitVec 2} {n : BitVec 7}
  (hread : s.cursor.toNat + 2 * n.toNat ≤ s.capLen.toNat →
    ∀ i, walkReads s (s.profile p) s.cursor.toNat n.toNat i → (capRead s i).isSome = true)
include hread

theorem bdecStep_of_bodyFound (h : bodyFound s (s.profile p) n.toNat) :
    bdecStep p n s =
      .next (complete true { Results.ofPayload (bodyPayload s (s.profile p) s.cursor.toNat n.toNat) with bits := n }
        ((walkedTo (bodyPayload s (s.profile p) s.cursor.toNat n.toNat) (s.cursor.toNat + 2 * n.toNat) s).setCursor
          (BitVec.ofNat 32 (s.cursor.toNat + 2 * n.toNat)))) := by
  obtain ⟨hfit, hm⟩ := h
  rw [bdecStep, if_neg (by omega), bitDecode_of_bodyMatches (hread hfit) hm]

theorem bdecStep_of_not_bodyFound (h : ¬ bodyFound s (s.profile p) n.toNat) :
    bdecStep p n s = .next (failDecode s) := by
  unfold bdecStep
  split
  · rfl
  · rename_i hfit
    have hfit' := Nat.le_of_not_lt hfit
    rw [bitDecode_of_not_bodyMatches (hread hfit') fun hm => h ⟨hfit', hm⟩]

end Bdec

/-- Settles O17: by whether the body is found. -/
theorem bdecDecodesTheBody : Obligations.BdecDecodesTheBody := by
  intro s p n hp hn _ hread
  change ∃ t, _ ∧ _ ∧ _ ∧ _ ∧ _ ∧ (bodyFound s (s.profile p) n.toNat → _) ∧ (¬ bodyFound s (s.profile p) n.toNat → _)
  rw [exec_bdec_run hp hn]
  by_cases h : bodyFound s (s.profile p) n.toNat
  · refine ⟨_, bdecStep_of_bodyFound hread h, sameInputs_refl s, rfl, rfl, rfl, fun _ => ?_, fun h' => absurd h h'⟩
    have hcursor : (BitVec.ofNat 32 (s.cursor.toNat + 2 * n.toNat)).toNat = s.cursor.toNat + 2 * n.toNat := by
      have := s.capLen.isLt
      rw [BitVec.toNat_ofNat, Nat.mod_eq_of_lt (lt_of_le_of_lt h.1 this)]
    refine ⟨?_, rfl, rfl, rfl, rfl, hcursor, rfl⟩
    have hres := payload_ofPayload (bodyPayload s (s.profile p) s.cursor.toNat n.toNat)
    exact hres.symm ▸ bodyHolds_bodyPayload s (s.profile p) s.cursor.toNat n.toNat
  · exact ⟨_, bdecStep_of_not_bodyFound hread h, sameInputs_refl s, rfl, rfl, rfl, fun h' => absurd h' h,
      fun _ => ⟨rfl, rfl, rfl⟩⟩

end Sys2Proof.Machine

/-! ## DECODE from its start to its completion -/

namespace Sys2Proof.Machine

/-! ### A state of the parser -/

section ParsedTo

variable (s : State) (st : ParseState) (c : Nat) (v : Payload)

@[simp] theorem parsedTo_cur : (parsedTo st c v s).seq.cur = c := rfl
@[simp] theorem profile_parsedTo (p : BitVec 2) : (parsedTo st c v s).profile p = s.profile p := rfl
@[simp] theorem bitDecode_parsedTo (f : Profile) (n k : Nat) (acc : Payload) :
    bitDecode (parsedTo st c v s) f n k acc = bitDecode s f n k acc :=
  bitDecode_congr (s := s) (t := parsedTo st c v s) rfl rfl f acc fun _ _ _ => rfl

end ParsedTo

/-- A DECODE runs, no event is scheduled, and the sequencer is free to move. -/
structure Decoding (p : BitVec 2) (strict : Bool) (n : BitVec 7) (s : State) : Prop where
  inReset : s.inReset = false
  phase : s.seq.phase = .run
  pending : s.seq.pending = none
  cmd : s.seq.cmd = encode (.decode p strict n)
  schedule : s.env.schedule = []

namespace Decoding

variable {p : BitVec 2} {strict : Bool} {n : BitVec 7} {s : State}

theorem parsedTo (h : Decoding p strict n s) (st : ParseState) (c : Nat) (v : Payload) :
    Decoding p strict n (parsedTo st c v s) := ⟨h.inReset, h.phase, h.pending, h.cmd, h.schedule⟩

theorem step (h : Decoding p strict n s) : step s = decodeStep p strict n s := by
  have hd : decode s.seq.cmd = .ok (.decode p strict n) := by rw [h.cmd, decode_encode]
  rw [step_unscheduled h.inReset h.phase hd h.schedule, exec_decode_run h.phase h.pending]

end Decoding

/-! ### The outcome of a run, one transition at a time (43_parser.md R172) -/

/-- Within k steps the command completes with these results, the parser's own state aside. -/
def endsWithin (k : Nat) (s : State) (ok : Bool) (r : Results) : Prop :=
  ∃ j st c v, j ≤ k ∧ runFor j s = .next (complete ok r (parsedTo st c v s))

/-- Within k steps the command completes: with OK = 1 and the results r if P holds, and with the failure outcome if not. -/
def decides (k : Nat) (s : State) (P : Prop) (r : Results) : Prop :=
  (P → endsWithin k s true r) ∧ (¬ P → endsWithin k s false Results.zero)

section Outcome

variable {p : BitVec 2} {strict : Bool} {n : BitVec 7} {s : State} {k c : Nat} {st : ParseState} {v : Payload}
  {ok : Bool} {r : Results} {P Q : Prop}

theorem endsWithin.mono {j : Nat} (h : endsWithin k s ok r) (hk : k ≤ j) : endsWithin j s ok r := by
  obtain ⟨i, st, c, v, hi, hrun⟩ := h
  exact ⟨i, st, c, v, hi.trans hk, hrun⟩

theorem endsWithin_of_step (h : step s = .next (parsedTo st c v s)) (hrest : endsWithin k (parsedTo st c v s) ok r) :
    endsWithin (k + 1) s ok r := by
  obtain ⟨j, st', c', v', hj, hrun⟩ := hrest
  exact ⟨j + 1, st', c', v', by omega, (runFor_succ j h).trans hrun⟩

/-- The completion is the last step. -/
theorem endsWithin_of_complete (h : step s = .next (complete ok r s)) : endsWithin 1 s ok r :=
  ⟨1, s.seq.parse, s.seq.cur, s.seq.acc, le_refl 1, runFor_succ 0 h⟩

/-- A mismatch ends in the failure outcome. -/
theorem endsWithin_of_failure (hs : Decoding p strict n s) (h : step s = .next (parsedTo .failure c v s)) :
    endsWithin 2 s false Results.zero :=
  endsWithin_of_step h (endsWithin_of_complete (hs.parsedTo .failure c v).step)

/-- One transition: with Q its walk matches and P decides, without Q the parser enters Failure. -/
theorem decides_of_walk {w : Walk State} (hs : Decoding p strict n s) (hk : 1 ≤ k) (hstep : step s = parseResult w s)
    (hgo : Q → w = .matched (parsedTo st c v s)) (hstop : ¬ Q → w = .failed)
    (hrest : Q → decides k (parsedTo st c v s) P r) : decides (k + 1) s (Q ∧ P) r := by
  by_cases hq : Q
  · rw [hgo hq] at hstep
    exact ⟨fun h => endsWithin_of_step hstep ((hrest hq).1 h.2),
      fun h => endsWithin_of_step hstep ((hrest hq).2 fun hp => h ⟨hq, hp⟩)⟩
  · rw [hstop hq] at hstep
    exact ⟨fun h => absurd h.1 hq, fun _ => (endsWithin_of_failure hs hstep).mono (by omega)⟩

end Outcome

/-! ### The checks of each transition -/

/-- The first transition's check: the strict bit count, the length, the header (43_parser.md R162, R164, R165). -/
def headerMatches (s : State) (f : Profile) (strict : Bool) (n : BitVec 7) : Prop :=
  (strict = true → n = f.nbitsCanon) ∧ 2 * n.toNat + 3 ≤ s.capLen.toNat ∧
    durMatches s (element s 0) f.hdrMark = true ∧ durMatches s (element s 1) f.hdrSpace = true

/-- The third transition's check: the footer mark, and the gap if there is one (43_parser.md R167, R168). -/
def footerMatches (s : State) (f : Profile) (n : Nat) : Prop :=
  durMatches s (element s (2 * n + 2)) f.ftrMark = true ∧
    (2 * n + 3 < s.capLen.toNat → durMatchesAtLeast s (element s (2 * n + 3)) f.minGap = true)

/-- An element that was written reads as `element`. -/
theorem Walk.read_written {α : Type} {s : State} {i : Nat} (h : (capRead s i).isSome = true) (k : Duration → Walk α) :
    Walk.read s i k = k (element s i) := by
  obtain ⟨d, hd⟩ := Option.isSome_iff_exists.1 h
  rw [Walk.read_some hd, element_of_some hd]

theorem startOffset_add_leastFrame (n : Nat) : startOffset + leastFrame n = 2 * n + 3 := by
  simp only [startOffset, leastFrame, headerSlots, footerSlots]
  omega

/-- The footer's walk does not look at the parser's own state but for the cursor. -/
theorem parseFooter_parsedTo (f : Profile) (st : ParseState) (c : Nat) (v : Payload) (s : State) :
    parseFooter f (parsedTo st c v s) = Walk.read s c fun m =>
      if durMatches s m f.ftrMark then
        if c + 1 < s.capLen.toNat then
          Walk.read s (c + 1) fun g =>
            if durMatchesAtLeast s g f.minGap then .matched (parsedTo .footerMatched (c + 1) v s) else .failed
        else .matched (parsedTo .footerMatched (c + 1) v s)
      else .failed := rfl

section Transitions

variable {s : State} {p : BitVec 2} {f : Profile} {strict : Bool} {n : BitVec 7}
  (hread : ∀ i, frameReads s f strict n i → (capRead s i).isSome = true)
include hread

theorem parseStart_of_headerMatches (h : headerMatches s f strict n) :
    parseStart f strict n s = .matched (parsedTo .headerMatched 2 s.seq.acc s) := by
  obtain ⟨hcanon, hlen, hmark, hspace⟩ := h
  have h0 := hread 0 ⟨hcanon, hlen, .inl rfl⟩
  have h1 := hread 1 ⟨hcanon, hlen, .inr ⟨hmark, .inl rfl⟩⟩
  have hcount : ¬ (strict && !(n == f.nbitsCanon)) = true := by simpa using hcanon
  rw [parseStart, startOffset_add_leastFrame, if_neg hcount, if_neg (by omega)]
  simp [startOffset, Walk.read_written h0, Walk.read_written h1, hmark, hspace]

theorem parseStart_of_not_headerMatches (h : ¬ headerMatches s f strict n) : parseStart f strict n s = .failed := by
  by_cases hcanon : strict = true → n = f.nbitsCanon
  swap
  · rw [parseStart, if_pos (by simpa using hcanon)]
  by_cases hlen : 2 * n.toNat + 3 ≤ s.capLen.toNat
  swap
  · rw [parseStart, startOffset_add_leastFrame, if_neg (by simpa using hcanon), if_pos (by omega)]
  have h0 := hread 0 ⟨hcanon, hlen, .inl rfl⟩
  rw [parseStart, startOffset_add_leastFrame, if_neg (by simpa using hcanon), if_neg (by omega)]
  simp only [startOffset, Walk.read_written h0]
  by_cases hmark : durMatches s (element s 0) f.hdrMark = true
  · have h1 := hread 1 ⟨hcanon, hlen, .inr ⟨hmark, .inl rfl⟩⟩
    have hspace : ¬ durMatches s (element s 1) f.hdrSpace = true := fun hsp => h ⟨hcanon, hlen, hmark, hsp⟩
    rw [if_pos hmark, Walk.read_written h1, if_neg hspace]
  · rw [if_neg hmark]

/-- Behind a matching header the body's walk reads what the frame reads. -/
theorem walkReads_written (hh : headerMatches s f strict n) :
    ∀ i, walkReads s f 2 n.toNat i → (capRead s i).isSome = true := by
  obtain ⟨hcanon, hlen, hmark, hspace⟩ := hh
  exact fun i hi => hread i ⟨hcanon, hlen, .inr ⟨hmark, .inr ⟨hspace, .inl hi⟩⟩⟩

section Footer

variable (hh : headerMatches s f strict n) (hb : bodyMatches s f 2 n.toNat) (st : ParseState) (v : Payload)
include hh hb

theorem footer_written : (capRead s (2 * n.toNat + 2)).isSome = true := by
  obtain ⟨hcanon, hlen, hmark, hspace⟩ := hh
  exact hread _ ⟨hcanon, hlen, .inr ⟨hmark, .inr ⟨hspace, .inr ⟨hb, .inl rfl⟩⟩⟩⟩

theorem gap_written (hftr : durMatches s (element s (2 * n.toNat + 2)) f.ftrMark = true)
    (hlt : 2 * n.toNat + 3 < s.capLen.toNat) : (capRead s (2 * n.toNat + 3)).isSome = true := by
  obtain ⟨hcanon, hlen, hmark, hspace⟩ := hh
  exact hread _ ⟨hcanon, hlen, .inr ⟨hmark, .inr ⟨hspace, .inr ⟨hb, .inr ⟨hftr, rfl, hlt⟩⟩⟩⟩⟩

theorem parseFooter_of_footerMatches (h : footerMatches s f n.toNat) :
    parseFooter f (parsedTo st (2 * n.toNat + 2) v s) = .matched (parsedTo .footerMatched (2 * n.toNat + 3) v s) := by
  obtain ⟨hftr, hgap⟩ := h
  rw [parseFooter_parsedTo, Walk.read_written (footer_written hread hh hb), if_pos hftr]
  by_cases hlt : 2 * n.toNat + 3 < s.capLen.toNat
  · rw [if_pos hlt, Walk.read_written (gap_written hread hh hb hftr hlt), if_pos (hgap hlt)]
  · rw [if_neg hlt]

theorem parseFooter_of_not_footerMatches (h : ¬ footerMatches s f n.toNat) :
    parseFooter f (parsedTo st (2 * n.toNat + 2) v s) = .failed := by
  rw [parseFooter_parsedTo, Walk.read_written (footer_written hread hh hb)]
  by_cases hftr : durMatches s (element s (2 * n.toNat + 2)) f.ftrMark = true
  · have hlt : 2 * n.toNat + 3 < s.capLen.toNat := by
      by_contra hlt
      exact h ⟨hftr, fun hlt' => absurd hlt' hlt⟩
    have hgap : ¬ durMatchesAtLeast s (element s (2 * n.toNat + 3)) f.minGap = true := fun hg => h ⟨hftr, fun _ => hg⟩
    rw [if_pos hftr, if_pos hlt, Walk.read_written (gap_written hread hh hb hftr hlt), if_neg hgap]
  · rw [if_neg hftr]

end Footer

end Transitions

/-! ### The run of a DECODE -/

section Run

variable {s : State} {p : BitVec 2} {strict : Bool} {n : BitVec 7} (hs : Decoding p strict n s)
include hs

/-- From the two states that wait for Success the run is over in two steps. -/
theorem endsWithin_of_accepted {st : ParseState} (hst : st = .compliant ∨ st = .nonStrictAccepted) (c : Nat)
    (v : Payload) : endsWithin 2 (parsedTo st c v s) true (decodedResults (s.profile p) n v) := by
  have hgo : step (parsedTo st c v s) = .next (parsedTo .success c v s) := by
    rw [(hs.parsedTo st c v).step]
    rcases hst with rfl | rfl <;> rfl
  exact endsWithin_of_step hgo (endsWithin_of_complete (hs.parsedTo .success c v).step)

/-- The fourth transition: compliance if strict (43_parser.md R170). -/
theorem decides_of_footerMatched (c : Nat) (v : Payload) :
    decides 3 (parsedTo .footerMatched c v s) (strict = true → complies (s.profile p).codec v)
      (decodedResults (s.profile p) n v) := by
  have hsucc : ∀ st, st = .compliant ∨ st = .nonStrictAccepted →
      decides 2 (parsedTo st c v s) True (decodedResults (s.profile p) n v) := fun st hst =>
    ⟨fun _ => endsWithin_of_accepted hs hst c v, fun h => absurd trivial h⟩
  rw [← and_true (strict = true → _), ← comply_iff]
  have hd := hs.parsedTo .footerMatched c v
  have hstep : step (parsedTo .footerMatched c v s) =
    parseResult (parseCompliance (s.profile p) strict (parsedTo .footerMatched c v s)) _ := hd.step
  cases strict with
  | false =>
    exact decides_of_walk hd (by decide) hstep (fun _ => rfl) (fun h => absurd nofun h)
      fun _ => hsucc .nonStrictAccepted (.inr rfl)
  | true =>
    exact decides_of_walk hd (by decide) hstep (fun h => if_pos (h rfl)) (fun h => if_neg fun hc => h fun _ => hc)
      fun _ => hsucc .compliant (.inl rfl)

variable (hread : ∀ i, frameReads s (s.profile p) strict n i → (capRead s i).isSome = true)
include hread

/-- The third transition: the footer (43_parser.md R167, R168). -/
theorem decides_of_bodyMatched (hh : headerMatches s (s.profile p) strict n)
    (hb : bodyMatches s (s.profile p) 2 n.toNat) (v : Payload) :
    decides 4 (parsedTo .bodyMatched (2 * n.toNat + 2) v s)
      (footerMatches s (s.profile p) n.toNat ∧ (strict = true → complies (s.profile p).codec v))
      (decodedResults (s.profile p) n v) := by
  have hd := hs.parsedTo .bodyMatched (2 * n.toNat + 2) v
  exact decides_of_walk hd (by decide) hd.step (parseFooter_of_footerMatches hread hh hb .bodyMatched v)
    (parseFooter_of_not_footerMatches hread hh hb .bodyMatched v) fun _ => decides_of_footerMatched hs _ v

/-- The second transition: the body (43_parser.md R166). -/
theorem decides_of_headerMatched (hh : headerMatches s (s.profile p) strict n) (acc : Payload) :
    decides 5 (parsedTo .headerMatched 2 acc s)
      (bodyMatches s (s.profile p) 2 n.toNat ∧ footerMatches s (s.profile p) n.toNat ∧
        (strict = true → complies (s.profile p).codec (bodyPayload s (s.profile p) 2 n.toNat)))
      (decodedResults (s.profile p) n (bodyPayload s (s.profile p) 2 n.toNat)) := by
  have hd := hs.parsedTo .headerMatched 2 acc
  have hwalk := walkReads_written hread hh
  refine decides_of_walk hd (by decide) hd.step (fun hb => ?_) (fun hb => ?_)
    fun hb => decides_of_bodyMatched hs hread hh hb _
  · rw [parseBody, parsedTo_cur, bitDecode_parsedTo, profile_parsedTo, bitDecode_of_bodyMatches hwalk hb, Nat.add_comm]
  · rw [parseBody, parsedTo_cur, bitDecode_parsedTo, profile_parsedTo, bitDecode_of_not_bodyMatches hwalk hb]

/-- The whole run of a DECODE from its start: the checks of its four transitions decide it. -/
theorem decides_of_start (hparse : s.seq.parse = .start) :
    decides 6 s
      (headerMatches s (s.profile p) strict n ∧ bodyMatches s (s.profile p) 2 n.toNat ∧
        footerMatches s (s.profile p) n.toNat ∧
        (strict = true → complies (s.profile p).codec (bodyPayload s (s.profile p) 2 n.toNat)))
      (decodedResults (s.profile p) n (bodyPayload s (s.profile p) 2 n.toNat)) := by
  have hstart : step s = parseResult (parseStart (s.profile p) strict n s) s := by
    rw [hs.step, decodeStep, hparse]
  exact decides_of_walk hs (by decide) hstart (parseStart_of_headerMatches hread)
    (parseStart_of_not_headerMatches hread) fun hh => decides_of_headerMatched hs hread hh _

end Run

/-- The checks of the transitions together: the frame of 43_parser.md R160, and the strict checks. -/
theorem checks_iff (s : State) (f : Profile) (strict : Bool) (n : BitVec 7) (v : Payload) :
    (headerMatches s f strict n ∧ bodyMatches s f 2 n.toNat ∧ footerMatches s f n.toNat ∧
        (strict = true → complies f.codec v)) ↔
      frameMatches s f n.toNat ∧ (strict = true → n = f.nbitsCanon ∧ complies f.codec v) := by
  unfold headerMatches footerMatches frameMatches
  tauto

/-- Settles O25: the checks of the four transitions decide the run, and they are those of the frame. -/
theorem decodeAcceptsExactlyItsFrames : Obligations.DecodeAcceptsExactlyItsFrames := by
  intro s p strict n hr hp hn hcmd hparse hsched _ _ hcodec hread
  obtain ⟨hok, hfail⟩ := decides_of_start ⟨hr, hp, hn, hcmd, hsched⟩ hread hparse
  rw [checks_iff] at hok hfail
  have hholds := bodyHolds_bodyPayload s (s.profile p) 2 n.toNat
  by_cases h : frameMatches s (s.profile p) n.toNat ∧ (strict = true → n = (s.profile p).nbitsCanon ∧
      complies (s.profile p).codec (bodyPayload s (s.profile p) 2 n.toNat))
  · obtain ⟨k, st, c, v, hk, hrun⟩ := hok h
    exact ⟨_, k, _, hholds, hk, hrun, rfl, sameInputs_refl s, rfl, rfl,
      fun _ => ⟨payload_decodedResults _ _ _, rfl, fieldsAre_fields hcodec _, rfl, rfl⟩, fun h' => absurd h h'⟩
  · obtain ⟨k, st, c, v, hk, hrun⟩ := hfail h
    exact ⟨_, k, _, hholds, hk, hrun, rfl, sameInputs_refl s, rfl, rfl, fun h' => absurd h' h, fun _ => ⟨rfl, rfl⟩⟩

end Sys2Proof.Machine

/-! ## DECODE reads back the frame of a SEND -/

namespace Sys2Proof.Machine

/-! ### The tokens of frame 0 by position (42_assembler.md R143) -/

section WireFrame

variable (f : Profile) (v : Payload) (n : Nat) (e : Duration)

theorem wireFrame_zero : wireFrame f v n 0 e =
    [⟨.mark, f.hdrMark⟩, ⟨.space, f.hdrSpace⟩] ++ bodyTokens f v n ++ [⟨.mark, f.ftrMark⟩, ⟨.space, gap f e⟩] := by
  rw [wireFrame, if_pos (.inl rfl), wireBody_eq, wireGap_eq]

theorem wireFrame_zero_body {j : Nat} (h : j < 2 * n) : (wireFrame f v n 0 e)[2 + j]? = (bodyTokens f v n)[j]? := by
  rw [wireFrame_zero, List.getElem?_append_left (by simp; omega), List.getElem?_append_right (by simp)]
  simp

theorem wireFrame_zero_footer (j : Nat) : (wireFrame f v n 0 e)[2 * n + 2 + j]? =
    ([⟨.mark, f.ftrMark⟩, ⟨.space, gap f e⟩] : List Token)[j]? := by
  rw [wireFrame_zero, List.getElem?_append_right (by simp)]
  congr 1
  simp

end WireFrame

/-! ### A capture that holds the frame -/

/-- The capture holds the tokens of frame 0 of a SEND of v, from element 0 on. -/
def holdsFrame (s : State) (f : Profile) (v : Payload) (n : Nat) (e : Duration) : Prop :=
  ∀ i tok, (wireFrame f v n 0 e)[i]? = some tok → capRead s i = some tok.dur

/-- A measured Duration that is the expected one matches. -/
theorem durMatches_self (s : State) (d : Duration) : durMatches s d d = true :=
  (durMatches_iff s d d).2 ⟨Nat.le_add_right _ _, Nat.le_add_right _ _⟩

/-- Distinguishable spaces do not match each other (10_state.md R56). -/
theorem not_durMatches_of_distinguishable {s : State} {f : Profile} (h : distinguishable s f) :
    durMatches s f.oneSpace f.zeroSpace = false ∧ durMatches s f.zeroSpace f.oneSpace = false := by
  unfold distinguishable at h
  have hsplit := lt_abs.1 h
  constructor <;> rw [Bool.eq_false_iff, Ne, durMatches_iff] <;> omega

/-- A space sent for the bit b reads back as b. -/
theorem durMatches_sent_space {s : State} {f : Profile} (h : distinguishable s f) (b : Bool) :
    durMatches s (if b then f.oneSpace else f.zeroSpace) f.oneSpace = b ∧
      durMatches s (if b then f.oneSpace else f.zeroSpace) f.zeroSpace = !b := by
  obtain ⟨h1, h0⟩ := not_durMatches_of_distinguishable h
  cases b
  · exact ⟨h0, durMatches_self s _⟩
  · exact ⟨durMatches_self s _, h1⟩

/-- A DECODE reads nothing behind the gap (43_parser.md R161, R169). -/
theorem frameReads_lt {s : State} {f : Profile} {strict : Bool} {n : BitVec 7} {i : Nat}
    (h : frameReads s f strict n i) : i < 2 * n.toNat + 4 := by
  obtain ⟨-, -, rfl | ⟨-, rfl | ⟨-, hw | ⟨-, rfl | ⟨-, rfl, -⟩⟩⟩⟩⟩ := h
  case inr.inr.inl =>
    have := (walkReads_bounds hw).2
    omega
  all_goals omega

section HoldsFrame

variable {s : State} {f : Profile} {v : Payload} {n : Nat} {e : Duration} (h : holdsFrame s f v n e)
include h

theorem holdsFrame.element_eq {i : Nat} {tok : Token} (hi : (wireFrame f v n 0 e)[i]? = some tok) :
    element s i = tok.dur := element_of_some (h i tok hi)

/-- Every element of the frame holds a value. -/
theorem holdsFrame.written {i : Nat} (hi : i < 2 * n + 4) : (capRead s i).isSome = true := by
  have hlen : i < (wireFrame f v n 0 e).length := by
    rw [wireFrame_zero]
    simp
    omega
  rw [h i _ (List.getElem?_eq_getElem hlen)]
  rfl

/-- The k-th pair of the body: a bit mark, and the space of bit n−1−k. -/
theorem holdsFrame.pair {k : Nat} (hk : k < n) :
    element s (2 + 2 * k) = f.bitMark ∧
      element s (2 + 2 * k + 1) = if v.getLsbD (n - 1 - k) then f.oneSpace else f.zeroSpace := by
  obtain ⟨hmark, hspace⟩ := bodyTokens_pair f v hk
  rw [← wireFrame_zero_body f v n e (by omega)] at hmark hspace
  exact ⟨h.element_eq hmark, h.element_eq hspace⟩

/-- The body of the frame matches, and holds the low n bits of v. -/
theorem holdsFrame.body (hd : distinguishable s f) : bodyMatches s f 2 n := by
  intro k hk
  obtain ⟨hmark, hspace⟩ := h.pair hk
  obtain ⟨hone, hzero⟩ := durMatches_sent_space hd (v.getLsbD (n - 1 - k))
  rw [hmark, hspace, hone, hzero]
  exact ⟨durMatches_self s _, by simp⟩

theorem holdsFrame.payload (hd : distinguishable s f) {w : Payload} (hw : bodyHolds s f 2 n w) :
    w.toNat = v.toNat % 2 ^ n := by
  apply Nat.eq_of_testBit_eq
  intro j
  rw [Nat.testBit_mod_two_pow, BitVec.testBit_toNat, BitVec.testBit_toNat]
  by_cases hj : j < 64
  · rw [hw j hj]
    by_cases hjn : j < n
    · obtain ⟨-, hspace⟩ := h.pair (k := n - 1 - j) (by omega)
      rw [hspace, (durMatches_sent_space hd _).1, show n - 1 - (n - 1 - j) = j by omega]
    · simp [hjn]
  · simp [BitVec.getLsbD_of_ge _ j (Nat.le_of_not_lt hj)]

theorem holdsFrame.frame (hd : distinguishable s f) (hlen : s.capLen.toNat = 2 * n + 4) :
    frameMatches s f n := by
  have hhdr : element s 0 = f.hdrMark := h.element_eq (tok := ⟨.mark, f.hdrMark⟩) (by rw [wireFrame_zero]; rfl)
  have hspace : element s 1 = f.hdrSpace := h.element_eq (tok := ⟨.space, f.hdrSpace⟩) (by rw [wireFrame_zero]; rfl)
  have hftr : element s (2 * n + 2) = f.ftrMark := h.element_eq (wireFrame_zero_footer f v n e 0)
  have hgap : element s (2 * n + 3) = gap f e := h.element_eq (wireFrame_zero_footer f v n e 1)
  refine ⟨by omega, ?_, ?_, h.body hd, ?_, fun _ => ?_⟩
  · rw [hhdr]; exact durMatches_self s _
  · rw [hspace]; exact durMatches_self s _
  · rw [hftr]; exact durMatches_self s _
  · rw [hgap, durMatchesAtLeast_iff, gap_toNat]
    omega

end HoldsFrame

/-- Settles O26: a capture that holds the frame meets every check of O25, and its body holds the low bits of v. -/
theorem decodeInvertsSend : Obligations.DecodeInvertsSend := by
  intro s p n v e hr hp hn hcmd hparse hsched hlo hhi hcodec hdist hlen hholds
  have h : holdsFrame s (s.profile p) v n.toNat e := hholds
  have hread : ∀ i, frameReads s (s.profile p) false n i → (capRead s i).isSome = true := fun i hi =>
    h.written (frameReads_lt hi)
  obtain ⟨w, k, t, hw, -, hrun, hbusy, -, -, -, hok, -⟩ :=
    decodeAcceptsExactlyItsFrames s p false n hr hp hn hcmd hparse hsched hlo hhi hcodec hread
  obtain ⟨hres, hbits, -, hproto, hstatus⟩ := hok ⟨h.frame hdist hlen, nofun⟩
  exact ⟨k, t, hrun, hbusy, by rw [hstatus], by rw [hres, h.payload hdist hw], hbits, hproto⟩

end Sys2Proof.Machine

/-! ## The bus path to the registers -/

namespace Sys2Proof.Machine

/-! ### A step at an access of the host (20_memory.md R60, R69) -/

/-- What a register reads does not depend on what lies outside the block. -/
theorem readRegister_setEnv (s : State) (e : Environment) (r : Reg) : readRegister (s.setEnv e) r = readRegister s r := by
  cases r <;> rfl

section HostAccess

variable {s : State} {es : List Event} {off : Nat} (hr : s.inReset = false) (ho : off < windowSize) (ha : off % 4 = 0)
include hr ho ha

theorem step_hostWrite {v : Word} (hs : s.env.schedule = .host ⟨s.cfg.base + off, 4, .write v⟩ :: es) :
    step s = busWrite off v ((s.setSchedule es).respond .done) :=
  (step_host hs).trans (busAccess_write (s := s.setSchedule es) hr rfl ho ha)

theorem step_hostRead (hs : s.env.schedule = .host ⟨s.cfg.base + off, 4, .read⟩ :: es) :
    step s = .next (busRead off (s.setSchedule es)) :=
  (step_host hs).trans (busAccess_read (s := s.setSchedule es) hr rfl ho ha)

/-- A word read of a register that has a value is answered with it. -/
theorem step_hostRead_some {v : Word} (hs : s.env.schedule = .host ⟨s.cfg.base + off, 4, .read⟩ :: es)
    (hv : readRegister s (regAt s.cfg off) = some v) :
    step s = .next ((s.setSchedule es).respond (.data v)) := by
  have hread : readRegister (s.setSchedule es) (regAt (s.setSchedule es).cfg off) = some v :=
    (readRegister_setEnv s _ _).trans hv
  rw [step_hostRead hr ho ha hs, busRead, hread]

end HostAccess

/-- An access outside the window is not the block's. -/
theorem step_host_outside {s : State} {es : List Event} {a : BusAccess}
    (ha : a.addr < s.cfg.base ∨ s.cfg.base + windowSize ≤ a.addr) (hs : s.env.schedule = .host a :: es) :
    step s = .next (s.setSchedule es) := by
  have hw : windowOffset s.cfg a.addr = none := by rw [windowOffset, if_neg (by omega)]
  rw [step_host hs, busAccess, State.setSchedule_cfg, hw]
  split <;> rfl

/-- Settles O54: by the equations of a step at a bus access and at a write of the collaborator. -/
theorem writesReachTheirRegister : Obligations.WritesReachTheirRegister := by
  intro s es hr
  refine ⟨fun off v ho ha hs => step_hostWrite hr ho ha hs, fun i d ho hs => ?_, fun l hp hs => ?_,
    fun a width op ha hs => step_host_outside ha hs⟩
  · exact step_collaborator (w := .element i d) hr ho hs
  · rw [step_collaborator (w := .length l) hr (show offCapLen < windowSize by decide) hs]
    exact busWrite_idle hp

/-- Settles O32: a write is lost whatever its offset, and a read is a read. -/
theorem writesAreLostWhileBusy : Obligations.WritesAreLostWhileBusy := by
  intro s es hr hp
  refine ⟨fun off v ho ha hs => ?_, fun w ho hs => ?_, fun off v ho ha hs hv => step_hostRead_some hr ho ha hs hv⟩
  · rw [step_hostWrite hr ho ha hs]
    exact busWrite_busy hp
  · rw [step_collaborator hr ho hs]
    exact busWrite_busy hp

/-! ### The step of the decoded command (30_encoding.md R80) -/

theorem step_commandWrite {s : State} {w : Word} {i : Instr} {es : List Event} (hr : s.inReset = false)
    (hp : s.seq.phase = .idle) (hs : s.env.schedule = .host ⟨s.cfg.base + 0x008, 4, .write w⟩ :: es)
    (hd : decode w = .ok i) : step s = exec i ((s.setSchedule es).respond .done) :=
  calc step s
      = busWrite 0x008 w ((s.setSchedule es).respond .done) := step_hostWrite hr (by decide) (by decide) hs
    _ = commandWrite w ((s.setSchedule es).respond .done) := busWrite_idle hp
    _ = exec i ((s.setSchedule es).respond .done) := by simp only [commandWrite, hd]

theorem decode_of_decodeTableWord {k w : Nat} {i : Instr} (h : decodeTableWord k w = some i) :
    decode (BitVec.ofNat 32 (w % 2 ^ k)) = .ok i := by
  unfold decodeTableWord at h
  split at h
  · cases h; assumption
  · cases h

/-- Settles O5: the `CMD` write, and the sequencer's turn with and without an event for it. -/
theorem stepRunsTheDecodedCommand : Obligations.StepRunsTheDecodedCommand :=
  ⟨fun _ _ _ _ hr hp hs hd => step_commandWrite hr hp hs hd, fun _ _ _ hr hp hs hd => step_sequencer hr hp hd hs,
    fun _ _ hr hp hs hd => step_unscheduled hr hp hd hs,
    fun s w _ hd => step_commandWrite (s := s.withFetchWord 32 w) rfl rfl rfl (decode_of_decodeTableWord hd)⟩

/-! ### What each register reads (10_state.md R30 to R48) -/

/-- A field in the low bits of a register, the bits above it reserved. -/
theorem setWidth_eq_zero_append {n : Nat} (m : Nat) (x : BitVec n) : x.setWidth (m + n) = 0#m ++ x := by
  apply BitVec.eq_of_getLsbD_eq
  intro j hj
  rw [BitVec.getLsbD_append, BitVec.getLsbD_setWidth]
  by_cases h : j < n
  · simp [h, hj]
  · simp [h, BitVec.getLsbD_of_ge x j (Nat.le_of_not_lt h)]

/-- A word offset of the window whose register reads v. -/
def readsAs (s : State) (off : Nat) (v : Word) : Prop :=
  off < windowSize ∧ off % 4 = 0 ∧ readRegister s (regAt s.cfg off) = some v

/-- A register before the banks. -/
theorem readsAs_global {s : State} {off : Nat} {v : Word}
    (h : readRegister s (regAt s.cfg off) = some v) (ho : off < 0x40 := by decide) (ha : off % 4 = 0 := by decide) :
    readsAs s off v := ⟨ho.trans (by decide), ha, h⟩

theorem readRegister_profOffset (s : State) (p : BitVec 2) (r : ProfReg) :
    readRegister s (regAt s.cfg (profOffset p r)) = some ((s.profile p).readReg r) := by
  rw [regAt_profile]
  rfl

theorem readsAs_profile (s : State) (p : BitVec 2) (r : ProfReg) :
    readsAs s (profOffset p r) ((s.profile p).readReg r) := by
  have hp := p.isLt
  refine ⟨?_, ?_, readRegister_profOffset s p r⟩
  · have hle := r.offset_le
    simp only [profOffset, windowSize]
    omega
  · have ho : r.offset % 4 = 0 := by cases r <;> rfl
    simp only [profOffset]
    omega

/-- The offset as the register's own plus the bank's (10_state.md R30). -/
theorem readsAs_bank (s : State) (p : BitVec 2) (r : ProfReg) :
    readsAs s (0x100 + r.offset + 0x40 * p.toNat) ((s.profile p).readReg r) := by
  rw [Nat.add_right_comm]
  exact readsAs_profile s p r

/-- Settles O53: each listed offset reads as its value, and a read is answered with it. -/
theorem registersReadTheirValues : Obligations.RegistersReadTheirValues := by
  intro s p off v es hr hs hmem
  obtain ⟨ho, ha, hv⟩ : readsAs s off v := by
    refine (?_ : ∀ x ∈ _, readsAs s x.1 x.2) _ hmem
    simp only [List.forall_mem_append, List.forall_mem_cons, List.not_mem_nil, false_implies, implies_true, and_true]
    have field {n : Nat} (m : Nat) (x : BitVec n) : some (x.setWidth (m + n)) = some (0#m ++ x) :=
      congrArg some (setWidth_eq_zero_append m x)
    have bank := readsAs_bank s p
    exact ⟨⟨⟨readsAs_global (field 31 _), readsAs_global rfl, readsAs_global (field 24 _), readsAs_global rfl,
          readsAs_global rfl, readsAs_global rfl, readsAs_global rfl, readsAs_global rfl, readsAs_global rfl⟩,
        readsAs_global rfl, readsAs_global rfl, readsAs_global (field 25 _), readsAs_global (field 16 _),
          readsAs_global (field 24 _), readsAs_global (field 24 _)⟩,
      bank .hdrMark, bank .hdrSpace, bank .bitMark, bank .oneSpace, bank .zeroSpace, bank .ftrMark, bank .minGap,
        bank .minFrame, bank .rptSpace, bank .format, bank .carrier⟩
  exact step_hostRead_some hr ho ha hs hv

end Sys2Proof.Machine

/-! ## Register writes, and the values after reset -/

namespace Sys2Proof.Machine

/-! ### STATUS (10_state.md R24) -/

/-- STATUS's word by position. -/
theorem getLsbD_toWord (st : Status) (busy : Bool) (j : Nat) :
    (st.toWord busy).getLsbD j =
      if j = 0 then busy else if j = 1 then st.done else if j = 2 then st.ok else if j = 3 then st.err
      else if j < 8 then st.errcode.getLsbD (j - 4) else (decide (j = 8) && st.wign) := by
  rw [Status.toWord, BitVec.getLsbD_append]
  simp only [BitVec.getLsbD_append, BitVec.getLsbD_ofBool, BitVec.getLsbD_zero]
  match j with
  | 0 | 1 | 2 | 3 => rfl
  | j + 4 =>
    by_cases h : j < 4
    · simp [h, show j + 4 < 8 by omega]
    · simp [h, show ¬ j + 4 < 8 by omega, show j - 4 = 0 ↔ j = 4 by omega]

/-- STATUS's word by field. -/
theorem toWord_bits (st : Status) (busy : Bool) :
    (st.toWord busy).getLsbD 0 = busy ∧ (st.toWord busy).getLsbD 1 = st.done ∧ (st.toWord busy).getLsbD 2 = st.ok ∧
      (st.toWord busy).getLsbD 3 = st.err ∧ (st.toWord busy).extractLsb' 4 4 = st.errcode ∧
      (st.toWord busy).getLsbD 8 = st.wign ∧ st.toWord busy >>> 9 = 0 := by
  refine ⟨getLsbD_toWord st busy 0, getLsbD_toWord st busy 1, getLsbD_toWord st busy 2, getLsbD_toWord st busy 3, ?_,
    getLsbD_toWord st busy 8, ?_⟩
  · apply BitVec.eq_of_getLsbD_eq
    intro j hj
    rw [BitVec.getLsbD_extractLsb', getLsbD_toWord, Nat.add_comm]
    simp [hj, show j + 4 < 8 by omega]
  · apply BitVec.eq_of_getLsbD_eq
    intro j _
    rw [BitVec.getLsbD_ushiftRight, getLsbD_toWord, Nat.add_comm]
    simp

/-- Settles O33: by STATUS's word and its host write. -/
theorem statusReadsAndClears : Obligations.StatusReadsAndClears := fun s =>
  ⟨⟨_, rfl, toWord_bits s.status s.busy⟩, fun _ hp => busWrite_idle hp⟩

/-! ### The operand registers and the configuration (10_state.md R36 to R43) -/

/-- Settles O34: each is the register at its offset. -/
theorem operandRegistersHoldWhatIsWritten : Obligations.OperandRegistersHoldWhatIsWritten := fun _ _ hp =>
  ⟨busWrite_idle hp, busWrite_idle hp, busWrite_idle hp, busWrite_idle hp, busWrite_idle hp, rfl, rfl, rfl, rfl, rfl⟩

theorem lockableWrite_locked {s : State} (h : s.lock = true) (t : State) : lockableWrite s t = loseWrite s := if_pos h

theorem lockableWrite_unlocked {s : State} (h : s.lock = false) (t : State) : lockableWrite s t = t := by
  simp [lockableWrite, h]

/-- A write of a profile register while BUSY = 0. -/
theorem busWrite_profile {s : State} (hp : s.seq.phase = .idle) (p : BitVec 2) (r : ProfReg) (v : Word) :
    busWrite (profOffset p r) v s = .next (lockableWrite s (s.setProfile p ((s.profile p).writeReg v r))) := by
  rw [busWrite_idle hp, regAt_profile]
  rfl

/-- Settles O37: the lockable registers are lost or taken by LOCK, and CTRL only sets it. -/
theorem lockedRegistersIgnoreWrites : Obligations.LockedRegistersIgnoreWrites := by
  intro s v hp
  refine ⟨busWrite_idle hp, fun off hoff hl => ?_, fun hl => ⟨?_, ?_⟩⟩
  · have hlost (t : State) : Host.Outcome.next (lockableWrite s t) = (.next (loseWrite s) : Result) :=
      congrArg _ (lockableWrite_locked hl t)
    rcases hoff with rfl | rfl | ⟨p, r, rfl⟩
    · exact (busWrite_idle hp).trans (hlost _)
    · exact (busWrite_idle hp).trans (hlost _)
    · exact (busWrite_profile hp p r v).trans (hlost _)
  · exact (busWrite_idle hp).trans (congrArg _ (lockableWrite_unlocked hl _))
  · exact (busWrite_idle hp).trans (congrArg _ (lockableWrite_unlocked hl _))

/-! ### The profile registers (10_state.md R30 to R34) -/

/-- FORMAT without its reserved bits. -/
theorem format_fields (v : Word) :
    0#8 ++ v.extractLsb' 16 8 ++ 0#4 ++ v.extractLsb' 10 2 ++ v.extractLsb' 8 2 ++ v.extractLsb' 7 1 ++
      v.extractLsb' 0 7 = v &&& 0x00FF0FFF := by
  have hword : v.extractLsb' 24 8 ++ v.extractLsb' 16 8 ++ v.extractLsb' 12 4 ++ v.extractLsb' 10 2 ++
      v.extractLsb' 8 2 ++ v.extractLsb' 7 1 ++ v.extractLsb' 0 7 = v := by
    rw [BitVec.extractLsb'_append_extractLsb'_eq_extractLsb' (show 24 = 16 + 8 from rfl),
      BitVec.extractLsb'_append_extractLsb'_eq_extractLsb' (show 16 = 12 + 4 from rfl),
      BitVec.extractLsb'_append_extractLsb'_eq_extractLsb' (show 12 = 10 + 2 from rfl),
      BitVec.extractLsb'_append_extractLsb'_eq_extractLsb' (show 10 = 8 + 2 from rfl),
      BitVec.extractLsb'_append_extractLsb'_eq_extractLsb' (show 8 = 7 + 1 from rfl),
      BitVec.extractLsb'_append_extractLsb'_eq_extractLsb' (show 7 = 0 + 7 from rfl)]
    exact BitVec.extractLsb'_eq_self
  have hmask : (v.extractLsb' 24 8 ++ v.extractLsb' 16 8 ++ v.extractLsb' 12 4 ++ v.extractLsb' 10 2 ++
      v.extractLsb' 8 2 ++ v.extractLsb' 7 1 ++ v.extractLsb' 0 7) &&&
      (0#8 ++ BitVec.allOnes 8 ++ 0#4 ++ BitVec.allOnes 2 ++ BitVec.allOnes 2 ++ BitVec.allOnes 1 ++ BitVec.allOnes 7) =
      0#8 ++ v.extractLsb' 16 8 ++ 0#4 ++ v.extractLsb' 10 2 ++ v.extractLsb' 8 2 ++ v.extractLsb' 7 1 ++
        v.extractLsb' 0 7 := by
    simp only [BitVec.and_append, BitVec.and_allOnes, BitVec.and_zero]
  rw [hword] at hmask
  exact hmask.symm

/-- CARRIER without its reserved bits. -/
theorem carrier_fields (v : Word) : 0#8 ++ v.extractLsb' 16 8 ++ v.extractLsb' 0 16 = v &&& 0x00FFFFFF := by
  have hword : v.extractLsb' 24 8 ++ v.extractLsb' 16 8 ++ v.extractLsb' 0 16 = v := by
    rw [BitVec.extractLsb'_append_extractLsb'_eq_extractLsb' (show 24 = 16 + 8 from rfl),
      BitVec.extractLsb'_append_extractLsb'_eq_extractLsb' (show 16 = 0 + 16 from rfl)]
    exact BitVec.extractLsb'_eq_self
  have hmask : (v.extractLsb' 24 8 ++ v.extractLsb' 16 8 ++ v.extractLsb' 0 16) &&&
      (0#8 ++ BitVec.allOnes 8 ++ BitVec.allOnes 16) = 0#8 ++ v.extractLsb' 16 8 ++ v.extractLsb' 0 16 := by
    simp only [BitVec.and_append, BitVec.and_allOnes, BitVec.and_zero]
  rw [hword] at hmask
  exact hmask.symm

theorem readReg_writeReg_other (f : Profile) (v : Word) {r r' : ProfReg} (h : r' ≠ r) :
    (f.writeReg v r).readReg r' = f.readReg r' := by
  cases r <;> cases r' <;>
    simp [Profile.readReg, Profile.writeReg, Profile.formatWord, Profile.carrierWord] at h ⊢

/-- A register of the bank written reads from the new bank, one of another bank as before. -/
theorem readReg_setProfile (s : State) (p q : BitVec 2) (v : Word) {r r' : ProfReg} (h : (q, r') ≠ (p, r)) :
    ((s.setProfile p ((s.profile p).writeReg v r)).profile q).readReg r' = (s.profile q).readReg r' := by
  by_cases hq : q = p
  · subst hq
    rw [State.profile_setProfile_self, readReg_writeReg_other _ _ fun hr => h (by rw [hr])]
  · rw [State.profile_setProfile_other s hq]

/-- Settles O35: the write is that of one register of one bank. -/
theorem profileRegistersHoldWhatIsWritten : Obligations.ProfileRegistersHoldWhatIsWritten := by
  intro s p r v hp hl
  refine ⟨_, (busWrite_profile hp p r v).trans (congrArg _ (lockableWrite_unlocked hl _)), ?_, fun q r' h => ?_, rfl⟩
  · refine (readRegister_profOffset _ p r).trans (congrArg some ?_)
    rw [State.profile_setProfile_self]
    cases r with
    | format => exact format_fields v
    | carrier => exact carrier_fields v
    | _ => rfl
  · refine (readRegister_profOffset _ q r').trans ?_
    rw [readReg_setProfile s p q v h]
    exact (readRegister_profOffset s q r').symm

/-! ### Reserved bits, read-only registers and unmapped offsets (10_state.md R49) -/

/-- The bits of r are reserved in the register at an offset: they read 0, and a write does the same whatever they hold. -/
def reservedBits (s : State) (off : Nat) (r : Word) : Prop :=
  (∃ w, readRegister s (regAt s.cfg off) = some w ∧ w &&& r = 0) ∧
    ∀ v, writeRegister s (v &&& ~~~r) (regAt s.cfg off) = writeRegister s v (regAt s.cfg off)

/-- A mask that leaves a field alone. -/
theorem extractLsb'_and_of_allOnes (v : Word) {m : Word} {start len : Nat}
    (h : m.extractLsb' start len = BitVec.allOnes len) : (v &&& m).extractLsb' start len = v.extractLsb' start len := by
  rw [BitVec.extractLsb'_and, h, BitVec.and_allOnes]

theorem getLsbD_and_of_true (v : Word) {m : Word} {j : Nat} (h : m.getLsbD j = true) :
    (v &&& m).getLsbD j = v.getLsbD j := by
  rw [BitVec.getLsbD_and, h, Bool.and_true]

/-- A field in the low bits of a register meets none of the bits above it. -/
theorem setWidth_and_eq_zero {n : Nat} (x : BitVec n) {r : Word} (h : r.setWidth n = 0) : x.setWidth 32 &&& r = 0 := by
  apply BitVec.eq_of_getLsbD_eq
  intro j hj
  rw [BitVec.getLsbD_and, BitVec.getLsbD_setWidth]
  by_cases hjn : j < n
  · have hbit := congrArg (BitVec.getLsbD · j) h
    have hr : r.getLsbD j = false := by simpa [hjn] using hbit
    simp [hr]
  · simp [BitVec.getLsbD_of_ge x j (Nat.le_of_not_lt hjn)]

/-- STATUS's word holds 0 in the bits above WIGN. -/
theorem toWord_and (st : Status) (busy : Bool) : st.toWord busy &&& 0xFFFFFE00 = 0 := by
  have h : (0#23 ++ BitVec.ofBool st.wign ++ st.errcode ++ BitVec.ofBool st.err ++ BitVec.ofBool st.ok ++
      BitVec.ofBool st.done ++ BitVec.ofBool busy) &&& (0x7FFFFF#23 ++ 0#1 ++ 0#4 ++ 0#1 ++ 0#1 ++ 0#1 ++ 0#1) = 0 := by
    simp only [BitVec.and_append, BitVec.zero_and, BitVec.and_zero]
    rfl
  exact h

theorem formatWord_and (f : Profile) : f.formatWord &&& 0xFF00F000 = 0 := by
  have h : (0#8 ++ f.protoId ++ 0#4 ++ f.codec ++ f.rptMode ++ f.order ++ f.nbitsCanon) &&&
      (0xFF#8 ++ 0#8 ++ 0xF#4 ++ 0#2 ++ 0#2 ++ 0#1 ++ 0#7) = 0 := by
    simp only [BitVec.and_append, BitVec.zero_and, BitVec.and_zero]
    rfl
  exact h

theorem carrierWord_and (f : Profile) : f.carrierWord &&& 0xFF000000 = 0 := by
  have h : (0#8 ++ f.dutyPct ++ f.freqKhz) &&& (0xFF#8 ++ 0#8 ++ 0#16) = 0 := by
    simp only [BitVec.and_append, BitVec.zero_and, BitVec.and_zero]
    rfl
  exact h

section ReservedBits

variable (s : State)

theorem reservedBits_ctrl : reservedBits s 0x000 0xFFFFFFFE#32 := by
  refine ⟨⟨_, rfl, setWidth_and_eq_zero _ rfl⟩, fun v => ?_⟩
  have h := getLsbD_and_of_true v (m := ~~~0xFFFFFFFE#32) (j := 0) rfl
  simp only [regAt, if_true, writeRegister, h]

theorem reservedBits_status : reservedBits s 0x004 0xFFFFFE00#32 := by
  refine ⟨⟨_, rfl, toWord_and _ _⟩, fun v => ?_⟩
  have h (j : Nat) (hj : (~~~0xFFFFFE00#32).getLsbD j = true) := getLsbD_and_of_true v hj
  have hst : s.status.hostWrite (v &&& ~~~0xFFFFFE00#32) = s.status.hostWrite v := by
    simp only [Status.hostWrite, h 1 rfl, h 3 rfl, h 8 rfl]
  exact congrArg (fun st => Host.Outcome.next (s.setStatus st)) hst

theorem reservedBits_tol : reservedBits s 0x00C 0xFFFFFF00#32 := by
  refine ⟨⟨_, rfl, setWidth_and_eq_zero _ rfl⟩, fun v => ?_⟩
  exact congrArg (fun x => Host.Outcome.next (lockableWrite s { s with tolPct := x })) (extractLsb'_and_of_allOnes v rfl)

theorem reservedBits_format (p : BitVec 2) : reservedBits s (profOffset p .format) 0xFF00F000#32 := by
  refine ⟨⟨_, readRegister_profOffset s p .format, formatWord_and _⟩, fun v => ?_⟩
  have hreg : (s.profile p).writeReg (v &&& ~~~0xFF00F000#32) .format = (s.profile p).writeReg v .format := by
    have h (start len : Nat) (hm : (~~~0xFF00F000#32).extractLsb' start len = BitVec.allOnes len) :=
      extractLsb'_and_of_allOnes v hm
    simp only [Profile.writeReg, h 0 7 rfl, h 7 1 rfl, h 8 2 rfl, h 10 2 rfl, h 16 8 rfl]
  rw [regAt_profile]
  exact congrArg (fun f => Host.Outcome.next (lockableWrite s (s.setProfile p f))) hreg

theorem reservedBits_carrier (p : BitVec 2) : reservedBits s (profOffset p .carrier) 0xFF000000#32 := by
  refine ⟨⟨_, readRegister_profOffset s p .carrier, carrierWord_and _⟩, fun v => ?_⟩
  have hreg : (s.profile p).writeReg (v &&& ~~~0xFF000000#32) .carrier = (s.profile p).writeReg v .carrier := by
    have h (start len : Nat) (hm : (~~~0xFF000000#32).extractLsb' start len = BitVec.allOnes len) :=
      extractLsb'_and_of_allOnes v hm
    simp only [Profile.writeReg, h 0 16 rfl, h 16 8 rfl]
  rw [regAt_profile]
  exact congrArg (fun f => Host.Outcome.next (lockableWrite s (s.setProfile p f))) hreg

/-- The result registers with a field narrower than the word. -/
theorem reservedBits_res : reservedBits s 0x030 0xFFFFFF80#32 ∧ reservedBits s 0x034 0xFFFF0000#32 ∧
    reservedBits s 0x038 0xFFFFFF00#32 ∧ reservedBits s 0x03C 0xFFFFFF00#32 :=
  ⟨⟨⟨_, rfl, setWidth_and_eq_zero _ rfl⟩, fun _ => rfl⟩, ⟨⟨_, rfl, setWidth_and_eq_zero _ rfl⟩, fun _ => rfl⟩,
    ⟨⟨_, rfl, setWidth_and_eq_zero _ rfl⟩, fun _ => rfl⟩, ⟨⟨_, rfl, setWidth_and_eq_zero _ rfl⟩, fun _ => rfl⟩⟩

end ReservedBits

theorem reservedBits.busWrite {s : State} {off : Nat} {r : Word} (h : reservedBits s off r) (v : Word) :
    busWrite off (v &&& ~~~r) s = busWrite off v s := by
  obtain ⟨-, hwrite⟩ := h
  rw [Machine.busWrite, hwrite v, Machine.busWrite]

theorem profRegAt_eq_none {off : Nat} (h : 0x2C ≤ off) : profRegAt off = none := by
  unfold profRegAt
  repeat rw [if_neg (by omega)]

/-- The offsets no register stands at (10_state.md R53). -/
theorem regAt_unmapped (c : Config) {off : Nat}
    (h : (0x040 ≤ off ∧ off < 0x100) ∨ (0x100 ≤ off ∧ off < 0x200 ∧ 0x2C ≤ off % 0x40) ∨ (0x200 ≤ off ∧ off < 0x1000) ∨
      (0x1000 + 4 * c.capDepth ≤ off ∧ off < 0x2000)) : regAt c off = .unmapped := by
  rw [regAt_high c (by omega)]
  by_cases hbank : 0x100 ≤ off ∧ off < 0x200
  · rw [if_pos hbank, bankRegAt, profRegAt_eq_none (by omega)]
  · rw [if_neg hbank, if_neg (by simp only [captureBase]; omega)]

/-- Settles O36: register by register for the reserved bits, by the map for the unmapped offsets. -/
theorem reservedReadOnlyAndUnmapped : Obligations.ReservedReadOnlyAndUnmapped := by
  intro s v
  refine ⟨fun off r hmem => ?_, fun off hmem hp => ?_, fun off _ hoff => ?_⟩
  · have h : reservedBits s off r := by
      refine (?_ : ∀ x ∈ _, reservedBits s x.1 x.2) _ hmem
      simp only [List.forall_mem_cons, List.not_mem_nil, false_implies, implies_true, and_true]
      obtain ⟨hbits, haddr, hcmd, hproto⟩ := reservedBits_res s
      have format := reservedBits_format s
      have carrier := reservedBits_carrier s
      exact ⟨reservedBits_ctrl s, reservedBits_status s, reservedBits_tol s, hbits, haddr, hcmd, hproto, format 0,
        format 1, format 2, format 3, carrier 0, carrier 1, carrier 2, carrier 3⟩
    exact ⟨h.1, h.busWrite v⟩
  · rw [busWrite_idle hp]
    refine (?_ : ∀ x ∈ _, writeRegister s v (regAt s.cfg x) = .next s) _ hmem
    simp only [List.forall_mem_cons, List.not_mem_nil, false_implies, implies_true, and_true]
    exact ⟨rfl, rfl, rfl, rfl, rfl, rfl⟩
  · rw [regAt_unmapped s.cfg hoff]
    refine ⟨rfl, fun hp => ?_⟩
    rw [busWrite_idle hp, regAt_unmapped s.cfg hoff]
    rfl

/-! ### Reset (10_state.md R54) -/

/-- The reset state holds the values of R54, whatever the parameters and the outside. -/
theorem holdsResetValues_reset (c : Config) (e : Environment) (b : Bool) :
    holdsResetValues { State.reset with cfg := c, env := e, inReset := b } := by
  have hprof (p : BitVec 2) : State.reset.profile p = Profile.zero := by
    simp [State.profile, State.reset]
  refine ⟨rfl, rfl, rfl, rfl, rfl, rfl, rfl, rfl, rfl, rfl, rfl, fun p r => ?_, fun _ => rfl, rfl, rfl⟩
  change (State.reset.profile p).readReg r = 0
  rw [hprof]
  cases r <;> rfl

/-- Settles O46: asserting and releasing reset gives the reset state with the parameters and the outside kept. -/
theorem resetValues : Obligations.ResetValues := by
  refine ⟨holdsResetValues_reset State.reset.cfg State.reset.env false, fun s es hs => ?_⟩
  have hassert : step s = .next (assertReset (s.setSchedule (.resetRelease :: es))) := by
    unfold step stepOnce
    rw [hs]
    rfl
  exact ⟨_, (runFor_succ 1 hassert).trans rfl, holdsResetValues_reset s.cfg { s.env with schedule := es } false, rfl, rfl,
    rfl⟩

/-- Settles O49: nothing was programmed and no command runs. -/
theorem invariantHoldsAtReset : Obligations.InvariantHoldsAtReset where
  cfg := by decide
  memory := rfl
  whole := nofun
  idle := fun _ => rfl
  running := nofun
  error := Status.consistent_cleared State.reset.status
  bits := Nat.zero_le _
  reset := nofun

end Sys2Proof.Machine

/-! ## The capture RAM: its writes, and the window's accesses that leave the block alone -/

namespace Sys2Proof.Machine

/-! ### The write of an element (20_memory.md R61, R64, R67) -/

/-- The four bytes of a stored word, the low one first. -/
theorem Memory.readByte_writeWord_same (m : Memory) (a : Nat) (v : Word) {k : Nat} (hk : k < 4) :
    (m.writeWord a v).readByte (a + k) = some (v.extractLsb' (8 * k) 8) := by
  simp only [writeWord, readByte_writeByte]
  interval_cases k <;> simp

/-- Every element of the capture RAM lies in the window. -/
theorem captureOffset_lt_windowSize {c : Config} (hc : c.wf = true) {i : Nat} (hi : i < c.capDepth) :
    captureOffset i < windowSize := by
  simp only [Config.wf, Bool.and_eq_true, decide_eq_true_eq] at hc
  simp only [captureOffset, captureBase, windowSize]
  omega

theorem busWrite_captureOffset {s : State} (hp : s.seq.phase = .idle) {i : Nat} (hi : i < s.cfg.capDepth) (v : Word) :
    busWrite (captureOffset i) v s = .next (capWrite s i v) := by
  rw [busWrite_idle hp, regAt_capture s.cfg hi]
  rfl

/-- The host and the collaborator reach the same write; what they leave outside the block differs. -/
theorem step_writeElement {s : State} {i : Nat} {v : Word} {es : List Event} (hc : s.cfg.wf = true)
    (hr : s.inReset = false) (hp : s.seq.phase = .idle) (hi : i < s.cfg.capDepth)
    (hs : s.env.schedule = .host ⟨s.cfg.base + captureOffset i, 4, .write v⟩ :: es ∨
      s.env.schedule = .collaborator (.element i v) :: es) :
    ∃ e, step s = .next (capWrite (s.setEnv e) i v) := by
  have ho := captureOffset_lt_windowSize hc hi
  rcases hs with hs | hs
  · have ha : captureOffset i % 4 = 0 := by
      simp only [captureOffset, captureBase]
      omega
    exact ⟨_, (step_hostWrite hr ho ha hs).trans (busWrite_captureOffset (s := (s.setSchedule es).respond .done) hp hi v)⟩
  · exact ⟨_, (step_collaborator (w := .element i v) hr ho hs).trans
      (busWrite_captureOffset (s := s.setSchedule es) hp hi v)⟩

/-- Settles O41: both agents reach the element's write, whose effect the laws of the capture RAM give. -/
theorem captureWriteStoresOneElement : Obligations.CaptureWriteStoresOneElement := by
  intro s i v es hc hr hp hi hs
  obtain ⟨e, hstep⟩ := step_writeElement hc hr hp hi hs
  exact ⟨_, hstep, capRead_capWrite_same _ i v, fun j hj => capRead_capWrite_other (s.setEnv e) v hj,
    fun k hk => Memory.readByte_writeWord_same s.capture _ v hk,
    fun a ha => Memory.readByte_writeWord_other s.capture v ha, fun hw => Memory.wf_writeWord _ v hw, rfl⟩

/-! ### Accesses that leave the block alone (20_memory.md R65, R69, R70) -/

/-- Settles O39: by whether the bus carries errors, and by the access where it carries none. -/
theorem misalignedAndNarrowAccesses : Obligations.MisalignedAndNarrowAccesses := by
  intro s off width op es hr ho hbad hs
  have hstep : step s = .next (badAccess op (s.setSchedule es)) :=
    (step_host hs).trans (busAccess_bad (s := s.setSchedule es) hr rfl ho hbad)
  refine ⟨_, hstep, ?_⟩
  unfold badAccess
  cases hb : (s.setSchedule es).cfg.busErrors with
  | true => exact ⟨rfl, fun _ => rfl, fun h => absurd (hb.symm.trans h) (by decide)⟩
  | false =>
    refine ⟨?_, fun h => absurd (hb.symm.trans h) (by decide), fun _ hread => ?_⟩
    · cases op <;> rfl
    · subst hread
      exact ⟨_, _, rfl⟩

/-- Settles O40: by whether the register holds a value. -/
theorem readsHaveNoSideEffect : Obligations.ReadsHaveNoSideEffect := by
  intro s off es hr ho ha hs
  cases hv : readRegister s (regAt s.cfg off) with
  | some v => exact ⟨_, v, s.env.draws, step_hostRead_some hr ho ha hs hv, rfl, fun w hw => ⟨Option.some.inj hw, rfl⟩⟩
  | none =>
    have hfree : busRead off (s.setSchedule es) = freeRead (s.setSchedule es) := by
      rw [busRead, State.setSchedule, readRegister_setEnv, State.setEnv_cfg, hv]
    exact ⟨_, _, _, (step_hostRead hr ho ha hs).trans (congrArg _ hfree), rfl, nofun⟩

end Sys2Proof.Machine

/-! ## The elements a command reads -/

namespace Sys2Proof.Machine

/-! ### The fault of an element never written (20_memory.md R65) -/

theorem Walk.read_unwritten {α : Type} {s : State} {i : Nat} (h : capRead s i = none) (k : Duration → Walk α) :
    Walk.read s i k = .unwritten i := by simp [Walk.read, h]

section DecodeStep

variable {s : State} (p : BitVec 2) (strict : Bool) (n : BitVec 7)

/-! DECODE's transition in the three parser states that read the capture (43_parser.md R172). -/

theorem decodeStep_start (h : s.seq.parse = .start) :
    decodeStep p strict n s = parseResult (parseStart (s.profile p) strict n s) s := by simp only [decodeStep, h]

theorem decodeStep_headerMatched (h : s.seq.parse = .headerMatched) :
    decodeStep p strict n s = parseResult (parseBody (s.profile p) n s) s := by simp only [decodeStep, h]

theorem decodeStep_bodyMatched (h : s.seq.parse = .bodyMatched) :
    decodeStep p strict n s = parseResult (parseFooter (s.profile p) s) s := by simp only [decodeStep, h]

end DecodeStep

/-- Past the strict count and the length, the first transition is the header's walk (43_parser.md R165). -/
theorem parseStart_of_fits {s : State} {f : Profile} {strict : Bool} {n : BitVec 7}
    (hcanon : strict = true → n = f.nbitsCanon) (hlen : 2 * n.toNat + 3 ≤ s.capLen.toNat) :
    parseStart f strict n s = Walk.read s 0 fun m =>
      if durMatches s m f.hdrMark then
        Walk.read s 1 fun sp =>
          if durMatches s sp f.hdrSpace then .matched (parsedTo .headerMatched 2 s.seq.acc s) else .failed
      else .failed := by
  rw [parseStart, startOffset_add_leastFrame, if_neg (by simpa using hcanon), if_neg (by omega)]
  rfl

/-- Without them it fails before it reads an element (43_parser.md R162, R164). -/
theorem parseStart_of_not_fits {s : State} {f : Profile} {strict : Bool} {n : BitVec 7}
    (h : ¬ ((strict = true → n = f.nbitsCanon) ∧ 2 * n.toNat + 3 ≤ s.capLen.toNat)) :
    parseStart f strict n s = .failed := by
  rw [parseStart, startOffset_add_leastFrame]
  by_cases hcanon : strict = true → n = f.nbitsCanon
  · have hlen : s.capLen.toNat < 2 * n.toNat + 3 := Nat.lt_of_not_le fun hlen => h ⟨hcanon, hlen⟩
    rw [if_neg (by simpa using hcanon), if_pos hlen]
  · rw [if_pos (by simpa using hcanon)]

/-- Settles O24: in each reading state of the two commands the walk stops at the element, and its end is the fault. -/
theorem unwrittenElementFaults : Obligations.UnwrittenElementFaults := by
  intro s p strict n hp hn
  rw [exec_bdec_run hp hn, exec_decode_run hp hn]
  refine ⟨fun k hfit hk => ?_, fun hparse hcanon hlen => ?_, fun k hparse hk => ?_, fun hparse => ?_⟩
  · rw [bdecStep, if_neg (by omega), bitDecode_stops 0 hk]
  · rw [decodeStep_start p strict n hparse, parseStart_of_fits hcanon hlen]
    refine ⟨fun h0 => ?_, fun h0 hmark h1 => ?_⟩
    · rw [Walk.read_unwritten h0, parseResult]
    · rw [Walk.read_written h0, if_pos hmark, Walk.read_unwritten h1, parseResult]
  · rw [decodeStep_headerMatched p strict n hparse, parseBody, bitDecode_stops 0 hk, parseResult]
  · rw [decodeStep_bodyMatched p strict n hparse, parseFooter]
    refine ⟨fun h0 => ?_, fun h0 hmark hlt h1 => ?_⟩
    · rw [Walk.read_unwritten h0, parseResult]
    · rw [Walk.read_written h0, if_pos hmark, if_pos hlt, Walk.read_unwritten h1, parseResult]

/-! ### Every read lies below CAP_LEN (20_memory.md R62) -/

/-- If the walk stops at an element, that element lies below CAP_LEN and was never written. -/
def Walk.stopsBelow {α : Type} (s : State) (w : Walk α) : Prop :=
  ∀ k, w = .unwritten k → k < s.capLen.toNat ∧ capRead s k = none

section StopsBelow

variable {α : Type} {s : State} {f : Profile} {n : BitVec 7}

theorem Walk.stopsBelow_matched (a : α) : (Walk.matched a).stopsBelow s := nofun

theorem Walk.stopsBelow_failed : (Walk.failed : Walk α).stopsBelow s := nofun

theorem Walk.stopsBelow_read {i : Nat} {k : Duration → Walk α} (hi : i < s.capLen.toNat) (hk : ∀ d, (k d).stopsBelow s) :
    (Walk.read s i k).stopsBelow s := by
  cases h : capRead s i with
  | none =>
    rw [Walk.read_unwritten h]
    rintro _ ⟨⟩
    exact ⟨hi, h⟩
  | some d =>
    rw [Walk.read_some h]
    exact hk d

/-- A check of an element already read. -/
theorem Walk.stopsBelow_check (b : Bool) {w : Walk α} (hw : w.stopsBelow s) : (if b then w else .failed).stopsBelow s := by
  cases b with
  | true => exact hw
  | false => exact stopsBelow_failed

theorem bitDecode_stopsBelow {c : Nat} (hc : c + 2 * n.toNat ≤ s.capLen.toNat) :
    (bitDecode s f n.toNat c 0).stopsBelow s := by
  intro k hk
  obtain ⟨-, hlt, hnone⟩ := bitDecode_unwritten hk
  exact ⟨by omega, hnone⟩

theorem parseStart_stopsBelow {strict : Bool} : (parseStart f strict n s).stopsBelow s := by
  by_cases h : (strict = true → n = f.nbitsCanon) ∧ 2 * n.toNat + 3 ≤ s.capLen.toNat
  · obtain ⟨hcanon, hlen⟩ := h
    rw [parseStart_of_fits hcanon hlen]
    exact Walk.stopsBelow_read (by omega) fun m => Walk.stopsBelow_check _ <|
      Walk.stopsBelow_read (by omega) fun sp => Walk.stopsBelow_check _ <| Walk.stopsBelow_matched _
  · rw [parseStart_of_not_fits h]
    exact Walk.stopsBelow_failed

theorem parseBody_stopsBelow (hc : s.seq.cur + 2 * n.toNat ≤ s.capLen.toNat) : (parseBody f n s).stopsBelow s := by
  have hw := bitDecode_stopsBelow (f := f) hc
  unfold parseBody
  cases h : bitDecode s f n.toNat s.seq.cur 0 with
  | matched a => exact Walk.stopsBelow_matched _
  | failed => exact Walk.stopsBelow_failed
  | unwritten i =>
    rintro _ ⟨⟩
    exact hw i h

theorem parseFooter_stopsBelow (hc : s.seq.cur < s.capLen.toNat) : (parseFooter f s).stopsBelow s := by
  refine Walk.stopsBelow_read hc fun m => Walk.stopsBelow_check _ ?_
  split
  · exact Walk.stopsBelow_read ‹_› fun g => Walk.stopsBelow_check _ <| Walk.stopsBelow_matched _
  · exact Walk.stopsBelow_matched _

end StopsBelow

/-- A step answers a next state, or stops at an element below CAP_LEN that was never written. -/
def nextOrUnwritten (s : State) (r : Result) : Prop :=
  (∃ t, r = .next t) ∨ ∃ k, r = .fault (.unwrittenCapture k) ∧ k < s.capLen.toNat ∧ capRead s k = none

section Steps

variable {s : State} {p : BitVec 2} {strict : Bool} {n : BitVec 7}

theorem nextOrUnwritten_parseResult {w : Walk State} (hw : w.stopsBelow s) : nextOrUnwritten s (parseResult w s) := by
  cases w with
  | matched t => exact .inl ⟨_, rfl⟩
  | failed => exact .inl ⟨_, rfl⟩
  | unwritten k => exact .inr ⟨k, rfl, hw k rfl⟩

theorem nextOrUnwritten_bdecStep : nextOrUnwritten s (bdecStep p n s) := by
  unfold bdecStep
  split
  · exact .inl ⟨_, rfl⟩
  · have hw := bitDecode_stopsBelow (s := s) (f := s.profile p) (n := n) (c := s.cursor.toNat) (by omega)
    cases h : bitDecode s (s.profile p) n.toNat s.cursor.toNat 0 with
    | matched a => exact .inl ⟨_, rfl⟩
    | failed => exact .inl ⟨_, rfl⟩
    | unwritten k => exact .inr ⟨k, rfl, hw k h⟩

theorem nextOrUnwritten_decodeStep (hpos : positionOk (.decode p strict n) s) :
    nextOrUnwritten s (decodeStep p strict n s) := by
  obtain ⟨-, hheader, hbody⟩ := hpos
  cases h : s.seq.parse with
  | start =>
    rw [decodeStep_start p strict n h]
    exact nextOrUnwritten_parseResult parseStart_stopsBelow
  | headerMatched =>
    obtain ⟨hcur, hlen⟩ := hheader h
    rw [decodeStep_headerMatched p strict n h]
    exact nextOrUnwritten_parseResult (parseBody_stopsBelow (by omega))
  | bodyMatched =>
    obtain ⟨hcur, hlen⟩ := hbody h
    rw [decodeStep_bodyMatched p strict n h]
    exact nextOrUnwritten_parseResult (parseFooter_stopsBelow (by omega))
  | footerMatched =>
    rw [decodeStep, h]
    refine nextOrUnwritten_parseResult ?_
    unfold parseCompliance
    split
    · exact Walk.stopsBelow_check _ (Walk.stopsBelow_matched _)
    · exact Walk.stopsBelow_matched _
  | compliant | nonStrictAccepted | success | failure =>
    rw [decodeStep, h]
    exact .inl ⟨_, rfl⟩

end Steps

/-- BDEC and DECODE: the commands that read the capture. -/
def WalksCapture (i : Instr) : Prop :=
  (∃ p n, i = .bdec p n) ∨ ∃ p b n, i = .decode p b n

/-- A running command answers a next state, but for a walk that needs an element never written. -/
theorem exec_run_outcome {i : Instr} {s : State} (hp : s.seq.phase = .run) (hpos : positionOk i s) :
    (∃ t, exec i s = .next t) ∨ (WalksCapture i ∧ nextOrUnwritten s (exec i s)) := by
  cases hn : s.seq.pending with
  | some k => exact .inl ⟨s, exec_pending i hp hn⟩
  | none =>
    cases i with
    | matchWithin => exact .inl ⟨_, exec_matchWithin_run hp hn⟩
    | matchAtLeast => exact .inl ⟨_, exec_matchAtLeast_run hp hn⟩
    | rev n => exact .inl ⟨_, exec_rev_run hp hn n⟩
    | benc p n => exact .inl ⟨_, exec_benc_run hp hn p n⟩
    | bdec p n =>
      rw [exec_bdec_run hp hn]
      exact .inr ⟨.inl ⟨p, n, rfl⟩, nextOrUnwritten_bdecStep⟩
    | send p n r => exact .inl ⟨_, exec_send_run hp hn p n r⟩
    | decode p b n =>
      rw [exec_decode_run hp hn]
      exact .inr ⟨.inr ⟨p, b, n, rfl⟩, nextOrUnwritten_decodeStep hpos⟩
    | penc p => exact .inl ⟨_, exec_penc_run hp hn p⟩
    | pchk p b n => exact .inl ⟨_, exec_pchk_run hp hn p b n⟩

/-! ### What can stop a step -/

theorem sequencerStep_outcome (s : State) :
    (∃ t, sequencerStep s = .next t) ∨
      ∃ i, s.seq.phase = .run ∧ decode s.seq.cmd = .ok i ∧ sequencerStep s = exec i s := by
  unfold sequencerStep
  split
  · exact .inl ⟨s, rfl⟩
  · cases hp : s.seq.phase with
    | idle => exact .inl ⟨s, rfl⟩
    | run =>
      cases hd : decode s.seq.cmd with
      | error e => exact .inl ⟨s, rfl⟩
      | ok i => exact .inr ⟨i, rfl, rfl, rfl⟩

theorem hostLineStep_next (s : State) : ∃ t, hostLineStep s = .next t := by
  unfold hostLineStep
  split
  · exact ⟨s, rfl⟩
  · split
    · exact ⟨s, rfl⟩
    · exact busAccess_next _ _

theorem collaboratorStep_next (w : CaptureWrite) (s : State) : ∃ t, collaboratorStep w s = .next t := by
  unfold collaboratorStep
  split
  · exact ⟨s, rfl⟩
  · split
    · exact busWrite_next _ _ _
    · exact ⟨s, rfl⟩

/-- A step that has no next state is the sequencer's step of the running command. -/
theorem step_outcome (s : State) :
    (∃ t, step s = .next t) ∨
      ∃ i, s.seq.phase = .run ∧ decode s.seq.cmd = .ok i ∧ step s = exec i s.taken := by
  unfold step stepOnce
  cases hs : s.env.schedule with
  | nil =>
    rw [State.taken_nil hs]
    exact sequencerStep_outcome s
  | cons e es =>
    have htaken : s.taken = s.setSchedule es := by simp [State.taken, hs]
    rw [htaken]
    cases e with
    | host a => exact .inl (busAccess_next a _)
    | hostLine => exact .inl (hostLineStep_next _)
    | sequencer => exact sequencerStep_outcome (s.setSchedule es)
    | driver | clockTick | resetAssert | resetRelease => exact .inl ⟨_, rfl⟩
    | collaborator w => exact .inl (collaboratorStep_next w _)

/-- An accepted BDEC or DECODE has a capture that fits its RAM (43_parser.md R163). -/
theorem capLen_le_of_accepted {i : Instr} {s : State} (hi : WalksCapture i) (h : acceptanceError i s = none) :
    s.capLen.toNat ≤ s.cfg.capDepth := by
  rcases hi with ⟨p, n, rfl⟩ | ⟨p, b, n, rfl⟩ <;> simp_all [acceptanceError, checkCapLen]

/-- What a step can do from a state that meets the invariant: answer a next state, or stop a running BDEC or DECODE at an
element below CAP_LEN that was never written. -/
theorem State.Inv.step_outcome {s : State} (h : s.Inv) :
    (∃ t, step s = .next t) ∨
      ∃ i k, s.seq.phase = .run ∧ decode s.seq.cmd = .ok i ∧ WalksCapture i ∧ s.capLen.toNat ≤ s.cfg.capDepth ∧
        step s = .fault (.unwrittenCapture k) ∧ k < s.capLen.toNat ∧ capRead s k = none := by
  rcases Machine.step_outcome s with hnext | ⟨i, hp, hd, hstep⟩
  · exact .inl hnext
  · obtain ⟨j, hj, hacc, hpos, -⟩ := (h.setEnv { s.env with schedule := s.env.schedule.tail }).running hp
    obtain rfl : i = j := by simpa [hd] using hj
    rw [hstep]
    rcases exec_run_outcome (s := s.taken) hp hpos with hnext | ⟨hi, hnext | ⟨k, hk, hlt, hnone⟩⟩
    · exact .inl hnext
    · exact .inl hnext
    · exact .inr ⟨i, k, hp, hd, hi, capLen_le_of_accepted hi hacc, hk, hlt, hnone⟩

/-- Settles O51: by what a step can do from a state that meets the invariant. -/
theorem onlyAnUnwrittenElementStopsTheMachine : Obligations.OnlyAnUnwrittenElementStopsTheMachine := by
  intro s h
  rcases h.step_outcome with ⟨t, ht⟩ | ⟨i, k, hp, hd, hi, hlen, hk, hlt, hnone⟩
  · rw [ht]
    exact ⟨nofun, nofun, fun _ => ⟨t, rfl⟩⟩
  · rw [hk]
    refine ⟨nofun, fun j hj => ?_, fun hcap => ?_⟩
    · obtain rfl : k = j := by simpa using hj
      refine ⟨hp, hlt, hlen, hnone, ?_⟩
      rcases hi with ⟨p, n, rfl⟩ | ⟨p, b, n, rfl⟩
      · exact .inl ⟨p, n, hd⟩
      · exact .inr ⟨p, b, n, hd⟩
    · exact absurd (hcap k hlt) (by simp [hnone])

/-! ### What a command does on another capture (20_memory.md R62) -/

/-- Replace the capture RAM. -/
def State.setCapture (s : State) (m : Memory) : State := { s with capture := m }

section SetCapture

variable (s : State) (m : Memory)

@[simp] theorem State.setCapture_cursor : (s.setCapture m).cursor = s.cursor := rfl
@[simp] theorem State.setCapture_capLen : (s.setCapture m).capLen = s.capLen := rfl
@[simp] theorem State.setCapture_seq : (s.setCapture m).seq = s.seq := rfl
@[simp] theorem State.profile_setCapture (p : BitVec 2) : (s.setCapture m).profile p = s.profile p := rfl
@[simp] theorem State.op_setCapture : (s.setCapture m).op = s.op := rfl
@[simp] theorem State.opAddress_setCapture : (s.setCapture m).opAddress = s.opAddress := rfl
@[simp] theorem State.opCommand_setCapture : (s.setCapture m).opCommand = s.opCommand := rfl

theorem perform_setCapture (f : Profile) (a : Action) : perform f (s.setCapture m) a = (perform f s a).setCapture m := by
  cases a <;> rfl

/-! The steps that read no element. -/

theorem bencStep_setCapture (p : BitVec 2) (n : BitVec 7) :
    bencStep p n (s.setCapture m) = (bencStep p n s).setCapture m := by
  rw [bencStep, bencStep, State.profile_setCapture, State.op_setCapture, State.setCapture_seq]
  cases (bodyTokens (s.profile p) s.op n.toNat)[s.seq.step]? <;> rfl

theorem sendStep_setCapture (p : BitVec 2) (n : BitVec 7) (r : BitVec 12) :
    sendStep p n r (s.setCapture m) = (sendStep p n r s).setCapture m := by
  rw [sendStep, sendStep, State.profile_setCapture, State.op_setCapture, State.setCapture_seq]
  cases (sendActions (s.profile p) s.op n.toNat s.seq.frame)[s.seq.step]? with
  | some a => exact perform_setCapture s m _ a
  | none =>
    by_cases hf : s.seq.frame < r.toNat
    · simp only [if_pos hf]
      rfl
    · simp only [if_neg hf]
      rfl

theorem pencStep_setCapture (p : BitVec 2) : pencStep p (s.setCapture m) = (pencStep p s).setCapture m := by
  rw [pencStep, pencStep, State.profile_setCapture, State.opAddress_setCapture, State.opCommand_setCapture]
  cases codecPayload (s.profile p).codec s.opAddress s.opCommand <;> rfl

theorem pchkStep_setCapture (p : BitVec 2) (b : Bool) (n : BitVec 7) :
    pchkStep p b n (s.setCapture m) = (pchkStep p b n s).setCapture m := by
  rw [pchkStep, pchkStep, State.profile_setCapture, State.op_setCapture]
  cases strictChecks (s.profile p) b n s.op <;> rfl

end SetCapture

/-- The walk of another result. -/
def Walk.map {α β : Type} (g : α → β) : Walk α → Walk β
  | .matched a => .matched (g a)
  | .failed => .failed
  | .unwritten i => .unwritten i

/-- The step with its next state changed. -/
def onNext (g : State → State) : Result → Result
  | .next t => .next (g t)
  | .fault r => .fault r
  | .refused r => .refused r

theorem Walk.map_check {α β : Type} {g : α → β} (b : Bool) {w : Walk α} {w' : Walk β} (h : w' = w.map g) :
    (if b then w' else .failed) = (if b then w else .failed : Walk α).map g := by
  cases b with
  | true => exact h
  | false => rfl

theorem parseResult_setCapture (w : Walk State) (s : State) (m : Memory) :
    parseResult (w.map (·.setCapture m)) (s.setCapture m) = onNext (·.setCapture m) (parseResult w s) := by
  cases w <;> rfl

section Agreement

variable {s : State} {m : Memory} (hm : ∀ j, j < s.capLen.toNat → capRead (s.setCapture m) j = capRead s j)
include hm

theorem Walk.read_setCapture {α β : Type} {g : α → β} {i : Nat} {k : Duration → Walk α} {k' : Duration → Walk β}
    (hi : i < s.capLen.toNat) (hk : ∀ d, k' d = (k d).map g) :
    Walk.read (s.setCapture m) i k' = (Walk.read s i k).map g := by
  rw [Walk.read_eq, Walk.read_eq, hm i hi]
  cases capRead s i with
  | none => rfl
  | some d => exact hk d

theorem bitDecode_setCapture (f : Profile) {n c : Nat} (hc : c + 2 * n ≤ s.capLen.toNat) (acc : Payload) :
    bitDecode (s.setCapture m) f n c acc = bitDecode s f n c acc :=
  bitDecode_congr (s := s) (t := s.setCapture m) rfl rfl f acc fun i _ hi => hm i (by omega)

theorem parseStart_setCapture (f : Profile) (strict : Bool) (n : BitVec 7) :
    parseStart f strict n (s.setCapture m) = (parseStart f strict n s).map (·.setCapture m) := by
  by_cases h : (strict = true → n = f.nbitsCanon) ∧ 2 * n.toNat + 3 ≤ s.capLen.toNat
  · obtain ⟨hcanon, hlen⟩ := h
    rw [parseStart_of_fits hcanon hlen, parseStart_of_fits (s := s.setCapture m) hcanon hlen]
    exact Walk.read_setCapture hm (by omega) fun d => Walk.map_check (durMatches s d _) <|
      Walk.read_setCapture hm (by omega) fun d => Walk.map_check (durMatches s d _) rfl
  · rw [parseStart_of_not_fits h, parseStart_of_not_fits (s := s.setCapture m) h]
    rfl

theorem parseBody_setCapture (f : Profile) {n : BitVec 7} (hc : s.seq.cur + 2 * n.toNat ≤ s.capLen.toNat) :
    parseBody f n (s.setCapture m) = (parseBody f n s).map (·.setCapture m) := by
  rw [parseBody, parseBody, State.setCapture_seq, bitDecode_setCapture hm f hc]
  cases bitDecode s f n.toNat s.seq.cur 0 <;> rfl

theorem parseFooter_setCapture (f : Profile) (hc : s.seq.cur < s.capLen.toNat) :
    parseFooter f (s.setCapture m) = (parseFooter f s).map (·.setCapture m) := by
  refine Walk.read_setCapture hm hc fun d => Walk.map_check (durMatches s d _) ?_
  rw [State.setCapture_seq, State.setCapture_capLen]
  by_cases hgap : s.seq.cur + 1 < s.capLen.toNat
  · rw [if_pos hgap, if_pos hgap]
    exact Walk.read_setCapture hm hgap fun d => Walk.map_check (durMatchesAtLeast s d _) rfl
  · rw [if_neg hgap, if_neg hgap]
    rfl

theorem bdecStep_setCapture (p : BitVec 2) (n : BitVec 7) :
    bdecStep p n (s.setCapture m) = onNext (·.setCapture m) (bdecStep p n s) := by
  rw [bdecStep, bdecStep, State.setCapture_capLen, State.setCapture_cursor, State.profile_setCapture]
  by_cases hfit : s.capLen.toNat < s.cursor.toNat + 2 * n.toNat
  · rw [if_pos hfit, if_pos hfit]
    rfl
  · rw [if_neg hfit, if_neg hfit, bitDecode_setCapture hm _ (by omega)]
    cases bitDecode s (s.profile p) n.toNat s.cursor.toNat 0 <;> rfl

theorem decodeStep_setCapture {p : BitVec 2} {strict : Bool} {n : BitVec 7} (hpos : positionOk (.decode p strict n) s) :
    decodeStep p strict n (s.setCapture m) = onNext (·.setCapture m) (decodeStep p strict n s) := by
  obtain ⟨-, hheader, hbody⟩ := hpos
  cases h : s.seq.parse with
  | start =>
    rw [decodeStep_start p strict n h, decodeStep_start (s := s.setCapture m) p strict n h, ← parseResult_setCapture,
      State.profile_setCapture, parseStart_setCapture hm]
  | headerMatched =>
    obtain ⟨hcur, hlen⟩ := hheader h
    rw [decodeStep_headerMatched p strict n h, decodeStep_headerMatched (s := s.setCapture m) p strict n h,
      ← parseResult_setCapture, State.profile_setCapture, parseBody_setCapture hm _ (by omega)]
  | bodyMatched =>
    obtain ⟨hcur, hlen⟩ := hbody h
    rw [decodeStep_bodyMatched p strict n h, decodeStep_bodyMatched (s := s.setCapture m) p strict n h,
      ← parseResult_setCapture, State.profile_setCapture, parseFooter_setCapture hm _ (by omega)]
  | footerMatched =>
    have hwalk : parseCompliance (s.profile p) strict (s.setCapture m) =
        (parseCompliance (s.profile p) strict s).map (·.setCapture m) := by
      cases strict with
      | true => exact Walk.map_check (comply (s.profile p).codec s.seq.acc) rfl
      | false => rfl
    simp only [decodeStep, h, State.setCapture_seq, State.profile_setCapture, hwalk, parseResult_setCapture]
  | compliant | nonStrictAccepted | success | failure =>
    simp only [decodeStep, h, State.setCapture_seq]
    rfl

/-- A running command does the same on two captures that agree below CAP_LEN. -/
theorem exec_setCapture {i : Instr} (hp : s.seq.phase = .run) (hn : s.seq.pending = none) (hpos : positionOk i s) :
    exec i (s.setCapture m) = onNext (·.setCapture m) (exec i s) := by
  have hp' : (s.setCapture m).seq.phase = .run := hp
  have hn' : (s.setCapture m).seq.pending = none := hn
  cases i with
  | matchWithin =>
    rw [exec_matchWithin_run hp hn, exec_matchWithin_run hp' hn']
    rfl
  | matchAtLeast =>
    rw [exec_matchAtLeast_run hp hn, exec_matchAtLeast_run hp' hn']
    rfl
  | rev n =>
    rw [exec_rev_run hp hn, exec_rev_run hp' hn']
    rfl
  | benc p n =>
    rw [exec_benc_run hp hn, exec_benc_run hp' hn', bencStep_setCapture]
    rfl
  | bdec p n => rw [exec_bdec_run hp hn, exec_bdec_run hp' hn', bdecStep_setCapture hm]
  | send p n r =>
    rw [exec_send_run hp hn, exec_send_run hp' hn', sendStep_setCapture]
    rfl
  | decode p b n => rw [exec_decode_run hp hn, exec_decode_run hp' hn', decodeStep_setCapture hm hpos]
  | penc p =>
    rw [exec_penc_run hp hn, exec_penc_run hp' hn', pencStep_setCapture]
    rfl
  | pchk p b n =>
    rw [exec_pchk_run hp hn, exec_pchk_run hp' hn', pchkStep_setCapture]
    rfl

end Agreement

/-- Settles O27: a command's step on another capture is its step with that capture. -/
theorem captureBeyondItsLengthIsNotRead : Obligations.CaptureBeyondItsLengthIsNotRead := by
  intro s t m i hp hn hpos hm ht
  exact (exec_setCapture hm hp hn hpos).trans (congrArg (onNext (·.setCapture m)) ht)

end Sys2Proof.Machine

/-! ## The decoder by the rows of R83 -/

namespace Sys2Proof

open Laws.FixedBits (reserved_bits)

/-- Settles O2: the opcode of the encoding names the command, and the encoding meets the command's row. -/
theorem decodeInvertsEncode : Obligations.DecodeInvertsEncode := decode_encode

/-! ### A word that meets a row of R83 -/

theorem commandWord_inj {op op' : BitVec 8} {p p' : BitVec 2} {s s' : Bool} {n n' : BitVec 7} {r r' : BitVec 12} :
    commandWord op p s n r = commandWord op' p' s' n' r' ↔ op = op' ∧ p = p' ∧ s = s' ∧ n = n' ∧ r = r' := by
  constructor
  · intro h
    exact ⟨by simpa using congrArg fieldOp h, by simpa using congrArg fieldProf h,
      by simpa using congrArg fieldStrict h, by simpa using congrArg fieldNbits h, by simpa using congrArg fieldRepeat h⟩
  · rintro ⟨rfl, rfl, rfl, rfl, rfl⟩
    rfl

/-- A field's bits in a mask of R83: none where the command uses the field (U), all where it must be 0 (Z). -/
def fieldMask (used : Bool) (n : Nat) : BitVec n := bif used then 0 else BitVec.allOnes n

/-- A field meets its mask exactly if it is used or 0. -/
theorem and_fieldMask_eq_zero_iff {k : Nat} (used : Bool) (x : BitVec k) :
    x &&& fieldMask used k = 0 ↔ (bif used then x else 0) = x := by
  cases used with
  | false => simp only [fieldMask, cond_false, BitVec.and_allOnes, eq_comm]
  | true => simp [fieldMask]

/-- A word that meets a row of R83 is the command word of the row's opcode and the word's used fields. -/
theorem commandWord_of_and_mask {w m : Word} {op : BitVec 8} (up us un ur : Bool)
    (hm : fieldMask ur 12 ++ 1#1 ++ fieldMask un 7 ++ 1#1 ++ BitVec.ofBool (!us) ++ fieldMask up 2 ++ 0xFF#8 = m)
    (h : w &&& m = commandWord op 0 false 0 0) :
    commandWord op (bif up then fieldProf w else 0) (us && fieldStrict w) (bif un then fieldNbits w else 0)
      (bif ur then fieldRepeat w else 0) = w := by
  have hreserved {j : Nat} (hmask : m.getLsbD j = true) (hz : (commandWord op 0 false 0 0).getLsbD j = false) :
      w.getLsbD j = false := by
    rw [← h, BitVec.getLsbD_and, hmask, Bool.and_true] at hz
    exact hz
  obtain ⟨h11, h19⟩ := reserved_bits op 0 false 0 0
  have hm11 : m.getLsbD 11 = true := by
    simp only [← hm, BitVec.getLsbD_append]
    rfl
  have hm19 : m.getLsbD 19 = true := by
    simp only [← hm, BitVec.getLsbD_append]
    rfl
  have hw := word_eq_commandWord w (hreserved hm11 h11) (hreserved hm19 h19)
  rw [hw, ← hm, commandWord_and, commandWord_inj, and_fieldMask_eq_zero_iff, and_fieldMask_eq_zero_iff,
    and_fieldMask_eq_zero_iff] at h
  obtain ⟨hop, hp, hs, hn, hr⟩ := h
  rw [hp, hn, hr]
  refine Eq.trans ?_ hw.symm
  rw [commandWord_inj]
  refine ⟨?_, rfl, ?_, rfl, rfl⟩
  · rw [← hop]
    exact BitVec.and_allOnes
  · cases us with
    | false => simpa using hs.symm
    | true => rfl

/-- The command with the same mnemonic and the fields that stand in `w` (30_encoding.md R80). -/
def Instr.withFieldsOf (w : Word) : Instr → Instr
  | .matchWithin => .matchWithin
  | .matchAtLeast => .matchAtLeast
  | .rev _ => .rev (fieldNbits w)
  | .benc _ _ => .benc (fieldProf w) (fieldNbits w)
  | .bdec _ _ => .bdec (fieldProf w) (fieldNbits w)
  | .send _ _ _ => .send (fieldProf w) (fieldNbits w) (fieldRepeat w)
  | .decode _ _ _ => .decode (fieldProf w) (fieldStrict w) (fieldNbits w)
  | .penc _ => .penc (fieldProf w)
  | .pchk _ _ _ => .pchk (fieldProf w) (fieldStrict w) (fieldNbits w)

@[simp] theorem rowOf_withFieldsOf (w : Word) (i : Instr) : rowOf (i.withFieldsOf w) = rowOf i := by
  cases i <;> rfl

/-- A word meets a command's row exactly if it is the encoding of that mnemonic with the word's own fields. -/
theorem meets_row_iff (w : Word) (i : Instr) :
    w &&& (rowOf i).mask = (rowOf i).pattern ↔ encode (i.withFieldsOf w) = w := by
  constructor
  · intro h
    cases i with
    | matchWithin => exact commandWord_of_and_mask false false false false rfl h
    | matchAtLeast => exact commandWord_of_and_mask false false false false rfl h
    | rev n => exact commandWord_of_and_mask false false true false rfl h
    | benc p n => exact commandWord_of_and_mask true false true false rfl h
    | bdec p n => exact commandWord_of_and_mask true false true false rfl h
    | send p n r => exact commandWord_of_and_mask true false true true rfl h
    | decode p b n => exact commandWord_of_and_mask true true true false rfl h
    | penc p => exact commandWord_of_and_mask true false false false rfl h
    | pchk p b n => exact commandWord_of_and_mask true true true false rfl h
  · intro h
    simpa [h] using encode_and_mask (i.withFieldsOf w)

/-! ### What the decoder reads (30_encoding.md R82, R84) -/

/-- An OP value names its command, with the fields of the word. -/
theorem of_commandOf_eq_some {w : Word} {i : Instr} (h : commandOf w = some i) :
    fieldOp w = fieldOp (rowOf i).pattern ∧ i.withFieldsOf w = i := by
  simp only [commandOf] at h
  split_ifs at h <;> cases h <;> exact ⟨‹_›, rfl⟩

theorem commandOf_eq_none_iff (w : Word) :
    commandOf w = none ↔ fieldOp w ∉ [0x01#8, 0x02#8, 0x03#8, 0x10#8, 0x11#8, 0x20#8, 0x30#8, 0x40#8, 0x41#8] := by
  simp only [commandOf]
  split_ifs <;> simp [*]

theorem decode_of_commandOf_eq_none {w : Word} (h : commandOf w = none) : decode w = .error .illegal := by
  simp only [decode, h]

theorem decode_of_commandOf_eq_some {w : Word} {i : Instr} (h : commandOf w = some i) :
    decode w = if w &&& (rowOf i).mask = (rowOf i).pattern then .ok i else .error .rsv := by
  simp only [decode, h]

theorem decode_eq_illegal_iff (w : Word) : decode w = .error .illegal ↔ commandOf w = none := by
  cases h : commandOf w with
  | none => simp [decode_of_commandOf_eq_none h]
  | some i =>
    rw [decode_of_commandOf_eq_some h]
    split <;> simp

/-- An accepted word holds its command's opcode and meets its row. -/
theorem of_decode_eq_ok {w : Word} {i : Instr} (h : decode w = .ok i) :
    commandOf w = some i ∧ w &&& (rowOf i).mask = (rowOf i).pattern := by
  cases hc : commandOf w with
  | none => simp [decode_of_commandOf_eq_none hc] at h
  | some k =>
    rw [decode_of_commandOf_eq_some hc] at h
    split at h
    · cases h
      exact ⟨rfl, ‹_›⟩
    · cases h

theorem decode_eq_ok_iff (w : Word) (i : Instr) : decode w = .ok i ↔ encode i = w := by
  constructor
  · intro h
    obtain ⟨hc, hm⟩ := of_decode_eq_ok h
    have hw := (meets_row_iff w i).1 hm
    rwa [(of_commandOf_eq_some hc).2] at hw
  · rintro rfl
    exact decode_encode i

/-- Settles O3: the word meets its command's row, so it is that mnemonic's encoding with its own fields. -/
theorem encodeInvertsDecode : Obligations.EncodeInvertsDecode := fun w i => (decode_eq_ok_iff w i).1

/-- The row of R83 selects the command: the decoder reads it, with the word's own fields. -/
theorem meets_row_iff_decode (w : Word) (i : Instr) :
    w &&& (rowOf i).mask = (rowOf i).pattern ↔ decode w = .ok (i.withFieldsOf w) :=
  (meets_row_iff w i).trans (decode_eq_ok_iff w _).symm

/-- Settles O4: each row selects its mnemonic with the word's own fields. -/
theorem maskAndMatchSelectTheCommand : Obligations.MaskAndMatchSelectTheCommand := fun w =>
  ⟨meets_row_iff_decode w .matchWithin, meets_row_iff_decode w .matchAtLeast, meets_row_iff_decode w (.rev 0),
    meets_row_iff_decode w (.benc 0 0), meets_row_iff_decode w (.bdec 0 0), meets_row_iff_decode w (.send 0 0 0),
    meets_row_iff_decode w (.decode 0 false 0), meets_row_iff_decode w (.penc 0),
    meets_row_iff_decode w (.pchk 0 false 0)⟩

/-- Settles O7: ERR_ILLEGAL is the answer exactly where the OP value names no command. -/
theorem reservedOpcodeIsIllegal : Obligations.ReservedOpcodeIsIllegal := fun w =>
  ((decode_eq_illegal_iff w).trans (commandOf_eq_none_iff w)).symm

/-- Settles O1: the decoder computes on the eleven words. -/
theorem specWordsDecode : Obligations.SpecWordsDecode := by
  unfold Obligations.SpecWordsDecode
  decide

end Sys2Proof

/-! ## The host's program lines and the `CMD` write -/

namespace Sys2Proof.Machine

/-! ### The host's program (30_encoding.md R89, R90) -/

/-- A host program's next line is its bus access, and the program goes on behind it unless the line polls. -/
theorem step_hostLine {s : State} {l : HostLine} {ls : List HostLine} {es : List Event} (hr : s.inReset = false)
    (hs : s.env.schedule = .hostLine :: es) (hl : s.env.program = l :: ls) :
    step s = busAccess (l.access s.cfg)
      (s.setEnv { s.env with schedule := es, program := if l.again s then l :: ls else ls }) := by
  unfold step stepOnce
  rw [hs]
  simp only [agentStep, hostLineStep, State.setSchedule_inReset, hr, Bool.false_eq_true, if_false,
    State.setSchedule_env, hl]
  cases l <;> rfl

/-- Settles O48: one equation for every line. -/
theorem hostLinesRunAsBusAccesses : Obligations.HostLinesRunAsBusAccesses := by
  intro s ls es hr hs
  refine ⟨fun off v hl => step_hostLine hr hs hl, fun off hl => step_hostLine hr hs hl, fun hl => ?_⟩
  rw [step_hostLine hr hs hl]
  exact busAccess_read (s := s.setEnv _) hr rfl (by decide) (by decide)

/-! ### The codes of the checks (60_exceptions.md R200 to R202) -/

theorem map_checkNbits (n : BitVec 7) :
    (checkNbits n).map errCode = if ¬ (1 ≤ n.toNat ∧ n.toNat ≤ 64) then some 3 else none := by
  by_cases h : 1 ≤ n.toNat ∧ n.toNat ≤ 64 <;> simp [checkNbits, nbitsLegal, h, errCode]

theorem map_checkProfile (s : State) (p : BitVec 2) :
    (checkProfile s p).map errCode =
      if (s.profile p).order = 1 ∨ (s.profile p).rptMode = 2 ∨ (s.profile p).rptMode = 3 ∨ (s.profile p).codec = 3
      then some 4 else none := by
  unfold checkProfile
  split <;> simp_all [Profile.legal, errCode]

theorem map_checkCodec (s : State) (p : BitVec 2) :
    (checkCodec s p).map errCode = if (s.profile p).codec = 0 then some 5 else none := by
  unfold checkCodec
  split <;> rfl

theorem map_checkCapLen (s : State) :
    (checkCapLen s).map errCode = if s.cfg.capDepth < s.capLen.toNat then some 6 else none := by
  unfold checkCapLen
  split <;> rfl

/-- A check reported before the ones behind it. -/
theorem ite_some_none_or {α : Type} (c : Prop) [Decidable c] (a : α) (x : Option α) :
    (if c then some a else none).or x = if c then some a else x :=
  apply_ite_left Option.or c (some a) none x

/-! ### The reserved bits of a word (30_encoding.md R83, R85) -/

/-- Under a mask that keeps all of the low byte, a word is that byte exactly if the mask's bits above it are 0. -/
theorem append_and_low_iff (u m : BitVec 24) (op : BitVec 8) :
    (u ++ op) &&& (m ++ 0#8) = 0#24 ++ 0#8 ↔ (u ++ op) &&& (m ++ BitVec.allOnes 8) = 0#24 ++ op := by
  rw [BitVec.and_append, BitVec.and_append, BitVec.and_zero, BitVec.and_allOnes, BitVec.append_left_inj,
    BitVec.append_left_inj]

/-- With the row's opcode in OP, the bits that must be 0 are the mask's bits above OP. -/
theorem and_mustBeZero_eq_zero_iff {w : Word} {i : Instr} (h : fieldOp w = fieldOp (rowOf i).pattern) :
    w &&& mustBeZero (fieldOp w) = 0 ↔ w &&& (rowOf i).mask = (rowOf i).pattern := by
  obtain ⟨m, hzero, hmask, hpattern⟩ : ∃ m : BitVec 24, mustBeZero (fieldOp w) = m ++ 0#8 ∧
      (rowOf i).mask = m ++ BitVec.allOnes 8 ∧ (rowOf i).pattern = 0#24 ++ fieldOp w := by
    rw [h]
    refine ⟨(rowOf i).mask.extractLsb' 8 24, ?_⟩
    cases i <;> simp only [rowOf] <;> decide
  have hw : w.extractLsb' 8 24 ++ fieldOp w = w :=
    (BitVec.extractLsb'_append_extractLsb'_eq_extractLsb' rfl).trans BitVec.extractLsb'_eq_self
  have hlow := append_and_low_iff (w.extractLsb' 8 24) m (fieldOp w)
  rw [hw, ← hzero, ← hmask, ← hpattern] at hlow
  exact hlow

/-! ### The code of a `CMD` write (60_exceptions.md R202) -/

theorem refusalCode_of_commandOf_eq_none {w : Word} (s : State) (h : commandOf w = none) :
    refusalCode w s = some 1 := by
  rw [commandOf_eq_none_iff] at h
  simp only [List.mem_cons, List.not_mem_nil, or_false] at h
  exact if_pos h

theorem refusalCode_of_not_meets_row {w : Word} {i : Instr} (s : State) (hc : commandOf w = some i)
    (hm : w &&& (rowOf i).mask ≠ (rowOf i).pattern) : refusalCode w s = some 2 := by
  have hop : commandOf w ≠ none := by simp [hc]
  rw [Ne, commandOf_eq_none_iff] at hop
  simp only [List.mem_cons, List.not_mem_nil, or_false] at hop
  rw [Ne, ← and_mustBeZero_eq_zero_iff (of_commandOf_eq_some hc).1] at hm
  exact (if_neg hop).trans (if_pos hm)

/-- The decoder's refusals come first, ILLEGAL before RSV. -/
theorem refusalCode_of_error {w : Word} {e : CmdError} (s : State) (h : decode w = .error e) :
    refusalCode w s = some (errCode e) := by
  cases hc : commandOf w with
  | none =>
    rw [decode_of_commandOf_eq_none hc] at h
    cases h
    exact refusalCode_of_commandOf_eq_none s hc
  | some i =>
    rw [decode_of_commandOf_eq_some hc] at h
    split at h
    · cases h
    · cases h
      exact refusalCode_of_not_meets_row s hc ‹_›

/-- A word that decodes is refused with the code of its command's first failing check. -/
theorem refusalCode_of_ok {w : Word} {i : Instr} (s : State) (h : decode w = .ok i) :
    refusalCode w s = (acceptanceError i s).map errCode := by
  obtain ⟨hc, hm⟩ := of_decode_eq_ok h
  obtain ⟨hop, hi⟩ := of_commandOf_eq_some hc
  rw [← and_mustBeZero_eq_zero_iff hop, hop] at hm
  have hop' : w.extractLsb' 0 8 = fieldOp (rowOf i).pattern := hop
  rw [← hi]
  simp only [refusalCode, hop', hm]
  cases i <;>
    simp [rowOf, fieldOp, acceptanceError, Instr.withFieldsOf, Option.map_or, map_checkNbits, map_checkProfile,
      map_checkCodec, map_checkCapLen, ite_some_none_or, fieldProf, fieldNbits]

/-! ### The step of a `CMD` write (30_encoding.md R80, 60_exceptions.md R201) -/

theorem present_refused {i : Instr} {s : State} {e : CmdError} (h : acceptanceError i s = some e) :
    present i s = refuse e s := by
  simp [present, h]

section CommandWrite

variable {s : State} {w : Word} {es : List Event} (hr : s.inReset = false) (hp : s.seq.phase = .idle)
  (hs : s.env.schedule = .host ⟨s.cfg.base + 0x008, 4, .write w⟩ :: es)
include hr hp hs

/-- A word that does not decode is refused. -/
theorem step_commandWrite_error {e : CmdError} (hd : decode w = .error e) :
    step s = .next (refuse e ((s.setSchedule es).respond .done)) :=
  calc step s
      = busWrite 0x008 w ((s.setSchedule es).respond .done) := step_hostWrite hr (by decide) (by decide) hs
    _ = commandWrite w ((s.setSchedule es).respond .done) := busWrite_idle hp
    _ = .next (refuse e ((s.setSchedule es).respond .done)) := by simp only [commandWrite, hd]

/-- A word that decodes is refused by a check or accepted. -/
theorem step_commandWrite_ok {i : Instr} (hd : decode w = .ok i) :
    step s = .next (present i ((s.setSchedule es).respond .done)) :=
  (step_commandWrite hr hp hs hd).trans (exec_idle i hp)

end CommandWrite

/-- Settles O6: the word does not decode, or a check fails, or the command is accepted with its word, which is its
encoding. -/
theorem commandWriteRefusesOrAccepts : Obligations.CommandWriteRefusesOrAccepts := by
  intro s w es hr hp hs
  cases hd : decode w with
  | error e =>
    rw [refusalCode_of_error s hd]
    exact step_commandWrite_error hr hp hs hd
  | ok i =>
    have hcheck : acceptanceError i ((s.setSchedule es).respond .done) = acceptanceError i s :=
      acceptanceError_congr rfl rfl rfl i
    rw [refusalCode_of_ok s hd, step_commandWrite_ok hr hp hs hd]
    cases ha : acceptanceError i s with
    | some e =>
      rw [present_refused (hcheck.trans ha)]
      rfl
    | none =>
      rw [present_accepted (hcheck.trans ha), accept, (decode_eq_ok_iff w i).1 hd]
      rfl

end Sys2Proof.Machine

/-! ## The tolerance tests over exact rationals (40_matcher.md R100 to R108) -/

namespace Sys2Proof.Machine

/-! ### The band and its bounds -/

/-- The percentage part of the band of e over the rationals, before the floor (40_matcher.md R100). -/
def exactPart (s : State) (e : Duration) : ℚ := (e.toNat : ℚ) * (s.tolPct.toNat : ℚ) / 100

theorem floor_exactPart (s : State) (e : Duration) : ⌊exactPart s e⌋ = (tolerancePart s e : ℤ) :=
  floor_eq_tolerancePart s e

/-- R101's remark: an integer is at most the rational bound exactly if it is at most the band, whose percentage part is
rounded down. -/
theorem intCast_le_exactPart_add_iff (s : State) (e : Duration) (k : ℤ) :
    (k : ℚ) ≤ exactPart s e + (s.marginUs.toNat : ℚ) ↔ k ≤ (band s e : ℤ) :=
  calc (k : ℚ) ≤ exactPart s e + (s.marginUs.toNat : ℚ)
      ↔ ((k - s.marginUs.toNat : ℤ) : ℚ) ≤ exactPart s e := by push_cast; exact sub_le_iff_le_add.symm
    _ ↔ k - s.marginUs.toNat ≤ (tolerancePart s e : ℤ) := by rw [← Int.le_floor, floor_exactPart]
    _ ↔ k ≤ (band s e : ℤ) := by rw [band, Nat.cast_add]; exact sub_le_iff_le_add

theorem tolerancePart_zero (s : State) : tolerancePart s 0 = 0 := by simp [tolerancePart]

theorem tolerancePart_of_tolPct_zero {s : State} (h : s.tolPct = 0) (e : Duration) : tolerancePart s e = 0 := by
  simp [tolerancePart, h]

/-- At 100 percent and above the percentage part alone covers the whole expected Duration. -/
theorem le_tolerancePart {s : State} (h : 100 ≤ s.tolPct.toNat) (e : Duration) : e.toNat ≤ tolerancePart s e :=
  (Nat.le_div_iff_mul_le (by decide)).2 (Nat.mul_le_mul_left _ h)

/-! ### The two predicates against the band -/

theorem durMatches_iff_abs (s : State) (m e : Duration) :
    durMatches s m e = true ↔ |(m.toNat : ℤ) - (e.toNat : ℤ)| ≤ (band s e : ℤ) := by
  rw [durMatches_iff, abs_le]
  omega

theorem durMatches_eq_false_iff (s : State) (m e : Duration) :
    durMatches s m e = false ↔ e.toNat + band s e < m.toNat ∨ m.toNat + band s e < e.toNat := by
  rw [Bool.eq_false_iff, Ne, durMatches_iff]
  omega

theorem durMatches_iff_rational (s : State) (m e : Duration) :
    durMatches s m e = true ↔
      |(m.toNat : ℚ) - (e.toNat : ℚ)| ≤ exactPart s e + (s.marginUs.toNat : ℚ) := by
  rw [durMatches_iff_abs, ← intCast_le_exactPart_add_iff]
  push_cast
  rfl

theorem durMatchesAtLeast_iff_sub (s : State) (m e : Duration) :
    durMatchesAtLeast s m e = true ↔ (e.toNat : ℤ) - (m.toNat : ℤ) ≤ (band s e : ℤ) := by
  rw [durMatchesAtLeast_iff]
  omega

theorem durMatchesAtLeast_iff_rational (s : State) (m e : Duration) :
    durMatchesAtLeast s m e = true ↔
      (e.toNat : ℚ) - (m.toNat : ℚ) ≤ exactPart s e + (s.marginUs.toNat : ℚ) := by
  rw [durMatchesAtLeast_iff_sub, ← intCast_le_exactPart_add_iff]
  push_cast
  rfl

/-! ### MATCH and MATCHAL -/

/-- The completion of a MATCH or MATCHAL, field by field (40_matcher.md R104, 10_state.md R52). -/
theorem completeMatch_eq (r : Bool) (s : State) :
    completeMatch r s = { s with
      res := ⟨if r then 1 else 0, 0, 0, 0, 0, 0⟩
      status := { s.status with done := true, ok := r }
      seq := { s.seq with phase := .idle } } := by
  cases r <;> rfl

/-- Settles O10: the outcome is `durMatches`, whose band is the floor of the rational bound. -/
theorem matchIsTheExactTolerance : Obligations.MatchIsTheExactTolerance := by
  intro s hp hn
  refine ⟨durMatches s s.opLo s.opExp, durMatches_iff_rational s _ _, ?_, ?_⟩
  · rw [floor_eq_tolerancePart, durMatches_iff_abs, band, Nat.cast_add]
  · rw [exec_matchWithin_run hp hn, completeMatch_eq]

/-- Settles O11: the outcome is `durMatchesAtLeast`, whose bound is the rational one with the percentage part rounded
down. -/
theorem matchAtLeastIsTheExactLowerBound : Obligations.MatchAtLeastIsTheExactLowerBound := by
  intro s hp hn
  refine ⟨durMatchesAtLeast s s.opLo s.opExp, ?_, ?_, ?_⟩
  · rw [durMatchesAtLeast_iff_rational, exactPart]
    constructor <;> intro h <;> linarith
  · rw [floor_eq_tolerancePart, durMatchesAtLeast, lowerBound, decide_eq_true_iff]
  · rw [exec_matchAtLeast_run hp hn, completeMatch_eq]

/-! ### The corner cases (40_matcher.md R108) -/

theorem matches_of_expected_zero (s : State) (m : Duration) :
    (durMatches s m 0 = true ↔ m.toNat ≤ s.marginUs.toNat) ∧ durMatchesAtLeast s m 0 = true := by
  have he : (0 : Duration).toNat = 0 := rfl
  rw [durMatches_iff, durMatchesAtLeast_iff, band, tolerancePart_zero, he]
  omega

theorem matches_of_no_tolerance {s : State} (ht : s.tolPct = 0) (hm : s.marginUs = 0) (m e : Duration) :
    (durMatches s m e = true ↔ m = e) ∧ (durMatchesAtLeast s m e = true ↔ e.toNat ≤ m.toNat) := by
  have hband : band s e = 0 := by simp [band, tolerancePart_of_tolPct_zero ht, hm]
  rw [durMatches_iff, durMatchesAtLeast_iff, hband, ← BitVec.toNat_inj]
  omega

/-- From 100 percent on the band reaches down to zero, and only the upper end of the band is left. -/
theorem matches_of_full_tolerance {s : State} (h : 100 ≤ s.tolPct.toNat) (m e : Duration) :
    lowerBound s e ≤ -(s.marginUs.toNat : ℤ) ∧ durMatchesAtLeast s m e = true ∧
      (m.toNat ≤ e.toNat + band s e → durMatches s m e = true) := by
  have hpart := le_tolerancePart h e
  rw [durMatches_iff, durMatchesAtLeast_iff, lowerBound, band]
  omega

/-- Settles O12: the special tolerances by their bands, and the boundary values by the inequalities of the band. -/
theorem matcherCornerCases : Obligations.MatcherCornerCases := by
  intro s m e
  refine ⟨?_, fun ht hm => matches_of_no_tolerance ht hm m e, fun h => matches_of_full_tolerance h m e,
    durMatches_self s _, fun h => ?_, fun h => (durMatches_iff s m e).2 (by omega),
    fun h => (durMatches_iff s m e).2 (by omega), fun h => (durMatches_eq_false_iff s m e).2 (by omega),
    fun h => (durMatches_eq_false_iff s m e).2 (by omega)⟩
  · rintro rfl
    exact matches_of_expected_zero s m
  · exact (durMatches_eq_false_iff s _ _).2 (.inr ((Nat.zero_add _).trans_lt h))

end Sys2Proof.Machine

/-! ## The BitCodec: the reversal, and the body BENC hands over (41_bitcodec.md R120 to R123) -/

namespace Sys2Proof.Machine

/-! ### The reversal -/

theorem rev_rev (x : Payload) {w : Nat} (hw : w ≤ 64) : rev (rev x w) w = x := by
  apply BitVec.eq_of_getLsbD_eq
  intro j hj
  rw [getLsbD_rev _ _ _ hj]
  by_cases h : j < w
  · rw [if_pos h, getLsbD_rev _ _ _ (by omega), if_pos (by omega), show w - 1 - (w - 1 - j) = j by omega]
  · rw [if_neg h, getLsbD_rev _ _ _ hj, if_neg h]

/-- Settles O13: each clause reads a bit of the reversal. -/
theorem reversalOfTheLowBits : Obligations.ReversalOfTheLowBits := by
  intro x w _ hw
  refine ⟨fun i hi => ?_, fun i hi hi64 => ?_, rev_rev x hw⟩
  · rw [getLsbD_rev _ _ _ (by omega), if_pos (by omega), show w - 1 - (w - 1 - i) = i by omega]
  · rw [getLsbD_rev _ _ _ hi64, if_neg (by omega)]

/-! ### BENC's step -/

theorem bencStep_of_token {p : BitVec 2} {n : BitVec 7} {s : State} {t : Token}
    (h : (bodyTokens (s.profile p) s.op n.toNat)[s.seq.step]? = some t) : bencStep p n s = emit t s := by
  simp only [bencStep, h]

theorem bencStep_of_end {p : BitVec 2} {n : BitVec 7} {s : State} (h : 2 * n.toNat ≤ s.seq.step) :
    bencStep p n s = complete true Results.zero s := by
  have hnone : (bodyTokens (s.profile p) s.op n.toNat)[s.seq.step]? = none :=
    List.getElem?_eq_none (by rwa [bodyTokens_length])
  simp only [bencStep, hnone]

/-- Settles O15: the token of the body at BENC's position, or the completion past its end. -/
theorem bencHandsOverTheBody : Obligations.BencHandsOverTheBody := by
  intro s p n hp hn
  rw [exec_benc_run hp hn]
  refine ⟨fun k hk hs => ?_, fun k hk hs => ?_, fun hs => ?_⟩
  · obtain ⟨hmark, -⟩ := bodyTokens_pair (s.profile p) s.op hk
    rw [bencStep_of_token (hs ▸ hmark), emit, hs]
    rfl
  · obtain ⟨-, hspace⟩ := bodyTokens_pair (s.profile p) s.op hk
    rw [bencStep_of_token (hs ▸ hspace), emit, hs]
    rfl
  · rw [bencStep_of_end hs, complete_eq]
    rfl

/-! ### BENC with a driver that completes each token (60_exceptions.md R205) -/

/-- `s` once the sequencer has handed over the tokens `ts` and the driver completed each, with `es` still to come. -/
def emitted (ts : List Token) (es : List Event) (s : State) : State :=
  (s.setEnv { s.env with tokens := s.env.tokens ++ ts, schedule := es }).setSeq
    { s.seq with step := s.seq.step + ts.length }

theorem emitted_nil (s : State) : emitted [] s.env.schedule s = s := by
  simp [emitted, State.setEnv, State.setSeq]

theorem emitted_emitted (ts us : List Token) (es es' : List Event) (s : State) :
    emitted us es' (emitted ts es s) = emitted (ts ++ us) es' s := by
  simp [emitted, State.setEnv, State.setSeq, Nat.add_assoc]

/-- A BENC runs, and the sequencer is free to move. -/
structure Encoding (p : BitVec 2) (n : BitVec 7) (s : State) : Prop where
  inReset : s.inReset = false
  phase : s.seq.phase = .run
  pending : s.seq.pending = none
  cmd : s.seq.cmd = encode (.benc p n)

namespace Encoding

variable {p : BitVec 2} {n : BitVec 7} {s : State} {es : List Event}

theorem emitted (h : Encoding p n s) (ts : List Token) (es : List Event) : Encoding p n (emitted ts es s) :=
  ⟨h.inReset, h.phase, h.pending, h.cmd⟩

/-- The sequencer's turn is BENC's next step. -/
theorem step_turn (h : Encoding p n s) (hs : s.env.schedule = .sequencer :: es) :
    step s = .next (bencStep p n (s.setSchedule es)) := by
  have hd : decode s.seq.cmd = .ok (.benc p n) := by rw [h.cmd, decode_encode]
  rw [step_sequencer h.inReset h.phase hd hs]
  exact exec_benc_run (s := s.setSchedule es) h.phase h.pending p n

/-- A round at a position of the body hands over its token and completes it. -/
theorem round {t : Token} (h : Encoding p n s) (hs : s.env.schedule = .sequencer :: .driver :: es)
    (ht : (bodyTokens (s.profile p) s.op n.toNat)[s.seq.step]? = some t) :
    runFor 2 s = .next (Machine.emitted [t] es s) := by
  have hturn : step s = .next (emit t (s.setSchedule (.driver :: es))) := by
    rw [h.step_turn hs]
    exact congrArg _ (bencStep_of_token ht)
  have hdriver := step_driver (s := emit t (s.setSchedule (.driver :: es))) h.inReset rfl rfl
  rw [runFor_succ 1 hturn, runFor_succ 0 hdriver, runFor]
  simp [Machine.emitted, emit, State.setEnv, State.setSeq, State.setSchedule, h.pending]

/-- A round past the end of the body completes the command, and the driver finds nothing to do. -/
theorem last_round (h : Encoding p n s) (hs : s.env.schedule = rounds 1) (he : 2 * n.toNat ≤ s.seq.step) :
    runFor 2 s = .next (complete true Results.zero (s.setSchedule [])) := by
  have hturn : step s = .next (complete true Results.zero (s.setSchedule [.driver])) := by
    rw [h.step_turn hs]
    exact congrArg _ (bencStep_of_end he)
  have hdriver := step_driver_none (s := complete true Results.zero (s.setSchedule [.driver])) h.pending rfl
  rw [runFor_succ 1 hturn, runFor_succ 0 hdriver]
  rfl

/-- One round for each token of the body still to come. -/
theorem run_rest {ts : List Token} (h : Encoding p n s)
    (hts : (bodyTokens (s.profile p) s.op n.toNat).drop s.seq.step = ts)
    (hs : s.env.schedule = rounds ts.length ++ es) : runFor (2 * ts.length) s = .next (Machine.emitted ts es s) := by
  induction ts generalizing s with
  | nil =>
    obtain rfl : s.env.schedule = es := hs
    rw [emitted_nil]
    rfl
  | cons t ts ih =>
    have ht : (bodyTokens (s.profile p) s.op n.toNat)[s.seq.step]? = some t := by
      rw [← List.head?_drop, hts, List.head?_cons]
    have hrest : (bodyTokens (s.profile p) s.op n.toNat).drop (s.seq.step + 1) = ts := by
      rw [← List.tail_drop, hts, List.tail_cons]
    have hround := h.round (es := rounds ts.length ++ es) hs ht
    rw [show 2 * (t :: ts).length = 2 + 2 * ts.length by rw [List.length_cons]; ring, runFor_add _ hround,
      ih (h.emitted [t] _) hrest rfl, emitted_emitted]
    rfl

/-- From position 0, a round for each token of the body and one for the completion. -/
theorem run (h : Encoding p n s) (h0 : s.seq.step = 0) (hs : s.env.schedule = rounds (2 * n.toNat + 1)) :
    runFor (2 * (2 * n.toNat) + 2) s = .next (complete true Results.zero
      (Machine.emitted (bodyTokens (s.profile p) s.op n.toNat) [] s)) := by
  have hbody := h.run_rest (ts := bodyTokens (s.profile p) s.op n.toNat) (es := rounds 1)
    (by rw [h0, List.drop_zero]) (by rw [hs, rounds_add, bodyTokens_length])
  rw [bodyTokens_length] at hbody
  have hend : 2 * n.toNat ≤ (Machine.emitted (bodyTokens (s.profile p) s.op n.toNat) (rounds 1) s).seq.step := by
    simp [Machine.emitted]
  rw [runFor_add 2 hbody]
  exact (h.emitted _ (rounds 1)).last_round rfl hend

end Encoding

/-- Settles O16: the run ends in the completion, with the whole body emitted. -/
theorem bencEmitsExactlyTheBody : Obligations.BencEmitsExactlyTheBody := by
  intro s p n hr hp hn hc h0 hs
  have hrun := Encoding.run ⟨hr, hp, hn, hc⟩ h0 hs
  rw [show 2 * (2 * n.toNat) + 2 = 4 * n.toNat + 2 by ring] at hrun
  rw [wireBody_eq]
  exact ⟨_, hrun, rfl, rfl, rfl, rfl, hn, rfl, rfl, rfl⟩

end Sys2Proof.Machine

/-! ## SEND: its action list, and its trailing gap (42_assembler.md R140 to R150) -/

namespace Sys2Proof.Machine

/-! ### The trailing gap (42_assembler.md R144) -/

/-- Settles O19: the truncated difference of `gap_toNat` is below MIN_GAP wherever the exact one is negative. -/
theorem trailingGapIsExact : Obligations.TrailingGapIsExact := by
  intro f e
  have hgap := gap_toNat f e
  refine ⟨by omega, (wireGap_eq f e).symm, by omega, fun he => BitVec.eq_of_toNat_eq ?_⟩
  rw [hgap, Nat.sub_eq_zero_of_le he, Nat.max_zero]

/-! ### SEND's step -/

section SendStep

variable {p : BitVec 2} {n : BitVec 7} {r : BitVec 12} {s : State}

theorem sendStep_of_action {a : Action}
    (ha : (sendActions (s.profile p) s.op n.toNat s.seq.frame)[s.seq.step]? = some a) :
    sendStep p n r s = perform (s.profile p) s a := by
  simp only [sendStep, ha]

/-- Past the last action of its frame, SEND goes on to the next frame or completes (42_assembler.md R142, R150). -/
theorem sendStep_of_end (he : (sendActions (s.profile p) s.op n.toNat s.seq.frame).length ≤ s.seq.step) :
    sendStep p n r s = if s.seq.frame < r.toNat then nextFrame s else complete true Results.zero s := by
  simp only [sendStep, List.getElem?_eq_none he]

theorem sendActions_length (f : Profile) (v : Payload) (n k : Nat) :
    (sendActions f v n k).length = (if k = 0 then 1 else 0) + (frameActions f v n k).length := by
  rw [sendActions, List.length_append]
  split <;> rfl

/-- A running SEND at action `j` of its frame, the carrier event of frame 0 not counted. -/
theorem exec_send_frameAction {j : Nat} {a : Action} (hp : s.seq.phase = .run) (hn : s.seq.pending = none)
    (hs : s.seq.step = (if s.seq.frame = 0 then 1 else 0) + j)
    (ha : (frameActions (s.profile p) s.op n.toNat s.seq.frame)[j]? = some a) :
    exec (.send p n r) s = .next (perform (s.profile p) s a) := by
  rw [exec_send_run hp hn, sendStep_of_action (by rw [hs, sendActions_get, ha])]

/-- A running SEND at token `j` between its header mark and its footer mark. -/
theorem exec_send_frameMiddle {j : Nat} {t : Token} (hp : s.seq.phase = .run) (hn : s.seq.pending = none)
    (hs : s.seq.step = (if s.seq.frame = 0 then 1 else 0) + (2 + j))
    (ht : (frameMiddle (s.profile p) s.op n.toNat s.seq.frame)[j]? = some t) :
    exec (.send p n r) s = .next (emit t s) := by
  obtain ⟨-, -, hmiddle, -⟩ := frameActions_get (s.profile p) s.op n.toNat s.seq.frame
  exact exec_send_frameAction hp hn hs (hmiddle j t ht)

theorem exec_send_of_end (hp : s.seq.phase = .run) (hn : s.seq.pending = none)
    (hs : (if s.seq.frame = 0 then 1 else 0) + (5 + (frameMiddle (s.profile p) s.op n.toNat s.seq.frame).length) ≤
      s.seq.step) :
    exec (.send p n r) s = .next (if s.seq.frame < r.toNat then nextFrame s else complete true Results.zero s) := by
  rw [exec_send_run hp hn, sendStep_of_end (by rw [sendActions_length, frameActions_length]; omega)]

end SendStep

/-- The first token behind the header mark of frame k (42_assembler.md R143, R145). -/
theorem frameMiddle_zero (f : Profile) (v : Payload) (n k : Nat) :
    (frameMiddle f v n k)[0]? = some ⟨.space, if k = 0 ∨ f.rptMode = 0 then f.hdrSpace else f.rptSpace⟩ := by
  by_cases h : k = 0 ∨ f.rptMode = 0
  · rw [frameMiddle_full h, if_pos h]
    rfl
  · rw [frameMiddle_short h, if_neg h]
    rfl

/-- Behind its header space a full frame has the body, two tokens a bit (41_bitcodec.md R122). -/
theorem frameMiddle_pair {f : Profile} {k : Nat} (hf : k = 0 ∨ f.rptMode = 0) (v : Payload) {n j : Nat} (hj : j < n) :
    (frameMiddle f v n k)[1 + 2 * j]? = some ⟨.mark, f.bitMark⟩ ∧
      (frameMiddle f v n k)[2 + 2 * j]? =
        some ⟨.space, if v.getLsbD (n - 1 - j) then f.oneSpace else f.zeroSpace⟩ := by
  rw [frameMiddle_full hf, show 1 + 2 * j = 2 * j + 1 by omega, show 2 + 2 * j = 2 * j + 1 + 1 by omega]
  exact bodyTokens_pair f v hj

/-- Settles O18: each position is that of one of the frame's actions, or lies past the last of them. -/
theorem sendFollowsItsActionList : Obligations.SendFollowsItsActionList := by
  intro s p n r hp hn f full c b
  obtain ⟨hreset, hheader, -, hfooter, hread, hgap, -⟩ := frameActions_get f s.op n.toNat s.seq.frame
  have hlen : (frameMiddle f s.op n.toNat s.seq.frame).length = 1 + b := frameMiddle_length f s.op n.toNat s.seq.frame
  rw [hlen] at hfooter hread hgap
  have hend : c + b + 6 ≤ s.seq.step →
      c + (5 + (frameMiddle f s.op n.toNat s.seq.frame).length) ≤ s.seq.step := by omega
  refine ⟨fun hf hs => ?carrier, fun hs => exec_send_frameAction hp hn hs hreset,
    fun hs => exec_send_frameAction hp hn hs hheader,
    fun hs => exec_send_frameMiddle hp hn hs (frameMiddle_zero f s.op n.toNat s.seq.frame),
    fun k hfull hk hs => ?bodyMark, fun k hfull hk hs => ?bodySpace,
    fun hs => exec_send_frameAction hp hn (by omega) hfooter,
    fun hs => exec_send_frameAction hp hn (by omega) hread, fun hs => ?gap, fun hs hr => ?nextFrame,
    fun hs hr => ?completion⟩
  case carrier =>
    have hfirst : (sendActions f s.op n.toNat s.seq.frame)[s.seq.step]? = some (.carrier f.freqKhz f.dutyPct) := by
      rw [hf, hs, sendActions_zero, List.getElem?_cons_zero]
    rw [exec_send_run hp hn, sendStep_of_action hfirst]
    rfl
  case bodyMark =>
    obtain ⟨hmark, -⟩ := frameMiddle_pair hfull s.op hk
    exact exec_send_frameMiddle hp hn (by omega) hmark
  case bodySpace =>
    obtain ⟨-, hspace⟩ := frameMiddle_pair hfull s.op hk
    exact exec_send_frameMiddle hp hn (by omega) hspace
  case gap =>
    rw [wireGap_eq]
    exact exec_send_frameAction hp hn (by omega) hgap
  case nextFrame =>
    rw [exec_send_of_end hp hn (hend hs), if_pos hr]
    rfl
  case completion =>
    rw [exec_send_of_end hp hn (hend hs), if_neg (by omega), complete_eq]
    rfl

end Sys2Proof.Machine

/-! ## The event traces (60_exceptions.md R205 to R207) -/

namespace Sys2Proof.Machine

/-- The one carrier event of a SEND is its profile's (42_assembler.md R141). -/
theorem eq_of_carrier_mem_sendActions {f : Profile} {v : Payload} {n k : Nat} {fr : BitVec 16} {d : BitVec 8}
    (h : .carrier fr d ∈ sendActions f v n k) : fr = f.freqKhz ∧ d = f.dutyPct := by
  have hframe : .carrier fr d ∉ frameActions f v n k := by simp [frameActions]
  rcases List.mem_append.1 h with hc | hf
  · split at hc <;> simp_all
  · exact absurd hf hframe

/-- What SEND does outside the block in one step: its profile's carrier event or one clock reset, or nothing. -/
inductive CarrierAndClock (f : Profile) (d e : Environment) : Prop
  | same (hc : e.carriers = d.carriers) (hr : e.clockResets = d.clockResets)
  | carrier (hc : e.carriers = d.carriers ++ [⟨f.freqKhz, f.dutyPct⟩]) (hr : e.clockResets = d.clockResets)
  | clockReset (hc : e.carriers = d.carriers) (hr : e.clockResets = d.clockResets + 1) (h0 : e.clock = 0)

theorem sendStep_carrierAndClock (p : BitVec 2) (n : BitVec 7) (r : BitVec 12) (s : State) :
    CarrierAndClock (s.profile p) s.env (sendStep p n r s).env := by
  cases ha : (sendActions (s.profile p) s.op n.toNat s.seq.frame)[s.seq.step]? with
  | some a =>
    rw [sendStep_of_action ha]
    cases a with
    | carrier fr d =>
      obtain ⟨rfl, rfl⟩ := eq_of_carrier_mem_sendActions (List.mem_of_getElem? ha)
      exact .carrier rfl rfl
    | clockReset => exact .clockReset rfl rfl rfl
    | emit | clockRead | emitGap => exact .same rfl rfl
  | none =>
    rw [sendStep_of_end (List.getElem?_eq_none_iff.1 ha)]
    split <;> exact .same rfl rfl

/-- A running command issues carrier and clock events only as a SEND that is free to move. -/
theorem exec_carrierAndClock {i : Instr} {s t : State} (hp : s.seq.phase = .run) (h : exec i s = .next t) :
    t.env = s.env ∨ ∃ p n r, i = .send p n r ∧ s.seq.pending = none ∧
      CarrierAndClock (s.profile p) s.env t.env := by
  by_cases hi : ∃ p n r, i = .send p n r
  · obtain ⟨p, n, r, rfl⟩ := hi
    cases hn : s.seq.pending with
    | some k =>
      rw [exec_pending _ hp hn] at h
      cases h
      exact .inl rfl
    | none =>
      rw [exec_send_run hp hn] at h
      cases h
      exact .inr ⟨p, n, r, rfl, rfl, sendStep_carrierAndClock p n r s⟩
  · exact .inl ((CommandFrame.exec h).outside fun p n r hs => hi ⟨p, n, r, hs⟩)

/-- A write of a register while IDLE changes nothing outside the block. -/
theorem writeRegister_env {s t : State} {v : Word} {r : Reg} (hp : s.seq.phase = .idle)
    (hw : writeRegister s v r = .next t) : t.env = s.env := by
  obtain ⟨u, hu, henv, -⟩ := writeRegister_next v r hp
  obtain rfl : u = t := by simpa [hu] using hw
  exact henv

/-- Only the driver adds to the token trace. -/
theorem StepEffect.tokens {o : Option Event} {s t : State} (h : StepEffect o s t) :
    t.env.tokens = s.env.tokens ∨ ∃ tok, o = some .driver ∧ s.seq.pending = some tok ∧
      t.env.tokens = s.env.tokens ++ [tok] ∧ t.seq.pending = none := by
  cases h with
  | outside e he => exact .inl he.tokens
  | sequencer i _ _ _ _ hx => exact .inl (CommandFrame.exec hx).tokens
  | driver tok ho _ hp => exact .inr ⟨tok, ho, hp, rfl, rfl⟩
  | lost e he => exact .inl he.tokens
  | write e v off _ he _ hp hw =>
    rw [writeRegister_env (s := s.setEnv e) hp hw]
    exact .inl he.tokens
  | resetAssert | resetRelease => exact .inl rfl

/-- Only the sequencer's step of a SEND adds to the carrier and clock traces. -/
theorem StepEffect.carrierAndClock {o : Option Event} {s t : State} (h : StepEffect o s t) :
    (t.env.carriers = s.env.carriers ∧ t.env.clockResets = s.env.clockResets) ∨
      ∃ p n r, decode s.seq.cmd = .ok (.send p n r) ∧ s.seq.phase = .run ∧ s.seq.pending = none ∧
        CarrierAndClock (s.profile p) s.env t.env := by
  cases h with
  | outside e he => exact .inl ⟨he.carriers, he.clockResets⟩
  | sequencer i _ _ hp hd hx =>
    rcases exec_carrierAndClock hp hx with henv | ⟨p, n, r, rfl, hn, hc⟩
    · exact .inl ⟨congrArg _ henv, congrArg _ henv⟩
    · exact .inr ⟨p, n, r, hd, hp, hn, hc⟩
  | lost e he => exact .inl ⟨he.carriers, he.clockResets⟩
  | write e v off _ he _ hp hw =>
    rw [writeRegister_env (s := s.setEnv e) hp hw]
    exact .inl ⟨he.carriers, he.clockResets⟩
  | driver | resetAssert | resetRelease => exact .inl ⟨rfl, rfl⟩

/-- Settles O42: by the inversion lemma of a step. -/
theorem tracesGrowOnlyByTheirAgents : Obligations.TracesGrowOnlyByTheirAgents := by
  intro s t h
  have he := step_effect h
  refine ⟨?_, ?_⟩
  · rcases he.tokens with hsame | ⟨tok, ho, hp, htok, hn⟩
    · exact .inl hsame
    · obtain ⟨es, hs⟩ := List.head?_eq_some_iff.1 ho
      exact .inr ⟨tok, es, hs, hp, htok, hn⟩
  · rcases he.carrierAndClock with hsame | ⟨p, n, r, hd, hp, hn, hc⟩
    · exact .inl hsame
    · cases hc with
      | same hc hr => exact .inl ⟨hc, hr⟩
      | carrier hc hr => exact .inr ⟨p, n, r, hd, hp, hn, .inl ⟨hc, hr⟩⟩
      | clockReset hc hr h0 => exact .inr ⟨p, n, r, hd, hp, hn, .inr ⟨hc, hr, h0⟩⟩

end Sys2Proof.Machine

/-! ## SEND with a driver that completes each token (42_assembler.md R140 to R150) -/

namespace Sys2Proof.Machine

/-! ### Rounds -/

/-- Some number of rounds of the sequencer and the driver lead from `s` to `t`, whatever is scheduled behind them. -/
def InRounds (s t : State) : Prop :=
  ∃ k, ∀ es, runFor (2 * k) (s.setSchedule (rounds k ++ es)) = .next (t.setSchedule es)

theorem InRounds.refl (s : State) : InRounds s s := ⟨0, fun _ => rfl⟩

theorem InRounds.trans {s t u : State} (h : InRounds s t) (h' : InRounds t u) : InRounds s u := by
  obtain ⟨j, hj⟩ := h
  obtain ⟨k, hk⟩ := h'
  refine ⟨j + k, fun es => ?_⟩
  rw [rounds_add, List.append_assoc, Nat.mul_add, runFor_add _ (hj _), hk]

theorem sendStep_setSchedule (p : BitVec 2) (n : BitVec 7) (r : BitVec 12) (s : State) (es : List Event) :
    sendStep p n r (s.setSchedule es) = (sendStep p n r s).setSchedule es := by
  cases ha : (sendActions (s.profile p) s.op n.toNat s.seq.frame)[s.seq.step]? with
  | some a =>
    rw [sendStep_of_action ha, sendStep_of_action (s := s.setSchedule es) ha]
    cases a <;> rfl
  | none =>
    have he := List.getElem?_eq_none_iff.1 ha
    rw [sendStep_of_end he, sendStep_of_end (s := s.setSchedule es) he, State.setSchedule_seq]
    split <;> rfl

theorem driverStep_of_none {s : State} (hn : s.seq.pending = none) : driverStep s = s := by
  simp only [driverStep, hn, ite_self]

theorem driverStep_of_some {s : State} {t : Token} (hr : s.inReset = false) (hp : s.seq.pending = some t) :
    driverStep s =
      (s.setEnv { s.env with tokens := s.env.tokens ++ [t] }).setSeq { s.seq with pending := none } := by
  simp [driverStep, hr, hp]

theorem driverStep_setSchedule {s : State} (hr : s.inReset = false) (es : List Event) :
    driverStep (s.setSchedule es) = (driverStep s).setSchedule es := by
  cases hp : s.seq.pending with
  | none => rw [driverStep_of_none hp, driverStep_of_none (s := s.setSchedule es) hp]
  | some t =>
    rw [driverStep_of_some hr hp, driverStep_of_some (s := s.setSchedule es) hr hp]
    rfl

/-- A SEND runs, and the sequencer is free to move, at the actions `as` of its frame. -/
structure SendAt (p : BitVec 2) (n : BitVec 7) (r : BitVec 12) (as : List Action) (s : State) : Prop where
  inReset : s.inReset = false
  phase : s.seq.phase = .run
  pending : s.seq.pending = none
  cmd : s.seq.cmd = encode (.send p n r)
  actions : (sendActions (s.profile p) s.op n.toNat s.seq.frame).drop s.seq.step = as

/-- `s` once the sequencer has performed an action and the driver has completed the token it handed over, if any. -/
def served (f : Profile) (s : State) (a : Action) : State :=
  match a.token f s.seq.elapsed with
  | some t => emitted [t] s.env.schedule s
  | none => perform f s a

theorem driverStep_perform (f : Profile) {s : State} (hr : s.inReset = false) (hn : s.seq.pending = none) (a : Action) :
    driverStep (perform f s a) = served f s a := by
  have handed : ∀ t, driverStep (emit t s) = emitted [t] s.env.schedule s := fun t => by
    rw [driverStep_of_some (s := emit t s) hr rfl]
    simp [emitted, emit, State.setEnv, State.setSeq, hn]
  cases a with
  | carrier | clockReset | clockRead => exact driverStep_of_none hn
  | emit t => exact handed t
  | emitGap => exact handed _

/-- Serving a list of tokens emits it. -/
theorem foldl_served_emit (f : Profile) (ts : List Token) (s : State) :
    (ts.map Action.emit).foldl (served f) s = emitted ts s.env.schedule s := by
  induction ts generalizing s with
  | nil => exact (emitted_nil s).symm
  | cons t ts ih => exact (ih _).trans (emitted_emitted [t] ts _ _ s)

namespace SendAt

variable {p : BitVec 2} {n : BitVec 7} {r : BitVec 12} {as : List Action} {s : State}

/-- One round is SEND's next step and the driver's turn. -/
theorem round (h : SendAt p n r as s) : InRounds s (driverStep (sendStep p n r s)) := by
  have hexec : ∀ es, exec (.send p n r) (s.setSchedule es) = .next ((sendStep p n r s).setSchedule es) := fun es =>
    (exec_send_run (s := s.setSchedule es) h.phase h.pending p n r).trans
      (congrArg _ (sendStep_setSchedule p n r s es))
  have hd : decode s.seq.cmd = .ok (.send p n r) := by rw [h.cmd, decode_encode]
  have hr : (sendStep p n r s).inReset = false :=
    (CommandFrame.exec (exec_send_run h.phase h.pending p n r)).inReset.trans h.inReset
  refine ⟨1, fun es => ?_⟩
  have hturn : step (s.setSchedule (.sequencer :: .driver :: es)) =
      .next ((sendStep p n r s).setSchedule (.driver :: es)) :=
    (step_sequencer (s := s.setSchedule (.sequencer :: .driver :: es)) h.inReset h.phase hd rfl).trans (hexec _)
  have hdriver : step ((sendStep p n r s).setSchedule (.driver :: es)) =
      .next ((driverStep (sendStep p n r s)).setSchedule es) :=
    congrArg Host.Outcome.next (driverStep_setSchedule hr es)
  rw [show rounds 1 ++ es = .sequencer :: .driver :: es from rfl, runFor_succ 1 hturn, runFor_succ 0 hdriver, runFor]

/-- One round for an action. -/
theorem serve {a : Action} (h : SendAt p n r (a :: as) s) :
    InRounds s (served (s.profile p) s a) ∧ SendAt p n r as (served (s.profile p) s a) := by
  have ha : (sendActions (s.profile p) s.op n.toNat s.seq.frame)[s.seq.step]? = some a := by
    rw [← List.head?_drop, h.actions, List.head?_cons]
  have hrest : (sendActions (s.profile p) s.op n.toNat s.seq.frame).drop (s.seq.step + 1) = as := by
    rw [← List.tail_drop, h.actions, List.tail_cons]
  have hround := h.round
  rw [sendStep_of_action ha, driverStep_perform _ h.inReset h.pending] at hround
  refine ⟨hround, ?_⟩
  cases a <;> exact ⟨h.inReset, h.phase, h.pending, h.cmd, hrest⟩

/-- One round for each action left in the frame. -/
theorem serve_all (h : SendAt p n r as s) :
    InRounds s (as.foldl (served (s.profile p)) s) ∧ SendAt p n r [] (as.foldl (served (s.profile p)) s) := by
  induction as generalizing s with
  | nil => exact ⟨.refl s, h⟩
  | cons a as ih =>
    obtain ⟨hround, hat⟩ := h.serve
    have hprofile : (served (s.profile p) s a).profile p = s.profile p := by cases a <;> rfl
    obtain ⟨hrest, hend⟩ := ih hat
    rw [hprofile] at hrest hend
    exact ⟨hround.trans hrest, hend⟩

/-- Past its last action but not in frame REPEAT, SEND takes a round to go on to the next frame. -/
theorem next_frame (h : SendAt p n r [] s) (hf : s.seq.frame < r.toNat) :
    InRounds s (nextFrame s) ∧
      SendAt p n r (sendActions (s.profile p) s.op n.toNat (s.seq.frame + 1)) (nextFrame s) := by
  have hround := h.round
  rw [sendStep_of_end (List.drop_eq_nil_iff.1 h.actions), if_pos hf, driverStep_of_none (s := nextFrame s) h.pending]
    at hround
  exact ⟨hround, h.inReset, h.phase, h.pending, h.cmd, rfl⟩

/-- Past the last action of frame REPEAT, SEND takes a round to complete. -/
theorem completion (h : SendAt p n r [] s) (hf : s.seq.frame = r.toNat) :
    InRounds s (complete true Results.zero s) := by
  have hround := h.round
  rwa [sendStep_of_end (List.drop_eq_nil_iff.1 h.actions), if_neg (by omega),
    driverStep_of_none (s := complete true Results.zero s) h.pending] at hround

end SendAt

/-! ### Frames -/

/-- The tokens of the first `k` frames, each with its clock reading. -/
def wireFrames (f : Profile) (v : Payload) (n : Nat) (e : Nat → Duration) (k : Nat) : List Token :=
  (List.range k).flatMap fun i => wireFrame f v n i (e i)

theorem wireSend_eq (f : Profile) (v : Payload) (n r : Nat) (e : Nat → Duration) :
    wireSend f v n r e = wireFrames f v n e (r + 1) := rfl

theorem wireFrames_succ (f : Profile) (v : Payload) (n : Nat) (e : Nat → Duration) (k : Nat) :
    wireFrames f v n e (k + 1) = wireFrames f v n e k ++ wireFrame f v n k (e k) := by
  simp [wireFrames, List.range_succ]

/-- `s`, at the first action of its frame, once all of them were performed by the test clock. -/
def frameSent (f : Profile) (v : Payload) (n : Nat) (s : State) : State :=
  (s.setEnv { s.env with
    tokens := s.env.tokens ++ wireFrame f v n s.seq.frame 0
    carriers := s.env.carriers ++ if s.seq.frame = 0 then [⟨f.freqKhz, f.dutyPct⟩] else []
    clockResets := s.env.clockResets + 1
    clock := 0 }).setSeq
    { s.seq with elapsed := 0, step := s.seq.step + (sendActions f v n s.seq.frame).length }

/-- The frame on the wire is what its actions hand over. -/
theorem wireFrame_eq (f : Profile) (v : Payload) (n k : Nat) (e : Duration) :
    wireFrame f v n k e =
      ⟨.mark, f.hdrMark⟩ :: frameMiddle f v n k ++ [⟨.mark, f.ftrMark⟩, ⟨.space, gap f e⟩] := by
  by_cases h : k = 0 ∨ f.rptMode = 0
  · rw [wireFrame, if_pos h, frameMiddle_full h, wireBody_eq, wireGap_eq]
    rfl
  · rw [wireFrame, if_neg h, frameMiddle_short h, wireGap_eq]
    rfl

/-- A frame's actions by the test clock: the clock reads 0 from their clock reset on (42_assembler.md R143). -/
theorem foldl_served_frameActions (f : Profile) (v : Payload) (n : Nat) (s : State) :
    (frameActions f v n s.seq.frame).foldl (served f) s =
      (s.setEnv { s.env with
        tokens := s.env.tokens ++ wireFrame f v n s.seq.frame 0
        clockResets := s.env.clockResets + 1
        clock := 0 }).setSeq
        { s.seq with elapsed := 0, step := s.seq.step + (frameActions f v n s.seq.frame).length } := by
  have hactions : frameActions f v n s.seq.frame =
      .clockReset ::
        ((⟨.mark, f.hdrMark⟩ :: frameMiddle f v n s.seq.frame ++ [⟨.mark, f.ftrMark⟩] : List Token).map .emit ++
          [.clockRead, .emitGap]) := by simp [frameActions]
  rw [hactions, List.foldl_cons, List.foldl_append, foldl_served_emit, wireFrame_eq]
  simp [served, Action.token, perform, emitted, clockReset, clockRead, State.setEnv, State.setSeq]
  omega

theorem foldl_served_sendActions (f : Profile) (v : Payload) (n : Nat) (s : State) :
    (sendActions f v n s.seq.frame).foldl (served f) s = frameSent f v n s := by
  by_cases h : s.seq.frame = 0
  · have hcarrier : sendActions f v n s.seq.frame =
        .carrier f.freqKhz f.dutyPct :: frameActions f v n s.seq.frame := by rw [h, sendActions_zero]
    rw [hcarrier, List.foldl_cons]
    refine (foldl_served_frameActions f v n (carrier f.freqKhz f.dutyPct s)).trans ?_
    simp [frameSent, carrier, State.setEnv, State.setSeq, sendActions_zero, h]
    omega
  · have hframe : sendActions f v n s.seq.frame = frameActions f v n s.seq.frame := by simp [sendActions, h]
    rw [hframe, foldl_served_frameActions]
    simp [frameSent, State.setEnv, State.setSeq, hframe, h]

/-- A SEND from its start `s` once it has sent the frames 0..k by the test clock and stands past the last action of
frame k. -/
def framesSent (f : Profile) (v : Payload) (n k : Nat) (s : State) : State :=
  (s.setEnv { s.env with
    tokens := s.env.tokens ++ wireFrames f v n (fun _ => 0) (k + 1)
    carriers := s.env.carriers ++ [⟨f.freqKhz, f.dutyPct⟩]
    clockResets := s.env.clockResets + (k + 1)
    clock := 0 }).setSeq
    { s.seq with frame := k, elapsed := 0, step := (sendActions f v n k).length }

theorem frameSent_start {f : Profile} {v : Payload} {n : Nat} {s : State} (hf : s.seq.frame = 0) (h0 : s.seq.step = 0) :
    frameSent f v n s = framesSent f v n 0 s := by
  simp [frameSent, framesSent, hf, h0, wireFrames]

theorem frameSent_nextFrame (f : Profile) (v : Payload) (n k : Nat) (s : State) :
    frameSent f v n (nextFrame (framesSent f v n k s)) = framesSent f v n (k + 1) s := by
  simp only [framesSent, wireFrames_succ f v n _ (k + 1)]
  simp [frameSent, nextFrame, State.setEnv, State.setSeq, Nat.add_assoc]

namespace SendAt

variable {p : BitVec 2} {n : BitVec 7} {r : BitVec 12} {s : State}

/-- From the first action of a frame, one round for each action of it. -/
theorem frame (h : SendAt p n r (sendActions (s.profile p) s.op n.toNat s.seq.frame) s) :
    InRounds s (frameSent (s.profile p) s.op n.toNat s) ∧
      SendAt p n r [] (frameSent (s.profile p) s.op n.toNat s) :=
  foldl_served_sendActions (s.profile p) s.op n.toNat s ▸ h.serve_all

/-- From its start SEND reaches the end of each of its frames. -/
theorem frames (h : SendAt p n r (sendActions (s.profile p) s.op n.toNat 0) s) (hf : s.seq.frame = 0)
    (h0 : s.seq.step = 0) {k : Nat} (hk : k ≤ r.toNat) :
    InRounds s (framesSent (s.profile p) s.op n.toNat k s) ∧
      SendAt p n r [] (framesSent (s.profile p) s.op n.toNat k s) := by
  induction k with
  | zero =>
    rw [← frameSent_start hf h0]
    exact frame (hf ▸ h)
  | succ k ih =>
    obtain ⟨hframes, hend⟩ := ih (by omega)
    obtain ⟨hnext, hstart⟩ := hend.next_frame hk
    rw [← frameSent_nextFrame]
    obtain ⟨hframe, hat⟩ := frame (s := nextFrame (framesSent (s.profile p) s.op n.toNat k s)) hstart
    exact ⟨(hframes.trans hnext).trans hframe, hat⟩

end SendAt

/-- Settles O20: frame after frame in rounds, then the completion. -/
theorem sendCompletesWithItsWaveform : Obligations.SendCompletesWithItsWaveform := by
  intro s p n r hr hp hn hc hf h0
  have hstart : SendAt p n r (sendActions (s.profile p) s.op n.toNat 0) s :=
    ⟨hr, hp, hn, hc, by rw [hf, h0, List.drop_zero]⟩
  obtain ⟨hframes, hend⟩ := hstart.frames hf h0 (le_refl r.toNat)
  obtain ⟨k, hk⟩ := hframes.trans (hend.completion rfl)
  refine ⟨k, fun es => ⟨_, hk es, rfl, rfl, rfl, rfl, hn, rfl, rfl, rfl, ?inputs, ?cursor, rfl⟩⟩
  case inputs => simp [sameInputs, complete, framesSent]
  case cursor => simp [complete, framesSent]

end Sys2Proof.Machine

/-! ## The tokens of a SEND, whatever the other agents do (42_assembler.md R142, R143, R147) -/

namespace Sys2Proof.Machine

section Waveform

variable {f : Profile} {v : Payload} {n : Nat}

/-! ### The frames sent so far -/

/-- Frame k, sent with the reading `x`, joins the frames before it. -/
theorem wireFrames_update (f : Profile) (v : Payload) (n : Nat) (e : Nat → Duration) (k : Nat) (x : Duration) :
    wireFrames f v n (Function.update e k x) (k + 1) = wireFrames f v n e k ++ wireFrame f v n k x := by
  have hbefore : wireFrames f v n (Function.update e k x) k = wireFrames f v n e k :=
    List.flatMap_congr fun i hi => by rw [Function.update_of_ne (List.mem_range.1 hi).ne]
  rw [wireFrames_succ, hbefore, Function.update_self]

theorem wireFrames_prefix (e : Nat → Duration) {j k : Nat} (h : j ≤ k) :
    wireFrames f v n e j <+: wireFrames f v n e k := by
  induction k, h using Nat.le_induction with
  | base => exact List.prefix_rfl
  | succ k _ ih =>
    rw [wireFrames_succ]
    exact ih.trans (List.prefix_append _ _)

/-! ### The tokens handed over (60_exceptions.md R205) -/

/-- The tokens a SEND with the sequencer's record `q` has handed over: the frames before the present one, with the clock
readings `e`, and those of the actions performed in it. -/
def handedOver (f : Profile) (v : Payload) (n : Nat) (e : Nat → Duration) (q : Sequencer) : List Token :=
  wireFrames f v n e q.frame ++ ((sendActions f v n q.frame).take q.step).filterMap (Action.token f q.elapsed)

theorem handedOver_frameStart (e : Nat → Duration) {q : Sequencer} (h : q.step = 0) :
    handedOver f v n e q = wireFrames f v n e q.frame := by
  simp [handedOver, h]

/-- The trailing space comes last and once, so what precedes it does not depend on the clock reading (42_assembler.md
R143, R144). -/
theorem tokens_before_clockRead {k j : Nat} (h : (sendActions f v n k)[j]? = some .clockRead) (e e' : Duration) :
    ((sendActions f v n k).take j).filterMap (Action.token f e) =
      ((sendActions f v n k).take j).filterMap (Action.token f e') := by
  obtain ⟨as, has, hgap⟩ : ∃ as, sendActions f v n k = as ++ [.emitGap] ∧ .emitGap ∉ as := by
    refine ⟨(if k = 0 then [.carrier f.freqKhz f.dutyPct] else []) ++
      ([.clockReset, .emit ⟨.mark, f.hdrMark⟩] ++ (frameMiddle f v n k).map .emit ++
        [.emit ⟨.mark, f.ftrMark⟩, .clockRead]), by simp [sendActions, frameActions], ?_⟩
    split <;> simp
  rw [has] at h ⊢
  have hj : j < as.length := by
    by_contra hge
    have hmem := List.mem_of_getElem? (List.getElem?_append_right (not_lt.1 hge) ▸ h)
    simp at hmem
  rw [List.take_append_of_le_length hj.le]
  refine List.filterMap_congr fun a ha => ?_
  cases a with
  | emitGap => exact absurd (List.mem_of_mem_take ha) hgap
  | carrier | clockReset | emit | clockRead => rfl

/-- Performing an action hands over its token, if it has one. -/
theorem handedOver_perform {s : State} {a : Action} (e : Nat → Duration)
    (ha : (sendActions f v n s.seq.frame)[s.seq.step]? = some a) :
    handedOver f v n e (perform f s a).seq = handedOver f v n e s.seq ++ (a.token f s.seq.elapsed).toList := by
  have hnext : ∀ x, ((sendActions f v n s.seq.frame).take (s.seq.step + 1)).filterMap (Action.token f x) =
      ((sendActions f v n s.seq.frame).take s.seq.step).filterMap (Action.token f x) ++ (a.token f x).toList := by
    intro x
    rw [List.take_add_one, ha, List.filterMap_append]
    cases h : a.token f x <;> simp [h]
  cases a with
  | clockRead =>
    have hsame := tokens_before_clockRead ha s.env.clock s.seq.elapsed
    simp only [handedOver, perform, clockRead, State.setSeq_seq, hnext, hsame, List.append_assoc]
    rfl
  | carrier | clockReset | emit | emitGap =>
    simp only [handedOver, List.append_assoc, ← hnext]
    rfl

theorem perform_tokens (f : Profile) {s : State} (hn : s.seq.pending = none) (a : Action) :
    (perform f s a).env.tokens ++ (perform f s a).seq.pending.toList =
      s.env.tokens ++ (a.token f s.seq.elapsed).toList := by
  cases a with
  | carrier | clockReset | clockRead => exact congrArg (s.env.tokens ++ ·.toList) hn
  | emit | emitGap => rfl

/-- The tokens handed over begin the frames up to the present one, and are all of them past its last action. -/
theorem handedOver_prefix (e : Nat → Duration) (q : Sequencer) :
    handedOver f v n e q <+: wireFrames f v n (Function.update e q.frame q.elapsed) (q.frame + 1) := by
  rw [wireFrames_update, ← frameActions_tokens]
  exact (List.prefix_append_right_inj _).2 ((List.take_prefix _ _).filterMap _)

theorem handedOver_end (e : Nat → Duration) {q : Sequencer} (h : (sendActions f v n q.frame).length ≤ q.step) :
    handedOver f v n e q = wireFrames f v n (Function.update e q.frame q.elapsed) (q.frame + 1) := by
  rw [wireFrames_update, ← frameActions_tokens, handedOver, List.take_of_length_le h]

end Waveform

/-! ### The invariant of a SEND's tokens -/

/-- The SEND of payload `v` by the profile `f` runs, and since its start, with the token trace at `out`, exactly the
tokens of its actions so far were handed over. -/
structure Sending (p : BitVec 2) (n : BitVec 7) (r : BitVec 12) (f : Profile) (v : Payload) (out : List Token)
    (s : State) : Prop where
  inReset : s.inReset = false
  phase : s.seq.phase = .run
  cmd : s.seq.cmd = encode (.send p n r)
  profile : s.profile p = f
  op : s.op = v
  frame : s.seq.frame ≤ r.toNat
  tokens : ∃ e, s.env.tokens ++ s.seq.pending.toList = out ++ handedOver f v n.toNat e s.seq

/-- The SEND has completed, and exactly its waveform was emitted. -/
structure Sent (n : BitVec 7) (r : BitVec 12) (f : Profile) (v : Payload) (out : List Token) (s : State) : Prop where
  phase : s.seq.phase = .idle
  pending : s.seq.pending = none
  tokens : ∃ e, s.env.tokens = out ++ wireSend f v n.toNat r.toNat e

namespace Sending

variable {p : BitVec 2} {n : BitVec 7} {r : BitVec 12} {f : Profile} {v : Payload} {out : List Token} {s t : State}

theorem perform {a : Action} (h : Sending p n r f v out s) (hn : s.seq.pending = none)
    (ha : (sendActions f v n.toNat s.seq.frame)[s.seq.step]? = some a) :
    Sending p n r f v out (perform f s a) := by
  obtain ⟨e, he⟩ := h.tokens
  have htokens : (Machine.perform f s a).env.tokens ++ (Machine.perform f s a).seq.pending.toList =
      out ++ handedOver f v n.toNat e (Machine.perform f s a).seq := by
    rw [perform_tokens f hn, handedOver_perform e ha, ← List.append_assoc, ← he, hn]
    simp
  cases a <;> exact ⟨h.inReset, h.phase, h.cmd, h.profile, h.op, h.frame, e, htokens⟩

/-- The sequencer's turn in a SEND with no token pending. -/
theorem sendStep (h : Sending p n r f v out s) (hn : s.seq.pending = none) :
    Sending p n r f v out (sendStep p n r s) ∨ Sent n r f v out (sendStep p n r s) := by
  cases ha : (sendActions (s.profile p) s.op n.toNat s.seq.frame)[s.seq.step]? with
  | some a =>
    rw [sendStep_of_action ha, h.profile]
    rw [h.profile, h.op] at ha
    exact .inl (h.perform hn ha)
  | none =>
    have hend := List.getElem?_eq_none_iff.1 ha
    rw [sendStep_of_end hend]
    rw [h.profile, h.op] at hend
    obtain ⟨e, he⟩ := h.tokens
    rw [handedOver_end e hend, hn, Option.toList_none, List.append_nil] at he
    split
    · refine .inl ⟨h.inReset, h.phase, h.cmd, h.profile, h.op, ‹_›, Function.update e s.seq.frame s.seq.elapsed, ?_⟩
      rw [handedOver_frameStart _ rfl, show (nextFrame s).seq.pending = none from hn, Option.toList_none,
        List.append_nil]
      exact he
    · have hlast : s.seq.frame = r.toNat := le_antisymm h.frame (not_lt.1 ‹_›)
      exact .inr ⟨rfl, hn, _, hlast ▸ he⟩

theorem exec (h : Sending p n r f v out s) {i : Instr} (hd : decode s.seq.cmd = .ok i) (hx : exec i s = .next t) :
    Sending p n r f v out t ∨ Sent n r f v out t := by
  obtain rfl : .send p n r = i := by simpa [h.cmd, decode_encode] using hd
  cases hn : s.seq.pending with
  | some k =>
    rw [exec_pending _ h.phase hn] at hx
    cases hx
    exact .inl h
  | none =>
    rw [exec_send_run h.phase hn] at hx
    cases hx
    exact h.sendStep hn

theorem setEnv (h : Sending p n r f v out s) {e : Environment} (he : e.tokens = s.env.tokens) :
    Sending p n r f v out (s.setEnv e) :=
  ⟨h.inReset, h.phase, h.cmd, h.profile, h.op, h.frame, by simpa [he] using h.tokens⟩

/-- One event short of reset. -/
theorem effect {o : Option Event} (h : Sending p n r f v out s) (he : StepEffect o s t) (ho : o ≠ some .resetAssert) :
    Sending p n r f v out t ∨ Sent n r f v out t := by
  cases he with
  | outside e hq => exact .inl (h.setEnv hq.tokens)
  | sequencer i _ _ _ hd hx => exact h.exec hd hx
  | driver tok _ _ hp =>
    refine .inl ⟨h.inReset, h.phase, h.cmd, h.profile, h.op, h.frame, ?_⟩
    obtain ⟨e, he⟩ := h.tokens
    rw [hp] at he
    exact ⟨e, (List.append_nil _).trans he⟩
  | lost e hq =>
    obtain ⟨hr, hp, hc, hf, hv, hk, htokens⟩ := h.setEnv hq.tokens
    exact .inl ⟨hr, hp, hc, hf, hv, hk, htokens⟩
  | write _ _ _ _ _ _ hi _ => exact absurd (hi.symm.trans h.phase) (by decide)
  | resetAssert hreset => exact absurd hreset ho
  | resetRelease _ => exact .inl ⟨rfl, h.phase, h.cmd, h.profile, h.op, h.frame, h.tokens⟩

/-- A step always has a next state, in which the SEND still runs or has completed. -/
theorem step (h : Sending p n r f v out s) (hreset : .resetAssert ∉ s.env.schedule) :
    ∃ t, step s = .next t ∧ .resetAssert ∉ t.env.schedule ∧
      (Sending p n r f v out t ∨ Sent n r f v out t) := by
  have hnext : ∃ t, Machine.step s = .next t := by
    rcases step_outcome s with hnext | ⟨i, -, hd, hstep⟩
    · exact hnext
    · obtain rfl : .send p n r = i := by simpa [h.cmd, decode_encode] using hd
      rw [hstep]
      cases hn : s.seq.pending with
      | some k => exact ⟨_, exec_pending (s := s.taken) _ h.phase hn⟩
      | none => exact ⟨_, exec_send_run (s := s.taken) h.phase hn p n r⟩
  obtain ⟨t, ht⟩ := hnext
  obtain ⟨-, -, hrest⟩ := step_keeps_inputs ht (by simp [State.busy, h.phase]) hreset
  have htaken : Sending p n r f v out s.taken := h.setEnv rfl
  exact ⟨t, ht, hrest, htaken.effect (step_effect ht) fun ho => hreset (List.mem_of_head? ho)⟩

/-- A run up to the completion. -/
theorem run {m : Nat} (h : Sending p n r f v out s) (hreset : .resetAssert ∉ s.env.schedule)
    (hb : ∀ j t, j < m → runFor j s = .next t → t.busy = true) :
    ∃ t, runFor m s = .next t ∧ (Sending p n r f v out t ∨ Sent n r f v out t) := by
  induction m generalizing s with
  | zero => exact ⟨s, rfl, .inl h⟩
  | succ m ih =>
    obtain ⟨u, hu, hru, hsending | hsent⟩ := h.step hreset
    · rw [runFor_succ m hu]
      exact ih hsending hru fun j t hj ht => hb (j + 1) t (by omega) ((runFor_succ j hu).trans ht)
    · cases m with
      | zero => exact ⟨u, runFor_succ 0 hu, .inr hsent⟩
      | succ m =>
        have hbusy := hb 1 u (by omega) (runFor_succ 0 hu)
        simp [State.busy, hsent.phase] at hbusy

/-- The tokens of a running SEND, the pending one included, begin its waveform for some clock readings. -/
theorem begins_waveform (h : Sending p n r f v out s) :
    ∃ e rest, s.env.tokens ++ s.seq.pending.toList ++ rest = out ++ wireSend f v n.toNat r.toNat e := by
  obtain ⟨e, he⟩ := h.tokens
  obtain ⟨rest, hrest⟩ := (handedOver_prefix e s.seq).trans (wireFrames_prefix _ (Nat.succ_le_succ h.frame))
  exact ⟨_, rest, by rw [he, List.append_assoc, hrest, wireSend_eq]⟩

end Sending

/-- Settles O21: every step of a run keeps `Sending` until the completion reaches `Sent`. -/
theorem sendEmitsNothingButItsWaveform : Obligations.SendEmitsNothingButItsWaveform := by
  intro s p n r m hr hp hn hc hf h0 hreset hb
  have hstart : Sending p n r (s.profile p) s.op s.env.tokens s :=
    ⟨hr, hp, hc, rfl, rfl, by omega, fun _ => 0, by simp [handedOver_frameStart _ h0, wireFrames, hn, hf]⟩
  obtain ⟨t, ht, hsending | hsent⟩ := hstart.run hreset hb
  · obtain ⟨e, rest, he⟩ := hsending.begins_waveform
    exact ⟨t, ht, e, rest, he, fun hi => absurd hi (by simp [State.busy, hsending.phase])⟩
  · obtain ⟨e, he⟩ := hsent.tokens
    exact ⟨t, ht, e, [], by simp [he, hsent.pending], fun _ => ⟨rfl, hsent.pending⟩⟩

end Sys2Proof.Machine

/-! ## DECODE's state machine, and what it reads of the capture -/

namespace Sys2Proof.Machine

/-! ### The transitions that read no element (43_parser.md R172) -/

section ReadlessTransitions

variable {s : State} (p : BitVec 2) (strict : Bool) (n : BitVec 7)

theorem decodeStep_footerMatched (h : s.seq.parse = .footerMatched) :
    decodeStep p strict n s = parseResult (parseCompliance (s.profile p) strict s) s := by simp only [decodeStep, h]

theorem decodeStep_accepted (h : s.seq.parse = .compliant ∨ s.seq.parse = .nonStrictAccepted) :
    decodeStep p strict n s = .next (parsedTo .success s.seq.cur s.seq.acc s) := by
  rcases h with h | h <;> simp only [decodeStep, h]

theorem decodeStep_success (h : s.seq.parse = .success) :
    decodeStep p strict n s = .next (complete true (decodedResults (s.profile p) n s.seq.acc) s) := by
  simp only [decodeStep, h]

theorem decodeStep_failure (h : s.seq.parse = .failure) : decodeStep p strict n s = .next (failDecode s) := by
  simp only [decodeStep, h]

end ReadlessTransitions

/-- Settles O22: the completions of Success and Failure are record updates. -/
theorem decodeCompletion : Obligations.DecodeCompletion := by
  intro s p strict n hp hn
  rw [exec_decode_run hp hn]
  refine ⟨fun hparse hcodec => ?_, fun hparse => ?_⟩
  · refine ⟨_, payload_decodedResults (s.profile p) n s.seq.acc, rfl, fieldsAre_fields hcodec s.seq.acc, rfl, ?_⟩
    rw [decodeStep_success p strict n hparse, complete_eq]
  · rw [decodeStep_failure p strict n hparse, failDecode, complete_eq]
    rfl

/-! ### The successors of a parser state (43_parser.md R172) -/

/-- A transition's walk ends in one of two ways: it fails, or it matches and enters this parser state. -/
def Walk.failsOrEnters (s : State) (st : ParseState) (w : Walk State) : Prop :=
  w = .failed ∨ ∃ c v, w = .matched (parsedTo st c v s)

section Successors

variable {s : State} {f : Profile} {strict : Bool} {n : BitVec 7} {st : ParseState}

theorem Walk.failsOrEnters_matched (c : Nat) (v : Payload) : (Walk.matched (parsedTo st c v s)).failsOrEnters s st :=
  .inr ⟨c, v, rfl⟩

theorem Walk.failsOrEnters_check {b : Bool} {w : Walk State} (h : b = true → w.failsOrEnters s st) :
    (if b then w else .failed).failsOrEnters s st := by
  cases b with
  | true => exact h rfl
  | false => exact .inl rfl

/-- The end of such a walk is a next state of the running command: Failure, or the state it enters. -/
theorem parseResult_of_failsOrEnters {w : Walk State} (h : w.failsOrEnters s st) :
    ∃ t, parseResult w s = .next t ∧ (t.seq.parse = st ∨ t.seq.parse = .failure) ∧ t.seq.phase = s.seq.phase := by
  obtain rfl | ⟨c, v, rfl⟩ := h
  · exact ⟨_, rfl, .inr rfl, rfl⟩
  · exact ⟨_, rfl, .inl rfl, rfl⟩

theorem parseCompliance_strict_failsOrEnters : (parseCompliance f true s).failsOrEnters s .compliant :=
  Walk.failsOrEnters_check fun _ => Walk.failsOrEnters_matched _ _

variable (hread : ∀ i, transitionReads s f strict n i → (capRead s i).isSome = true)
include hread

theorem parseStart_failsOrEnters (hparse : s.seq.parse = .start) :
    (parseStart f strict n s).failsOrEnters s .headerMatched := by
  simp only [transitionReads, hparse] at hread
  by_cases hfits : (strict = true → n = f.nbitsCanon) ∧ 2 * n.toNat + 3 ≤ s.capLen.toNat
  · obtain ⟨hcanon, hlen⟩ := hfits
    rw [parseStart_of_fits hcanon hlen, Walk.read_written (hread 0 ⟨hcanon, hlen, .inl rfl⟩)]
    refine Walk.failsOrEnters_check fun hmark => ?_
    rw [Walk.read_written (hread 1 ⟨hcanon, hlen, .inr ⟨hmark, rfl⟩⟩)]
    exact Walk.failsOrEnters_check fun _ => Walk.failsOrEnters_matched _ _
  · rw [parseStart_of_not_fits hfits]
    exact .inl rfl

theorem parseBody_failsOrEnters (hparse : s.seq.parse = .headerMatched) :
    (parseBody f n s).failsOrEnters s .bodyMatched := by
  simp only [transitionReads, hparse] at hread
  by_cases hbody : bodyMatches s f s.seq.cur n.toNat
  · rw [parseBody, bitDecode_of_bodyMatches hread hbody]
    exact Walk.failsOrEnters_matched _ _
  · rw [parseBody, bitDecode_of_not_bodyMatches hread hbody]
    exact .inl rfl

theorem parseFooter_failsOrEnters (hparse : s.seq.parse = .bodyMatched) :
    (parseFooter f s).failsOrEnters s .footerMatched := by
  simp only [transitionReads, hparse] at hread
  rw [parseFooter, Walk.read_written (hread _ (.inl rfl))]
  refine Walk.failsOrEnters_check fun hmark => ?_
  by_cases hgap : s.seq.cur + 1 < s.capLen.toNat
  · rw [if_pos hgap, Walk.read_written (hread _ (.inr ⟨hmark, rfl, hgap⟩))]
    exact Walk.failsOrEnters_check fun _ => Walk.failsOrEnters_matched _ _
  · rw [if_neg hgap]
    exact Walk.failsOrEnters_matched _ _

end Successors

/-- Settles O23: in each parser state the walk fails or enters the named successor, and the states without a walk have one
successor or complete. -/
theorem decodeFollowsTheStateMachine : Obligations.DecodeFollowsTheStateMachine := by
  intro s p strict n hp hn _ hread
  rw [exec_decode_run hp hn]
  cases h : s.seq.parse with
  | start =>
    obtain ⟨t, ht, hst, hphase⟩ := parseResult_of_failsOrEnters (parseStart_failsOrEnters hread h)
    exact ⟨t, (decodeStep_start p strict n h).trans ht, by simpa [hphase, hp] using hst⟩
  | headerMatched =>
    obtain ⟨t, ht, hst, hphase⟩ := parseResult_of_failsOrEnters (parseBody_failsOrEnters hread h)
    exact ⟨t, (decodeStep_headerMatched p strict n h).trans ht, by simpa [hphase, hp] using hst⟩
  | bodyMatched =>
    obtain ⟨t, ht, hst, hphase⟩ := parseResult_of_failsOrEnters (parseFooter_failsOrEnters hread h)
    exact ⟨t, (decodeStep_bodyMatched p strict n h).trans ht, by simpa [hphase, hp] using hst⟩
  | footerMatched =>
    cases strict with
    | true =>
      obtain ⟨t, ht, hst, hphase⟩ := parseResult_of_failsOrEnters (parseCompliance_strict_failsOrEnters (f := s.profile p))
      exact ⟨t, (decodeStep_footerMatched p true n h).trans ht, by simpa [hphase, hp] using hst⟩
    | false =>
      exact ⟨parsedTo .nonStrictAccepted s.seq.cur s.seq.acc s, decodeStep_footerMatched p false n h,
        by simp [parsedTo, hp]⟩
  | compliant => exact ⟨_, decodeStep_accepted p strict n (.inl h), by simp [parsedTo, hp]⟩
  | nonStrictAccepted => exact ⟨_, decodeStep_accepted p strict n (.inr h), by simp [parsedTo, hp]⟩
  | success => exact ⟨_, decodeStep_success p strict n h, by simp [complete]⟩
  | failure => exact ⟨_, decodeStep_failure p strict n h, by simp [failDecode, complete]⟩

/-! ### What a DECODE does with another CAP_LEN (43_parser.md R164, R168) -/

/-- Replace CAP_LEN. -/
def State.setCapLen (s : State) (l : Word) : State := { s with capLen := l }

/-- A DECODE of n bits cannot tell the two lengths apart: they answer alike whether the frame fits, and whether an element
follows its footer mark. -/
def sameFrameLength (n : BitVec 7) (l k : Word) : Prop :=
  (2 * n.toNat + 3 ≤ l.toNat ↔ 2 * n.toNat + 3 ≤ k.toNat) ∧ (2 * n.toNat + 3 < l.toNat ↔ 2 * n.toNat + 3 < k.toNat)

section SetCapLen

variable (s : State) (l : Word)

@[simp] theorem State.setCapLen_capLen : (s.setCapLen l).capLen = l := rfl
@[simp] theorem State.setCapLen_seq : (s.setCapLen l).seq = s.seq := rfl
@[simp] theorem State.profile_setCapLen (p : BitVec 2) : (s.setCapLen l).profile p = s.profile p := rfl

theorem parseResult_setCapLen (w : Walk State) :
    parseResult (w.map (·.setCapLen l)) (s.setCapLen l) = onNext (·.setCapLen l) (parseResult w s) := by
  cases w <;> rfl

/-! The length is not what a read answers with. -/

theorem Walk.read_setCapLen {α β : Type} {g : α → β} (i : Nat) {k : Duration → Walk α} {k' : Duration → Walk β}
    (hk : ∀ d, k' d = (k d).map g) : Walk.read (s.setCapLen l) i k' = (Walk.read s i k).map g := by
  have hcap : capRead (s.setCapLen l) i = capRead s i := rfl
  rw [Walk.read_eq, Walk.read_eq, hcap]
  cases capRead s i with
  | none => rfl
  | some d => exact hk d

theorem parseBody_setCapLen (f : Profile) (n : BitVec 7) :
    parseBody f n (s.setCapLen l) = (parseBody f n s).map (·.setCapLen l) := by
  have hbits : bitDecode (s.setCapLen l) f n.toNat s.seq.cur 0 = bitDecode s f n.toNat s.seq.cur 0 :=
    bitDecode_congr (s := s) (t := s.setCapLen l) rfl rfl f 0 fun _ _ _ => rfl
  rw [parseBody, parseBody, State.setCapLen_seq, hbits]
  cases bitDecode s f n.toNat s.seq.cur 0 <;> rfl

theorem parseCompliance_setCapLen (f : Profile) (strict : Bool) :
    parseCompliance f strict (s.setCapLen l) = (parseCompliance f strict s).map (·.setCapLen l) := by
  cases strict with
  | true => exact Walk.map_check (comply f.codec s.seq.acc) rfl
  | false => rfl

end SetCapLen

section SameFrameLength

variable {s : State} {l : Word} {p : BitVec 2} {strict : Bool} {n : BitVec 7} (hl : sameFrameLength n l s.capLen)
include hl

theorem parseStart_setCapLen (f : Profile) :
    parseStart f strict n (s.setCapLen l) = (parseStart f strict n s).map (·.setCapLen l) := by
  obtain ⟨hfit, -⟩ := hl
  by_cases h : (strict = true → n = f.nbitsCanon) ∧ 2 * n.toNat + 3 ≤ s.capLen.toNat
  · obtain ⟨hcanon, hlen⟩ := h
    rw [parseStart_of_fits hcanon hlen, parseStart_of_fits (s := s.setCapLen l) hcanon (hfit.2 hlen)]
    exact Walk.read_setCapLen s l 0 fun d => Walk.map_check (durMatches s d _) <|
      Walk.read_setCapLen s l 1 fun d => Walk.map_check (durMatches s d _) rfl
  · rw [parseStart_of_not_fits h, parseStart_of_not_fits (s := s.setCapLen l) fun h' => h (h'.imp_right hfit.1)]
    rfl

theorem parseFooter_setCapLen (f : Profile) (hc : s.seq.cur = 2 * n.toNat + 2) :
    parseFooter f (s.setCapLen l) = (parseFooter f s).map (·.setCapLen l) := by
  obtain ⟨-, hgap⟩ := hl
  refine Walk.read_setCapLen s l _ fun d => Walk.map_check (durMatches s d _) ?_
  rw [State.setCapLen_seq, State.setCapLen_capLen, hc]
  by_cases h : 2 * n.toNat + 3 < s.capLen.toNat
  · rw [if_pos h, if_pos (hgap.2 h)]
    exact Walk.read_setCapLen s l _ fun d => Walk.map_check (durMatchesAtLeast s d _) rfl
  · rw [if_neg h, if_neg (mt hgap.1 h)]
    rfl

theorem decodeStep_setCapLen (hpos : positionOk (.decode p strict n) s) :
    decodeStep p strict n (s.setCapLen l) = onNext (·.setCapLen l) (decodeStep p strict n s) := by
  obtain ⟨-, -, hbody⟩ := hpos
  cases h : s.seq.parse with
  | start =>
    rw [decodeStep_start p strict n h, decodeStep_start (s := s.setCapLen l) p strict n h, ← parseResult_setCapLen,
      State.profile_setCapLen, parseStart_setCapLen hl]
  | headerMatched =>
    rw [decodeStep_headerMatched p strict n h, decodeStep_headerMatched (s := s.setCapLen l) p strict n h,
      ← parseResult_setCapLen, State.profile_setCapLen, parseBody_setCapLen]
  | bodyMatched =>
    obtain ⟨hcur, -⟩ := hbody h
    rw [decodeStep_bodyMatched p strict n h, decodeStep_bodyMatched (s := s.setCapLen l) p strict n h,
      ← parseResult_setCapLen, State.profile_setCapLen, parseFooter_setCapLen hl _ hcur]
  | footerMatched =>
    rw [decodeStep_footerMatched p strict n h, decodeStep_footerMatched (s := s.setCapLen l) p strict n h,
      ← parseResult_setCapLen, State.profile_setCapLen, parseCompliance_setCapLen]
  | compliant | nonStrictAccepted | success | failure =>
    simp only [decodeStep, h, State.setCapLen_seq]
    rfl

theorem positionOk_setCapLen (hpos : positionOk (.decode p strict n) s) :
    positionOk (.decode p strict n) (s.setCapLen l) := by
  obtain ⟨hfit, -⟩ := hl
  obtain ⟨hn, hheader, hbody⟩ := hpos
  exact ⟨hn, fun h => (hheader h).imp_right hfit.2, fun h => (hbody h).imp_right hfit.2⟩

theorem exec_decode_setCapLen (hp : s.seq.phase = .run) (hpos : positionOk (.decode p strict n) s) :
    exec (.decode p strict n) (s.setCapLen l) = onNext (·.setCapLen l) (exec (.decode p strict n) s) := by
  have hn : s.seq.pending = none := hpos.1
  rw [exec_decode_run hp hn, exec_decode_run (s := s.setCapLen l) hp hn, decodeStep_setCapLen hl hpos]

end SameFrameLength

/-! ### What follows the gap (43_parser.md R169) -/

/-- CAP_LEN cut off behind the gap of an n-bit frame: a DECODE cannot tell. -/
theorem exists_sameFrameLength_le (n : BitVec 7) (l : Word) :
    ∃ k : Word, sameFrameLength n k l ∧ k.toNat ≤ 2 * n.toNat + 4 := by
  have hk : (BitVec.ofNat 32 (min l.toNat (2 * n.toNat + 4))).toNat = min l.toNat (2 * n.toNat + 4) := by
    rw [BitVec.toNat_ofNat, Nat.mod_eq_of_lt (lt_of_le_of_lt (Nat.min_le_left _ _) l.isLt)]
  refine ⟨BitVec.ofNat 32 (min l.toNat (2 * n.toNat + 4)), ?_, by omega⟩
  unfold sameFrameLength
  omega

/-- One length, or two that both reach behind the gap. -/
theorem sameFrameLength_of_reachesGap {n : BitVec 7} {l k : Word}
    (h : l = k ∨ (2 * n.toNat + 4 ≤ l.toNat ∧ 2 * n.toNat + 4 ≤ k.toNat)) : sameFrameLength n l k := by
  unfold sameFrameLength
  obtain rfl | ⟨hl, hk⟩ := h
  · exact ⟨Iff.rfl, Iff.rfl⟩
  · omega

theorem sameFrameLength.symm {n : BitVec 7} {l k : Word} (h : sameFrameLength n l k) : sameFrameLength n k l :=
  ⟨h.1.symm, h.2.symm⟩

theorem sameFrameLength.trans {n : BitVec 7} {l k j : Word} (h : sameFrameLength n l k) (h' : sameFrameLength n k j) :
    sameFrameLength n l j := ⟨h.1.trans h'.1, h.2.trans h'.2⟩

/-- A DECODE does the same on two captures that agree up to the gap: with CAP_LEN cut off behind the gap the captures agree
below it, so the step reads nothing else (20_memory.md R62). -/
theorem exec_decode_beyondGap {s : State} {m : Memory} {l : Word} {p : BitVec 2} {strict : Bool} {n : BitVec 7}
    (hp : s.seq.phase = .run) (hpos : positionOk (.decode p strict n) s)
    (hm : ∀ j, j < 2 * n.toNat + 4 → capRead (s.setCapture m) j = capRead s j) (hl : sameFrameLength n l s.capLen) :
    exec (.decode p strict n) ((s.setCapture m).setCapLen l) =
      onNext (fun t => (t.setCapture m).setCapLen l) (exec (.decode p strict n) s) := by
  obtain ⟨k, hcut, hk⟩ := exists_sameFrameLength_le n s.capLen
  have hposCut := positionOk_setCapLen hcut hpos
  have hmCut : ∀ j, j < k.toNat → capRead ((s.setCapLen k).setCapture m) j = capRead s j := fun j hj =>
    hm j (lt_of_lt_of_le hj hk)
  calc exec (.decode p strict n) ((s.setCapture m).setCapLen l)
      = exec (.decode p strict n) (((s.setCapLen k).setCapture m).setCapLen l) := rfl
    _ = onNext (·.setCapLen l) (exec (.decode p strict n) ((s.setCapLen k).setCapture m)) :=
        exec_decode_setCapLen (s := (s.setCapLen k).setCapture m) (hl.trans hcut.symm) hp hposCut
    _ = onNext (·.setCapLen l) (onNext (·.setCapture m) (exec (.decode p strict n) (s.setCapLen k))) := by
        rw [exec_setCapture (s := s.setCapLen k) hmCut hp hpos.1 hposCut]
    _ = onNext (·.setCapLen l) (onNext (·.setCapture m) (onNext (·.setCapLen k) (exec (.decode p strict n) s))) := by
        rw [exec_decode_setCapLen hcut hp hpos]
    _ = onNext (fun t => (t.setCapture m).setCapLen l) (exec (.decode p strict n) s) := by
        cases exec (.decode p strict n) s <;> rfl

/-- Settles O28: the step on the other capture and length is the same step, with them in its next state. -/
theorem decodeIgnoresWhatFollowsTheGap : Obligations.DecodeIgnoresWhatFollowsTheGap := by
  intro s m l p strict n hp _ hpos hm hlen
  have hexec := exec_decode_beyondGap hp hpos hm (sameFrameLength_of_reachesGap hlen)
  exact ⟨fun t ht => hexec.trans (congrArg _ ht), fun r hr => hexec.trans (congrArg _ hr)⟩

end Sys2Proof.Machine

/-! ## PENC, and what the codecs read back -/

namespace Sys2Proof.Machine

/-! ### The layout the constructions share (44_protocol.md R182, R183, R186)

Each payload is two address bytes, then the reversed command and its complement. The codecs differ in the address bytes
only, so that every fact about the command is proved once. -/

/-- The payload with address bytes `h` and command `c`. -/
def packed (h : BitVec 16) (c : BitVec 8) : Word := h ++ rev8 c ++ ~~~(rev8 c)

/-- The address bytes of NEC-style (for codec 1) and of Samsung. -/
def addressBytes (codec : BitVec 2) (a : BitVec 16) : BitVec 16 :=
  let ad := rev8 (a.setWidth 8)
  if codec = 1 then (if a.toNat ≤ 0xFF then ad ++ ~~~ad else rev16 a) else ad ++ ad

section
variable {a : BitVec 16}

theorem addressBytes_nec8 (h : a.toNat ≤ 0xFF) :
    addressBytes 1 a = rev8 (a.setWidth 8) ++ ~~~(rev8 (a.setWidth 8)) := by simp [addressBytes, h]

theorem addressBytes_nec16 (h : 0xFF < a.toNat) : addressBytes 1 a = rev16 a := by
  simp [addressBytes, Nat.not_le.2 h]

theorem addressBytes_samsung : addressBytes 2 a = rev8 (a.setWidth 8) ++ rev8 (a.setWidth 8) := rfl

end

theorem necEncode_eq_packed (a : BitVec 16) (c : BitVec 8) : necEncode a c = packed (addressBytes 1 a) c := by
  rw [necEncode]
  split
  · rw [addressBytes_nec8 ‹_›]
    rfl
  · rw [addressBytes_nec16 (Nat.lt_of_not_le ‹_›)]
    rfl

theorem samEncode_eq_packed (a : BitVec 16) (c : BitVec 8) : samEncode a c = packed (addressBytes 2 a) c := rfl

theorem codecPayload_eq_packed {codec : BitVec 2} (hc : codec = 1 ∨ codec = 2) (a : BitVec 16) (c : BitVec 8) :
    codecPayload codec a c = some (packed (addressBytes codec a) c) := by
  obtain rfl | rfl := hc
  · exact congrArg some (necEncode_eq_packed a c)
  · rfl

/-! ### The bits of a payload -/

theorem getLsbD_packed_address (h : BitVec 16) (c : BitVec 8) {j : Nat} (hj : j < 16) :
    (packed h c).getLsbD (31 - j) = h.getLsbD (15 - j) := by
  rw [packed, BitVec.getLsbD_append, if_neg (by omega), BitVec.getLsbD_append, if_neg (by omega),
    show 31 - j - 8 - 8 = 15 - j by omega]

theorem getLsbD_packed_command (h : BitVec 16) (c : BitVec 8) {j : Nat} (hj : j < 8) :
    (packed h c).getLsbD (15 - j) = c.getLsbD j := by
  rw [packed, BitVec.getLsbD_append, if_neg (by omega), BitVec.getLsbD_append, if_pos (by omega),
    getLsbD_rev8 _ _ (by omega), show 7 - (15 - j - 8) = j by omega]

theorem getLsbD_packed_complement (h : BitVec 16) (c : BitVec 8) {j : Nat} (hj : j < 8) :
    (packed h c).getLsbD (7 - j) = !c.getLsbD j := by
  rw [packed, BitVec.getLsbD_append, if_pos (by omega), BitVec.getLsbD_not, getLsbD_rev8 _ _ (by omega),
    show 7 - (7 - j) = j by omega, decide_eq_true (by omega), Bool.true_and]

/-- A reversed address byte, from its most significant bit down, is the address from bit 0 up. -/
theorem getLsbD_rev8_lowByte (a : BitVec 16) {j : Nat} (hj : j < 8) :
    (rev8 (a.setWidth 8)).getLsbD (7 - j) = a.getLsbD j := by
  rw [getLsbD_rev8 _ _ (by omega), show 7 - (7 - j) = j by omega, BitVec.getLsbD_setWidth, decide_eq_true hj,
    Bool.true_and]

theorem getLsbD_not_rev8_lowByte (a : BitVec 16) {j : Nat} (hj : j < 8) :
    (~~~(rev8 (a.setWidth 8))).getLsbD (7 - j) = !a.getLsbD j := by
  rw [BitVec.getLsbD_not, getLsbD_rev8_lowByte a hj, decide_eq_true (by omega), Bool.true_and]

theorem getLsbD_packed_byte0 (x y c : BitVec 8) {j : Nat} (hj : j < 8) :
    (packed (x ++ y) c).getLsbD (31 - j) = x.getLsbD (7 - j) := by
  rw [getLsbD_packed_address _ _ (by omega), BitVec.getLsbD_append, if_neg (by omega),
    show 15 - j - 8 = 7 - j by omega]

theorem getLsbD_packed_byte1 (x y c : BitVec 8) {j : Nat} (hj : j < 8) :
    (packed (x ++ y) c).getLsbD (23 - j) = y.getLsbD (7 - j) := by
  rw [show 23 - j = 31 - (8 + j) by omega, getLsbD_packed_address _ _ (by omega), BitVec.getLsbD_append,
    if_pos (by omega), show 15 - (8 + j) = 7 - j by omega]

/-! ### PENC -/

theorem getLsbD_opAddress (s : State) {j : Nat} (hj : j < 16) : s.opAddress.getLsbD j = s.opLo.getLsbD j := by
  rw [State.opAddress, BitVec.getLsbD_extractLsb', decide_eq_true hj, Bool.true_and, Nat.zero_add]

theorem getLsbD_opCommand (s : State) {j : Nat} (hj : j < 8) : s.opCommand.getLsbD j = s.opLo.getLsbD (16 + j) := by
  rw [State.opCommand, BitVec.getLsbD_extractLsb', decide_eq_true hj, Bool.true_and]

/-- The results of a payload of one word: RES_LO. -/
theorem ofPayload_setWidth (w : Word) : Results.ofPayload (w.setWidth 64) = ⟨w, 0, 0, 0, 0, 0⟩ := by
  have hv : w.setWidth 64 = 0#32 ++ w := BitVec.setWidth_eq_append (by decide)
  have hlo : (w.setWidth 64).extractLsb' 0 32 = w := by rw [hv]; exact BitVec.extractLsb'_append_eq_right
  have hhi : (w.setWidth 64).extractLsb' 32 32 = 0 := by rw [hv]; exact BitVec.extractLsb'_append_eq_left
  rw [Results.ofPayload, hlo, hhi]
  rfl

theorem exec_penc_of_codecPayload {s : State} {p : BitVec 2} {w : Word} (hp : s.seq.phase = .run)
    (hn : s.seq.pending = none) (hw : codecPayload (s.profile p).codec s.opAddress s.opCommand = some w) :
    exec (.penc p) s = .next (complete true ⟨w, 0, 0, 0, 0, 0⟩ s) := by
  rw [exec_penc_run hp hn, pencStep, hw, ← ofPayload_setWidth]

/-- Settles O29: the construction is the shared layout, and the codec's address bytes are read off bit by bit. -/
theorem pencBuildsThePayload : Obligations.PencBuildsThePayload := by
  intro s p hp hn hc
  refine ⟨_, exec_penc_of_codecPayload hp hn (codecPayload_eq_packed hc s.opAddress s.opCommand),
    fun j hj => ?command, fun hk ha j hj => ?nec8, fun hk ha j hj => ?nec16, fun hk j hj => ?samsung⟩
  case command =>
    rw [← getLsbD_opCommand s hj]
    exact ⟨getLsbD_packed_command _ _ hj, getLsbD_packed_complement _ _ hj⟩
  case nec8 =>
    rw [hk, addressBytes_nec8 (a := s.opAddress) ha, ← getLsbD_opAddress s (by omega)]
    exact ⟨(getLsbD_packed_byte0 _ _ _ hj).trans (getLsbD_rev8_lowByte _ hj),
      (getLsbD_packed_byte1 _ _ _ hj).trans (getLsbD_not_rev8_lowByte _ hj)⟩
  case nec16 =>
    rw [hk, addressBytes_nec16 (a := s.opAddress) ha, getLsbD_packed_address _ _ hj, getLsbD_rev16 _ _ (by omega),
      show 15 - (15 - j) = j by omega, getLsbD_opAddress s hj]
  case samsung =>
    rw [hk, addressBytes_samsung, ← getLsbD_opAddress s (by omega)]
    exact ⟨(getLsbD_packed_byte0 _ _ _ hj).trans (getLsbD_rev8_lowByte _ hj),
      (getLsbD_packed_byte1 _ _ _ hj).trans (getLsbD_rev8_lowByte _ hj)⟩

/-! ### What the codecs read of a payload -/

/-- What lies at bit 16 and above is the address bytes. -/
theorem extractLsb'_packed_address (h : BitVec 16) (c : BitVec 8) {start len : Nat} (hs : 16 ≤ start)
    (hl : start + len ≤ 64) :
    ((packed h c).setWidth 64).extractLsb' start len = h.extractLsb' (start - 8 - 8) len := by
  rw [BitVec.extractLsb'_setWidth_of_le hl, packed, BitVec.extractLsb'_append_eq_of_le (by omega),
    BitVec.extractLsb'_append_eq_of_le (by omega)]

theorem payloadByte_zero_packed (h : BitVec 16) (c : BitVec 8) :
    payloadByte ((packed h c).setWidth 64) 0 = h.extractLsb' 8 8 :=
  extractLsb'_packed_address h c (by decide) (by decide)

theorem payloadByte_one_packed (h : BitVec 16) (c : BitVec 8) :
    payloadByte ((packed h c).setWidth 64) 1 = h.extractLsb' 0 8 :=
  extractLsb'_packed_address h c (by decide) (by decide)

theorem payloadByte_two_packed (h : BitVec 16) (c : BitVec 8) :
    payloadByte ((packed h c).setWidth 64) 2 = rev8 c := by
  rw [payloadByte, BitVec.extractLsb'_setWidth_of_le (by decide), packed,
    BitVec.extractLsb'_append_eq_of_le (by decide)]
  exact BitVec.extractLsb'_append_eq_right

theorem payloadByte_three_packed (h : BitVec 16) (c : BitVec 8) :
    payloadByte ((packed h c).setWidth 64) 3 = ~~~(rev8 c) := by
  rw [payloadByte, BitVec.extractLsb'_setWidth_of_le (by decide), packed]
  exact BitVec.extractLsb'_append_eq_right

theorem comply_nec_packed (h : BitVec 16) (c : BitVec 8) : comply 1 ((packed h c).setWidth 64) = true := by
  rw [comply, if_pos rfl, payloadByte_two_packed, payloadByte_three_packed, beq_self_eq_true]

theorem comply_samsung_packed (x c : BitVec 8) : comply 2 ((packed (x ++ x) c).setWidth 64) = true := by
  rw [comply, if_neg (by decide), if_pos rfl, payloadByte_zero_packed, payloadByte_one_packed, payloadByte_two_packed,
    payloadByte_three_packed, BitVec.extractLsb'_append_eq_left, BitVec.extractLsb'_append_eq_right, BitVec.not_not,
    beq_self_eq_true, beq_self_eq_true, Bool.and_self]

theorem fields_nec_packed (h : BitVec 16) (c : BitVec 8) :
    fields 1 ((packed h c).setWidth 64) =
      if h.extractLsb' 0 8 = ~~~(h.extractLsb' 8 8) then ((rev8 (h.extractLsb' 8 8)).setWidth 16, c)
      else (rev16 h, c) := by
  have haddr : ((packed h c).setWidth 64).extractLsb' 16 16 = h :=
    (extractLsb'_packed_address h c (by decide) (by decide)).trans BitVec.extractLsb'_eq_self
  rw [fields, if_pos rfl, payloadByte_zero_packed, payloadByte_one_packed, payloadByte_two_packed, haddr, rev8_rev8]
  split <;> rfl

theorem fields_samsung_packed (x y c : BitVec 8) :
    fields 2 ((packed (x ++ y) c).setWidth 64) = ((rev8 x).setWidth 16, c) := by
  rw [fields, if_neg (by decide), if_pos rfl, payloadByte_zero_packed, payloadByte_two_packed,
    BitVec.extractLsb'_append_eq_left, rev8_rev8]

/-! ### Reading back -/

/-- An address up to 0xFF is its low byte. -/
theorem setWidth_lowByte {a : BitVec 16} (h : a.toNat ≤ 0xFF) : (a.setWidth 8).setWidth 16 = a := by
  apply BitVec.eq_of_toNat_eq
  rw [BitVec.toNat_setWidth, BitVec.toNat_setWidth]
  omega

theorem fields_nec_of_le {a : BitVec 16} (h : a.toNat ≤ 0xFF) (c : BitVec 8) :
    fields 1 ((necEncode a c).setWidth 64) = (a, c) := by
  rw [necEncode_eq_packed, addressBytes_nec8 h, fields_nec_packed, BitVec.extractLsb'_append_eq_left,
    BitVec.extractLsb'_append_eq_right, if_pos rfl, rev8_rev8, setWidth_lowByte h]

theorem fields_nec_of_lt {a : BitVec 16} (h : 0xFF < a.toNat) (c : BitVec 8) :
    fields 1 ((necEncode a c).setWidth 64) =
      if (rev16 a).extractLsb' 0 8 = ~~~((rev16 a).extractLsb' 8 8)
      then ((rev8 ((rev16 a).extractLsb' 8 8)).setWidth 16, c) else (a, c) := by
  rw [necEncode_eq_packed, addressBytes_nec16 h, fields_nec_packed, rev16_rev16]

theorem fields_samsung_of_le {a : BitVec 16} (h : a.toNat ≤ 0xFF) (c : BitVec 8) :
    fields 2 ((samEncode a c).setWidth 64) = (a, c) := by
  rw [samEncode_eq_packed, addressBytes_samsung, fields_samsung_packed, rev8_rev8, setWidth_lowByte h]

/-- Settles O31: both constructions have the shared layout, whose fields are read part by part. -/
theorem codecsReadBackWhatTheyWrite : Obligations.CodecsReadBackWhatTheyWrite := by
  intro a c
  refine ⟨?_, fun h => fields_nec_of_le h c, fun h => fields_nec_of_lt h c, ?_, fun h => fields_samsung_of_le h c⟩
  · rw [necEncode_eq_packed]
    exact comply_nec_packed _ c
  · rw [samEncode_eq_packed, addressBytes_samsung]
    exact comply_samsung_packed _ c

end Sys2Proof.Machine

/-! ## The clock (60_exceptions.md R206) -/

namespace Sys2Proof.Machine

/-- A running command leaves the clock alone, or resets it. -/
theorem exec_clock {i : Instr} {s t : State} (hp : s.seq.phase = .run) (h : exec i s = .next t) :
    t.env.clock = s.env.clock ∨ t.env.clockResets = s.env.clockResets + 1 := by
  rcases exec_cases h with ⟨hi, -⟩ | ⟨-, -, rfl⟩ | ⟨-, -, hs⟩
  · exact absurd (hi.symm.trans hp) (by decide)
  · exact .inl rfl
  · cases hs with
    | send p n r a =>
      cases a with
      | clockReset => exact .inr rfl
      | emit | carrier | clockRead | emitGap => exact .inl rfl
    | complete | completeBdec | benc | nextFrame | parse | stay => exact .inl rfl

/-- A step that resets no clock does not lower its reading. -/
theorem StepEffect.clock_le {o : Option Event} {s t : State} (h : StepEffect o s t)
    (hc : t.env.clockResets = s.env.clockResets) : s.env.clock.toNat ≤ t.env.clock.toNat := by
  cases h with
  | outside e he => exact he.clock
  | sequencer i _ _ hp _ hx =>
    rcases exec_clock hp hx with hsame | hreset
    · exact hsame ▸ le_refl _
    · omega
  | lost e he => exact he.clock
  | write e v off _ he _ hp hw =>
    rw [writeRegister_env (s := s.setEnv e) hp hw]
    exact he.clock
  | driver | resetAssert | resetRelease => exact le_refl _

/-- The clock event of the difference reaches any later reading: a reading below 2 ^ 32 does not saturate. -/
theorem clockStep_difference {s : State} {e : Duration} (h : s.env.clock.toNat ≤ e.toNat) :
    clockStep (e.toNat - s.env.clock.toNat) s = s.setEnv { s.env with clock := e } := by
  have hmin : min (s.env.clock.toNat + (e.toNat - s.env.clock.toNat)) (2 ^ 32 - 1) = e.toNat := by
    have := e.isLt
    omega
  rw [clockStep, hmin, BitVec.ofNat_toNat, BitVec.setWidth_eq]

/-- Settles O43: by the inversion lemma of a step, and by the clock event of the difference. -/
theorem clockIsMonotone : Obligations.ClockIsMonotone := by
  refine ⟨fun s t h hc => (step_effect h).clock_le hc, fun s e he => ⟨e.toNat - s.env.clock.toNat, fun es => ?_⟩⟩
  exact congrArg Host.Outcome.next (clockStep_difference (s := s.setSchedule es) he)

end Sys2Proof.Machine

/-! ## A driver that never completes its token (60_exceptions.md R214) -/

namespace Sys2Proof.Machine

section Stalled

variable {s t : State} {tok : Token}

/-- With a token pending, one event that is neither a driver completion nor a reset leaves the sequencer's record, the
emitted tokens and the result registers alone. -/
theorem StepEffect.keeps_stalled {o : Option Event} (h : StepEffect o s t) (hp : s.seq.phase = .run)
    (hn : s.seq.pending = some tok) (hdriver : o ≠ some .driver) (hreset : o ≠ some .resetAssert) :
    t.seq = s.seq ∧ t.env.tokens = s.env.tokens ∧ t.res = s.res := by
  cases h with
  | outside e he => exact ⟨rfl, he.tokens, rfl⟩
  | sequencer i _ _ _ _ hx =>
    rw [exec_pending i hp hn] at hx
    cases hx
    exact ⟨rfl, rfl, rfl⟩
  | driver _ ho => exact absurd ho hdriver
  | lost e he => exact ⟨rfl, he.tokens, rfl⟩
  | write _ _ _ _ _ _ hi _ => exact absurd (hi.symm.trans hp) (by decide)
  | resetAssert ho => exact absurd ho hreset
  | resetRelease => exact ⟨rfl, rfl, rfl⟩

/-- A step with a token pending always has a next state: the sequencer's own step is to stay. -/
theorem step_next_of_pending (hp : s.seq.phase = .run) (hn : s.seq.pending = some tok) : ∃ t, step s = .next t := by
  rcases step_outcome s with hnext | ⟨i, -, -, hstep⟩
  · exact hnext
  · exact ⟨s.taken, hstep.trans (exec_pending (s := s.taken) i hp hn)⟩

/-- A step of a running block takes the next event off the schedule and adds none. -/
theorem schedule_of_step (h : step s = .next t) (hp : s.seq.phase = .run) (hreset : .resetAssert ∉ s.env.schedule) :
    t.env.schedule = s.env.schedule.tail := by
  obtain ⟨-, -, hs⟩ := (step_effect h).keeps_inputs hp fun ho => hreset (List.mem_of_head? ho)
  exact hs

end Stalled

/-- Settles O44: by induction on the run, whose every step keeps what stalls the sequencer. -/
theorem stalledDriverKeepsTheBlockBusy : Obligations.StalledDriverKeepsTheBlockBusy := by
  intro s tok k hp hn hdriver hreset
  induction k generalizing s with
  | zero => exact ⟨s, rfl, by simp [State.busy, hp], rfl, rfl, rfl⟩
  | succ k ih =>
    obtain ⟨u, hu⟩ := step_next_of_pending hp hn
    obtain ⟨hseq, htokens, hres⟩ := (step_effect hu).keeps_stalled hp hn
      (fun ho => hdriver (List.mem_of_head? ho)) (fun ho => hreset (List.mem_of_head? ho))
    have hrest : u.env.schedule = s.env.schedule.tail := schedule_of_step hu hp hreset
    obtain ⟨t, ht, hbusy, hseq', htokens', hres'⟩ := ih u (hseq ▸ hp) (hseq ▸ hn)
      (fun hm => hdriver (List.mem_of_mem_tail (hrest ▸ hm))) (fun hm => hreset (List.mem_of_mem_tail (hrest ▸ hm)))
    exact ⟨t, (runFor_succ k hu).trans ht, hbusy, hseq'.trans hseq, htokens'.trans htokens, hres'.trans hres⟩

end Sys2Proof.Machine

/-! ## The lock until reset, and the block held in reset (70_reset_and_hazards.md R220, R221, R226) -/

namespace Sys2Proof.Machine

/-! ### The locked configuration (10_state.md R38) -/

/-- LOCK and what it protects: TOL, MARGIN and the profiles. -/
def State.lockedPart (s : State) : Bool × BitVec 8 × Word × Vector Profile 4 := (s.lock, s.tolPct, s.marginUs, s.profiles)

theorem sameInputs.lockedPart {s t : State} (h : sameInputs s t) : t.lockedPart = s.lockedPart := by
  obtain ⟨-, hlock, htol, hmargin, -, -, -, -, hprofiles, -⟩ := h
  rw [State.lockedPart, hlock, htol, hmargin, hprofiles, State.lockedPart]

section Locked

variable {s t : State} (hl : s.lock = true)
include hl

/-- With LOCK = 1 no register write of an idle block reaches LOCK or what it protects. -/
theorem writeRegister_lockedPart {v : Word} {r : Reg} (hp : s.seq.phase = .idle) (hw : writeRegister s v r = .next t) :
    t.lockedPart = s.lockedPart := by
  cases r with
  | ctrl =>
    cases hw
    simp [State.lockedPart, hl]
  | cmd =>
    obtain ⟨u, hu, ⟨e, -, rfl⟩ | ⟨i, -, rfl⟩⟩ := commandWrite_next (w := v) hp
    · cases hu.symm.trans hw
      rfl
    · cases hu.symm.trans hw
      exact (CommandFrame.present i s).inputs.lockedPart
  | tol | margin | profile =>
    rw [writeRegister, lockableWrite_locked hl] at hw
    cases hw
    rfl
  | _ =>
    cases hw
    rfl

/-- With LOCK = 1 only reset reaches LOCK and what it protects. -/
theorem StepEffect.lockedPart {o : Option Event} (h : StepEffect o s t) (ho : o ≠ some .resetAssert) :
    t.lockedPart = s.lockedPart := by
  cases h with
  | sequencer i _ _ _ _ hx => exact (CommandFrame.exec hx).inputs.lockedPart
  | write e _ _ _ _ _ hp hw => exact writeRegister_lockedPart (s := s.setEnv e) hl hp hw
  | resetAssert hreset => exact absurd hreset ho
  | outside | driver | lost | resetRelease => rfl

end Locked

/-- No effect of a step schedules an event. -/
theorem StepEffect.schedule {o : Option Event} {s t : State} (h : StepEffect o s t) :
    t.env.schedule = s.env.schedule := by
  cases h with
  | outside e he => exact he.schedule
  | sequencer i _ _ _ _ hx => exact (CommandFrame.exec hx).schedule
  | lost e he => exact he.schedule
  | write e _ _ _ he _ hp hw =>
    rw [writeRegister_env (s := s.setEnv e) hp hw]
    exact he.schedule
  | driver | resetAssert | resetRelease => rfl

/-- A step takes the next event off the schedule and adds none. -/
theorem step_schedule {s t : State} (h : step s = .next t) : t.env.schedule = s.env.schedule.tail :=
  (step_effect h).schedule

/-- A run of a locked block with no reset scheduled keeps LOCK and what it protects. -/
theorem runFor_lockedPart {s t : State} {k : Nat} (hl : s.lock = true) (hreset : .resetAssert ∉ s.env.schedule)
    (h : runFor k s = .next t) : t.lockedPart = s.lockedPart := by
  induction k generalizing s with
  | zero =>
    cases h
    rfl
  | succ k ih =>
    obtain ⟨u, hu, hut⟩ := runFor_split h
    have hsu : u.lockedPart = s.lockedPart :=
      (step_effect hu).lockedPart (s := s.taken) hl fun ho => hreset (List.mem_of_head? ho)
    have hlu : u.lock = true := (congrArg Prod.fst hsu).trans hl
    have hru : .resetAssert ∉ u.env.schedule := fun hm => hreset (List.mem_of_mem_tail (step_schedule hu ▸ hm))
    exact (ih hlu hru hut).trans hsu

/-- Settles O38: the run keeps LOCK and what it protects. -/
theorem lockFreezesTheConfigurationUntilReset : Obligations.LockFreezesTheConfigurationUntilReset := by
  intro s t k hl hreset h
  simpa [State.lockedPart, hl] using runFor_lockedPart hl hreset h

/-! ### The block held in reset (70_reset_and_hazards.md R220, R221) -/

/-- While reset is asserted every agent but the release leaves the state as it is, except that the clock may advance; to
assert reset again changes nothing, for the block holds its reset values. -/
theorem agentStep_inReset {s : State} {e : Event} (hi : s.Inv) (hr : s.inReset = true) (he : e ≠ .resetRelease) :
    ∃ c, agentStep e s = .next (s.setEnv { s.env with clock := c }) := by
  cases e with
  | host => exact ⟨s.env.clock, if_pos hr⟩
  | hostLine => exact ⟨s.env.clock, if_pos hr⟩
  | sequencer => exact ⟨s.env.clock, if_pos hr⟩
  | driver => exact ⟨s.env.clock, congrArg Host.Outcome.next (if_pos hr)⟩
  | clockTick us => exact ⟨_, rfl⟩
  | collaborator => exact ⟨s.env.clock, if_pos hr⟩
  | resetAssert => exact ⟨s.env.clock, congrArg Host.Outcome.next (hi.reset hr).symm⟩
  | resetRelease => exact absurd rfl he

/-- So a step in reset that does not release it takes its event, and no more than the clock moves. -/
theorem step_inReset {s : State} (hi : s.Inv) (hr : s.inReset = true) (hs : ∀ es, s.env.schedule ≠ .resetRelease :: es) :
    ∃ c, step s = .next (s.taken.setEnv { s.taken.env with clock := c }) := by
  unfold step stepOnce
  split
  case h_1 hnil =>
    rw [State.taken_nil hnil]
    exact ⟨s.env.clock, if_pos hr⟩
  case h_2 e es hcons =>
    rw [State.taken, hcons]
    exact agentStep_inReset (s := s.setSchedule es) (hi.setEnv _) hr fun he => hs es (he ▸ hcons)

/-- Settles O47: the step moves only the schedule and the clock, both outside the block. -/
theorem assertedResetHoldsTheBlock : Obligations.AssertedResetHoldsTheBlock := by
  intro s hi hr hs
  obtain ⟨c, hc⟩ := step_inReset hi hr hs
  exact ⟨_, hc, rfl, rfl, rfl, rfl, rfl, rfl⟩

end Sys2Proof.Machine
